-- ==== Sys2Proof/Word.lean ====
section
/-!
DEFINITION. The words of the block: bytes, register words and binary64 patterns (00_scope.md rules R5, R8, R9).
-/

namespace Sys2Proof

/-- One byte, the smallest addressable unit (20_memory.md rule R60). -/
abbrev Byte := BitVec 8

/-- A 64-bit register word (10_state.md rule R21). -/
abbrev Word := BitVec 64

/-- The stored part of an integer parameter register (10_state.md rule R28). -/
abbrev Word32 := BitVec 32

/-- A byte offset in the block's space of 2^24 offsets (20_memory.md rule R60). -/
abbrev Offset := BitVec 24

/-- The number domain `Num` of the spec under the default NUMERICS: an IEEE 754 binary64 value, held as its bit pattern,
so that there `as_f64` is the identity (00_scope.md rules R5, R8, R9). -/
abbrev Num64 := BitVec 64

end Sys2Proof
end

