-- ==== Sys2Proof/Config.lean ====
section
/-!
DEFINITION. What the spec leaves open: the parameters of 00_scope.md rule R3 and the free values. Each is an opaque
constant with no body, so nothing can be proved of it but what its type says. The two that stand for a NUMERICS,
`Config.openOps` and `Config.otherNumerics`, have the rules that bind them in their types, and so are declared after
those, in `Machine/Configured.lean`.
-/

namespace Sys2Proof

/-- What a `Num` can stand for (00_scope.md rule R8): NaN, an infinity, or a real number. Both zeros stand for 0. No step
computes one: the rules on arithmetic are said in terms of it. -/
inductive NumValue where
  | nan
  | inf (neg : Bool)
  | finite (a : ℝ)

/-- The operations that are open whatever NUMERICS is: the transcendental functions (00_scope.md rule R10) and the PRNG,
whose state type is taken as `Nat` (00_scope.md rule R11; log 5). -/
structure OpenOps (Num : Type) where
  sin : Num → Num
  exp : Num → Num
  pow : Num → Num → Num
  tanh : Num → Num
  rngInit : Word → Nat
  rngNext : Nat → Nat × Num
  deriving Inhabited

/-- A choice of the parameter NUMERICS: a number domain with its operations and constants, and the map from bit patterns
to it (00_scope.md rules R3, R5, R7, R8; 10_state.md rule R34). -/
structure Numerics (Num : Type) extends OpenOps Num where
  /-- What a value stands for. -/
  standsFor : Num → NumValue → Prop
  /-- `as_f64`, the map from Bits64 to Num: how a real register is read (R5, R34). -/
  asF64 : Word → Num
  /-- The conversion of an integer (30_encoding.md rule R96). -/
  ofNat : Nat → Num
  /-- The value nearest the decimal n / 10 (R7). -/
  tenths : Nat → Num
  /-- The value nearest 2 pi (R7). -/
  twoPi : Num
  add : Num → Num → Num
  sub : Num → Num → Num
  mul : Num → Num → Num
  div : Num → Num → Num
  min : Num → Num → Num
  max : Num → Num → Num
  neg : Num → Num
  abs : Num → Num
  floor : Num → Num
  trunc : Num → Num
  sign : Num → Num
  lt : Num → Num → Bool
  le : Num → Num → Bool
  eq : Num → Num → Bool
  isFinite : Num → Bool
  /-- The integer of an integer-valued `Num`, as the sample memory keeps it (10_state.md rule R44). -/
  toInt : Num → Int
  deriving Inhabited

/-- BASE divided by 2^24 (00_scope.md rule R3, 20_memory.md rule R60: BASE is a multiple of 2^24). -/
opaque Config.basePage : Nat

/-- `draw()`: the value an unspecified entry reads as, under no law, one per use (20_memory.md rule R71; log 7). -/
opaque Config.draw : Nat → Word

/-- RENDER_LATENCY: the number of host-visible steps a render takes, any finite number, one per render
(70_reset_and_hazards.md rule R352; log 6). -/
opaque Config.renderLatency : Nat → Nat

/-- BASE, the bus address of offset 0 (00_scope.md rule R3). -/
def Config.base : Nat := 2 ^ 24 * Config.basePage

end Sys2Proof
end

