-- ==== Sys2Proof/Machine/Float.lean ====
section
/-!
DEFINITION. The default numerics: IEEE 754 binary64, round to nearest, ties to even (00_scope.md rules R7-R9, R12;
30_encoding.md rule R91; logs 3 and 14). A finite value is a signed multiple of 2^-1074, so each operation computes its
exact result over `Nat` or `Int` in that unit and narrows once, in `numRound`.
-/

namespace Sys2Proof.Machine

/-- The sign bit, bit 63 (R91). -/
def numSign (x : Num64) : Bool := x.msb

/-- The biased exponent, bits [62:52] (R91). -/
def numExponent (x : Num64) : Nat := (x.extractLsb' 52 11).toNat

/-- The fraction, bits [51:0] (R91). -/
def numFraction (x : Num64) : Nat := (x.extractLsb' 0 52).toNat

/-- NaN: all-ones exponent, nonzero fraction. -/
def numIsNaN (x : Num64) : Bool := numExponent x == 2047 && numFraction x != 0

/-- Plus or minus infinity. -/
def numIsInf (x : Num64) : Bool := numExponent x == 2047 && numFraction x == 0

/-- `isfinite`: false for NaN and for both infinities (R8). -/
def numIsFinite (x : Num64) : Bool := numExponent x != 2047

/-- Either zero. -/
def numIsZero (x : Num64) : Bool := x.extractLsb' 0 63 == 0#63

/-- The NaN an operation returns. The spec fixes no payload (log 3). -/
def numNaN : Num64 := 0x7FF8000000000000#64

/-- The bits below the sign of infinity, as a number. -/
def infPattern : Nat := 0x7FF0000000000000

/-- The pattern with the given sign and the given bits below it. -/
def numOfParts (neg : Bool) (pattern : Nat) : Num64 :=
  BitVec.ofNat 64 (if neg then 2 ^ 63 + pattern else pattern)

/-- Infinity of a sign. -/
def numInf (neg : Bool) : Num64 := numOfParts neg infPattern

/-- Zero of a sign. -/
def numZero (neg : Bool) : Num64 := numOfParts neg 0

/-- One in the unit 2^-1074. Irreducible, so that no proof unrolls the power by accident. -/
@[irreducible] def unitOne : Nat := 2 ^ 1074

/-- The magnitude of a finite value in the unit 2^-1074. -/
def numMag (x : Num64) : Nat :=
  if numExponent x = 0 then numFraction x else (2 ^ 52 + numFraction x) * 2 ^ (numExponent x - 1)

/-- A finite value in the unit 2^-1074. -/
def numScaled (x : Num64) : Int := if numSign x then -(numMag x : Int) else (numMag x : Int)

/-- The quotient n / d rounded to the nearest integer, ties to even. -/
def roundEven (n d : Nat) : Nat :=
  let q := n / d
  let r := n % d
  if d < 2 * r ∨ (2 * r = d ∧ q % 2 = 1) then q + 1 else q

/-- How many low bits a magnitude of `q` units loses: a binary64 keeps 53 significant bits, and never less than one
unit. -/
def roundShift (q : Nat) : Nat := Nat.log2 q - 52

/-- The bits below the sign of the binary64 nearest the magnitude n / d units (R9: nearest, ties to even). -/
def roundPattern (n d : Nat) : Nat :=
  let k := roundShift (n / d)
  min (2 ^ 52 * k + roundEven n (d * 2 ^ k)) infPattern

/-- The binary64 nearest the exact value of sign `neg` and magnitude n / d units. -/
def numRound (neg : Bool) (n d : Nat) : Num64 := numOfParts neg (roundPattern n d)

/-- `-x` (R7). -/
def numNeg (x : Num64) : Num64 := x ^^^ 0x8000000000000000#64

/-- `ABS(x)` (R7). -/
def numAbs (x : Num64) : Num64 := x &&& 0x7FFFFFFFFFFFFFFF#64

/-- `x + y` (R9). -/
def numAdd (x y : Num64) : Num64 :=
  if numIsNaN x || numIsNaN y then numNaN
  else if numIsInf x then (if numIsInf y && numSign x != numSign y then numNaN else x)
  else if numIsInf y then y
  else
    let z := numScaled x + numScaled y
    if z = 0 then numZero (numSign x && numSign y) else numRound (decide (z < 0)) z.natAbs 1

/-- `x - y` (R7). -/
def numSub (x y : Num64) : Num64 := numAdd x (numNeg y)

/-- `x * y` (R9). -/
def numMul (x y : Num64) : Num64 :=
  let neg := numSign x != numSign y
  if numIsNaN x || numIsNaN y then numNaN
  else if numIsInf x then (if numIsZero y then numNaN else numInf neg)
  else if numIsInf y then (if numIsZero x then numNaN else numInf neg)
  else numRound neg (numMag x * numMag y) unitOne

/-- `x / y` (R9). -/
def numDiv (x y : Num64) : Num64 :=
  let neg := numSign x != numSign y
  if numIsNaN x || numIsNaN y then numNaN
  else if numIsInf x then (if numIsInf y then numNaN else numInf neg)
  else if numIsInf y then numZero neg
  else if numIsZero y then (if numIsZero x then numNaN else numInf neg)
  else numRound neg (unitOne * numMag x) (numMag y)

/-- The order of non-NaN values: the bits below the sign, negated for a negative value. Both zeros have key 0. -/
def numKey (x : Num64) : Int :=
  if numSign x then -((x.extractLsb' 0 63).toNat : Int) else ((x.extractLsb' 0 63).toNat : Int)

/-- `x < y`, false if either is NaN (R8). -/
def numLt (x y : Num64) : Bool := !numIsNaN x && !numIsNaN y && decide (numKey x < numKey y)

/-- `x <= y`, false if either is NaN (R8). -/
def numLe (x y : Num64) : Bool := !numIsNaN x && !numIsNaN y && decide (numKey x ≤ numKey y)

/-- `x = y` as numbers, false if either is NaN (R8). -/
def numEq (x y : Num64) : Bool := !numIsNaN x && !numIsNaN y && decide (numKey x = numKey y)

/-- An exact integer of a given sign as a `Num64`, with the sign kept on zero. -/
def numOfMag (neg : Bool) (n : Nat) : Num64 := numRound neg (unitOne * n) 1

/-- A natural number converted to `Num64`, exact below 2^53 (R9). -/
def numOfNat (n : Nat) : Num64 := numOfMag false n

/-- `FLOOR(x)`; NaN and infinity return their operand (R7, R9). -/
def numFloor (x : Num64) : Num64 :=
  if numIsFinite x then numOfMag (numSign x) (numScaled x / (unitOne : Int)).natAbs else x

/-- `TRUNC(x)`; NaN and infinity return their operand (R7, R9). -/
def numTrunc (x : Num64) : Num64 :=
  if numIsFinite x then numOfMag (numSign x) (numMag x / unitOne) else x

/-- `MIN(a, b)` (R7; log 14 for NaN and equal operands). -/
def numMin (a b : Num64) : Num64 := if numLt b a then b else a

/-- `MAX(a, b)` (R7; log 14 for NaN and equal operands). -/
def numMax (a b : Num64) : Num64 := if numLt a b then b else a

/-- The value 1. -/
def numOne : Num64 := 0x3FF0000000000000#64

/-- `SIGN(x)`: +1, -1, 0 for either zero, NaN for NaN (R12). -/
def numSignum (x : Num64) : Num64 :=
  if numIsNaN x then numNaN
  else if numIsZero x then numZero false
  else if numSign x then numNeg numOne
  else numOne

/-- The integer of an integer-valued `Num64`: a fraction is dropped toward zero, and what is not finite gives 0. -/
def numToInt (x : Num64) : Int :=
  if numIsFinite x then
    (if numSign x then -((numMag x / unitOne : Nat) : Int) else ((numMag x / unitOne : Nat) : Int))
  else 0

/-- What a `Num64` stands for (R8). -/
def numStandsFor (x : Num64) : NumValue → Prop
  | .nan => numIsNaN x = true
  | .inf neg => numIsInf x = true ∧ numSign x = neg
  | .finite a => numIsFinite x = true ∧ a * unitOne = numScaled x

/-- The value nearest 2 pi (R7; log 15). -/
def numTwoPi : Num64 := 0x401921FB54442D18#64

/-- The value nearest the decimal n / 10 (R7). -/
def numTenths (n : Nat) : Num64 := numRound false (unitOne * n) 10

end Sys2Proof.Machine
end

