-- ==== Sys2Proof/Machine/Numerics.lean ====
section
/-!
DEFINITION. The parameter NUMERICS (00_scope.md rules R3, R7-R12): what rules R7, R8, R10 and R11 require of one, and
binary64 with given open operations (logs 4, 5 and 19). `Machine/Configured.lean` says which one a block has.
-/

namespace Sys2Proof.Machine

/-! ### What a value stands for -/

/-- `a < b`, false if either is NaN (R8). -/
def valueLt : NumValue → NumValue → Prop
  | .nan, _ => False
  | _, .nan => False
  | .inf m, .inf n => m = true ∧ n = false
  | .inf m, .finite _ => m = true
  | .finite _, .inf n => n = false
  | .finite a, .finite b => a < b

/-- `a = b`, false if either is NaN (R8). -/
def valueEq (a b : NumValue) : Prop := a ≠ .nan ∧ a = b

/-- A function of numbers on the finite values; an infinity goes to the one given, NaN stays. -/
def valueMap (f : ℝ → ℝ) (g : Bool → Bool) : NumValue → NumValue
  | .nan => .nan
  | .inf m => .inf (g m)
  | .finite a => .finite (f a)

/-- `-m <= x <= m`. -/
abbrev Within {Num : Type} (nx : Numerics Num) (m : Nat) (x : Num) : Prop :=
  nx.le (nx.neg (nx.ofNat m)) x = true ∧ nx.le x (nx.ofNat m) = true

/-- An integer in [-m, m]. -/
abbrev IntegerWithin {Num : Type} (nx : Numerics Num) (m : Nat) (x : Num) : Prop :=
  ∃ z : Int, nx.standsFor x (.finite z) ∧ -(m : Int) ≤ z ∧ z ≤ m

/-- A finite value, and none is nearer the real number a. -/
abbrev Nearest {Num : Type} (nx : Numerics Num) (a : ℝ) (x : Num) : Prop :=
  ∃ b : ℝ, nx.standsFor x (.finite b) ∧ ∀ (y : Num) (c : ℝ), nx.standsFor y (.finite c) → |b - a| ≤ |c - a|

/-! ### What the rules require of a NUMERICS -/

/-- Every value stands for one thing (R8). -/
abbrev ValueLaw {Num : Type} (nx : Numerics Num) : Prop := ∀ x : Num, ∃! v, nx.standsFor x v

/-- Comparisons, MIN and MAX are exact (R8; log 14 leaves MIN and MAX of a NaN open). -/
abbrev OrderLaws {Num : Type} (nx : Numerics Num) : Prop :=
  ∀ (x y : Num) (v w : NumValue), nx.standsFor x v → nx.standsFor y w →
    (nx.lt x y = true ↔ valueLt v w) ∧ (nx.le x y = true ↔ valueLt v w ∨ valueEq v w) ∧
    (nx.eq x y = true ↔ valueEq v w) ∧
    (v ≠ .nan → w ≠ .nan →
      nx.standsFor (nx.min x y) (if nx.lt y x then w else v) ∧
      nx.standsFor (nx.max x y) (if nx.lt x y then w else v))

/-- `isfinite`, negation, ABS, FLOOR and TRUNC are exact, and TRUNC rounds toward zero (R7, R8). That FLOOR and TRUNC of an
infinity are that infinity, and that all four of a NaN are a NaN, R9 says of the default; it is taken of every NUMERICS
(log 21). -/
abbrev UnaryLaws {Num : Type} (nx : Numerics Num) : Prop :=
  ∀ (x : Num) (v : NumValue), nx.standsFor x v →
    (nx.isFinite x = true ↔ ∃ a, v = .finite a) ∧
    nx.standsFor (nx.neg x) (valueMap (fun a => -a) not v) ∧
    nx.standsFor (nx.abs x) (valueMap (fun a => |a|) (fun _ => false) v) ∧
    nx.standsFor (nx.floor x) (valueMap (fun a => ⌊a⌋) id v) ∧
    nx.standsFor (nx.trunc x) (valueMap (fun a => if 0 ≤ a then ⌊a⌋ else ⌈a⌉) id v)

/-- `SIGN(x)` is +1, -1 or 0, and NaN for NaN (R12). -/
abbrev SignLaws {Num : Type} (nx : Numerics Num) : Prop :=
  ∀ (x : Num) (v : NumValue), nx.standsFor x v →
    (valueLt (.finite 0) v → nx.standsFor (nx.sign x) (.finite 1)) ∧
    (valueLt v (.finite 0) → nx.standsFor (nx.sign x) (.finite (-1))) ∧
    (v = .finite 0 → nx.standsFor (nx.sign x) (.finite 0)) ∧
    (v = .nan → nx.standsFor (nx.sign x) .nan)

/-- The integer of an integer value is that integer (10_state.md rule R44). A count that is not finite, which no rule gives,
is taken as 0 (log 21). -/
abbrev IntegerLaws {Num : Type} (nx : Numerics Num) : Prop :=
  ∀ x : Num,
    (∀ z : Int, nx.standsFor x (.finite z) → nx.toInt x = z) ∧
    ((∀ a, ¬ nx.standsFor x (.finite a)) → nx.toInt x = 0)

/-- Every 32-bit integer converts exactly (30_encoding.md rule R96), and the constants are the values nearest the
decimals and 2 pi (R7). -/
abbrev ConstantLaws {Num : Type} (nx : Numerics Num) : Prop :=
  (∀ n : Nat, n < 2 ^ 32 → nx.standsFor (nx.ofNat n) (.finite n)) ∧
  (∀ n : Nat, n < 10 → Nearest nx (n / 10) (nx.tenths n)) ∧ Nearest nx (2 * Real.pi) nx.twoPi

/-- What rules R7, R8, R12 and R96 require of a NUMERICS. Of `+ - * /` they require nothing (log 21). -/
abbrev ExactLaws {Num : Type} (nx : Numerics Num) : Prop :=
  ValueLaw nx ∧ OrderLaws nx ∧ UnaryLaws nx ∧ SignLaws nx ∧ IntegerLaws nx ∧ ConstantLaws nx

/-- The named properties of SIN (R10). -/
abbrev SinLaws {Num : Type} (nx : Numerics Num) : Prop :=
  ∀ x : Num,
    (nx.eq x (nx.ofNat 0) = true → nx.eq (nx.sin x) (nx.ofNat 0) = true) ∧
    (nx.isFinite x = true →
      nx.le (nx.neg (nx.ofNat 1)) (nx.sin x) = true ∧ nx.le (nx.sin x) (nx.ofNat 1) = true) ∧
    (nx.isFinite x = false → nx.standsFor (nx.sin x) .nan)

/-- The named properties of EXP (R10): positive, or plus infinity, on finite operands, and EXP(0) = 1. -/
abbrev ExpLaws {Num : Type} (nx : Numerics Num) : Prop :=
  ∀ x : Num,
    (nx.isFinite x = true → nx.lt (nx.ofNat 0) (nx.exp x) = true) ∧
    (nx.eq x (nx.ofNat 0) = true → nx.eq (nx.exp x) (nx.ofNat 1) = true)

/-- The named properties of POW (R10). -/
abbrev PowLaws {Num : Type} (nx : Numerics Num) : Prop :=
  (∀ b e : Num,
    nx.isFinite b = true → nx.lt (nx.ofNat 0) b = true → nx.isFinite e = true → nx.le (nx.ofNat 0) e = true →
      nx.le (nx.ofNat 0) (nx.pow b e) = true ∧
      (nx.eq e (nx.ofNat 0) = true → nx.eq (nx.pow b e) (nx.ofNat 1) = true)) ∧
  (∀ t : Num, nx.le (nx.ofNat 0) t = true → nx.le (nx.ofNat 1) (nx.pow (nx.ofNat 2) t) = true)

/-- The named properties of TANH (R10): odd, within [-1, 1], plus or minus 1 at the infinities, NaN at NaN,
non-decreasing. -/
abbrev TanhLaws {Num : Type} (nx : Numerics Num) : Prop :=
  (∀ x : Num,
    (¬ nx.standsFor x .nan →
      nx.eq (nx.tanh (nx.neg x)) (nx.neg (nx.tanh x)) = true ∧
      nx.le (nx.neg (nx.ofNat 1)) (nx.tanh x) = true ∧ nx.le (nx.tanh x) (nx.ofNat 1) = true) ∧
    (nx.standsFor x .nan → nx.standsFor (nx.tanh x) .nan) ∧
    (nx.standsFor x (.inf false) → nx.eq (nx.tanh x) (nx.ofNat 1) = true) ∧
    (nx.standsFor x (.inf true) → nx.eq (nx.tanh x) (nx.neg (nx.ofNat 1)) = true)) ∧
  (∀ x y : Num, nx.le x y = true → nx.le (nx.tanh x) (nx.tanh y) = true)

/-- The named properties of R10, together. -/
abbrev TranscendentalLaws {Num : Type} (nx : Numerics Num) : Prop :=
  SinLaws nx ∧ ExpLaws nx ∧ PowLaws nx ∧ TanhLaws nx

/-- Every draw lies in [-1, 1] (R11). -/
abbrev DrawLaws {Num : Type} (nx : Numerics Num) : Prop :=
  ∀ st : Nat, Within nx 1 (nx.rngNext st).2

/-- `CLAMP(x, lo, hi) = MIN(MAX(x, lo), hi)` (R7). -/
def clamp {Num : Type} (nx : Numerics Num) (x lo hi : Num) : Num := nx.min (nx.max x lo) hi

/-- The natural number of a non-negative integer-valued `Num`. -/
def countOf {Num : Type} (nx : Numerics Num) (x : Num) : Nat := (nx.toInt x).toNat

/-! ### binary64 -/

/-- binary64 with the given open operations; the default NUMERICS is this one with those of the block (R9). -/
def binary64 (o : OpenOps Num64) : Numerics Num64 where
  toOpenOps := o
  standsFor := numStandsFor
  asF64 v := v
  ofNat := numOfNat
  tenths := numTenths
  twoPi := numTwoPi
  add := numAdd
  sub := numSub
  mul := numMul
  div := numDiv
  min := numMin
  max := numMax
  neg := numNeg
  abs := numAbs
  floor := numFloor
  trunc := numTrunc
  sign := numSignum
  lt := numLt
  le := numLe
  eq := numEq
  isFinite := numIsFinite
  toInt := numToInt

/-- Operations with the properties of R10. Nothing depends on which they are: they show that the properties can be
met. -/
def plainOps : OpenOps Num64 where
  sin x := if numIsFinite x then numZero false else numNaN
  exp _ := numOne
  pow _ _ := numOne
  tanh x := if numIsNaN x then numNaN else numSignum x
  rngInit _ := 0
  rngNext st := (st, numZero false)

end Sys2Proof.Machine
end

