-- ==== Sys2Proof/Syntax.lean ====
section
/-!
DEFINITION. The instructions, one constructor per row of spec/opcode_table.json, and the bus accesses that carry
them. The block fetches nothing (10_state.md rule R38): an instruction is one admitted 8-byte write of a command word
to CMD, or of a selector word to WAVEFORM, NOISE_TYPE, BIT_DEPTH or CTRL (30_encoding.md rules R90-R102).
-/

namespace Sys2Proof

/-- The number of bytes of a host access (20_memory.md rule R61). -/
inductive Width where
  | one
  | two
  | four
  | eight
  deriving DecidableEq, Repr

/-- The width in bytes. -/
def Width.bytes : Width → Nat
  | .one => 1
  | .two => 2
  | .four => 4
  | .eight => 8

/-- `MemWrite(BASE + off, width, data)` (20_memory.md rule R61). -/
structure BusWrite where
  off : Offset
  width : Width
  data : Word
  deriving DecidableEq, Repr

/-- One constructor per row of spec/opcode_table.json. An argument holds bits of the written word that the row does
not fix: `ignored` are the bits the register drops (bits [63:32] of a U32 register, bits [63:2] of CTRL), and
`irqEn` is CTRL bit 1, which the same write stores (30_encoding.md rules R92, R93). -/
inductive Instr where
  /-- NOP: CMD word 0x0 (40_commands.md rule R120). -/
  | nop
  /-- RENDER: CMD word 0x1 (40_commands.md rule R121). -/
  | render
  /-- CLEAR_STATUS: CMD word 0x2 (40_commands.md rule R124). -/
  | clearStatus
  /-- SOFT_RESET: CMD word 0x3 (40_commands.md rule R125). -/
  | softReset
  /-- WAVEFORM.SINE: WAVEFORM code 0 (42_oscillators.md rule R180). -/
  | waveformSine (ignored : BitVec 32)
  /-- WAVEFORM.TRIANGLE: WAVEFORM code 1 (42_oscillators.md rule R181). -/
  | waveformTriangle (ignored : BitVec 32)
  /-- WAVEFORM.SAWTOOTH: WAVEFORM code 2 (42_oscillators.md rule R182). -/
  | waveformSawtooth (ignored : BitVec 32)
  /-- WAVEFORM.SQUARE: WAVEFORM code 3 (42_oscillators.md rule R183). -/
  | waveformSquare (ignored : BitVec 32)
  /-- WAVEFORM.NOISE_WHITE: WAVEFORM code 4 (42_oscillators.md rule R184). -/
  | waveformNoiseWhite (ignored : BitVec 32)
  /-- WAVEFORM.NOISE_PINK: WAVEFORM code 5 (42_oscillators.md rule R185). -/
  | waveformNoisePink (ignored : BitVec 32)
  /-- WAVEFORM.NOISE_BROWN: WAVEFORM code 6 (42_oscillators.md rule R186). -/
  | waveformNoiseBrown (ignored : BitVec 32)
  /-- NOISE_TYPE.NONE: NOISE_TYPE code 0 (41_render.md rule R148). -/
  | noiseTypeNone (ignored : BitVec 32)
  /-- NOISE_TYPE.WHITE: NOISE_TYPE code 1 (42_oscillators.md rule R171). -/
  | noiseTypeWhite (ignored : BitVec 32)
  /-- NOISE_TYPE.PINK: NOISE_TYPE code 2 (42_oscillators.md rule R172). -/
  | noiseTypePink (ignored : BitVec 32)
  /-- NOISE_TYPE.BROWN: NOISE_TYPE code 3 (42_oscillators.md rule R173). -/
  | noiseTypeBrown (ignored : BitVec 32)
  /-- BIT_DEPTH.16: BIT_DEPTH value 16 (44_mix_quantize.md rule R227). -/
  | bitDepth16 (ignored : BitVec 32)
  /-- BIT_DEPTH.24: BIT_DEPTH value 24 (44_mix_quantize.md rule R227). -/
  | bitDepth24 (ignored : BitVec 32)
  /-- PITCH.STEP: CTRL with SMOOTH = 0 (43_pitch_envelope.md rule R201). -/
  | pitchStep (irqEn : Bool) (ignored : BitVec 62)
  /-- PITCH.SMOOTH: CTRL with SMOOTH = 1 (43_pitch_envelope.md rule R200). -/
  | pitchSmooth (irqEn : Bool) (ignored : BitVec 62)
  deriving DecidableEq, Repr

end Sys2Proof
end

