-- ==== Sys2Proof/Machine/State.lean ====
section
/-!
DEFINITION. The state of the block (10_state.md rules R20-R48, 70_reset_and_hazards.md rules R340-R342), its faults and
refusals, and the state right after reset.
-/

namespace Sys2Proof.Machine

/-- The direction of a host access (20_memory.md rule R66). -/
inductive Direction where
  | read
  | write
  deriving DecidableEq, Repr

/-- Why a step stops. -/
inductive Fault where
  /-- `BusFault(offset, n, direction)`: raised by a host access that is not admitted (20_memory.md rules R61, R66). The
  block's state is unchanged and nothing is recorded. Safe: the block itself goes on where the model stops (log 9). -/
  | busFault (off : Offset) (width : Width) (dir : Direction)
  deriving DecidableEq, Repr

/-- Why a step has no meaning. -/
inductive Refusal where
  /-- An arm of `exec` that has no meaning yet. Safe: nothing is claimed of it. No arm of this model raises it. -/
  | notModelled (mnemonic : String)
  deriving DecidableEq, Repr

/-- The values of the parameter registers and of CTRL.SMOOTH: the registers marked "snapshot" in 10_state.md rule R21.
The same record serves as the live registers and as the snapshot P (R40). -/
structure Params where
  /-- CTRL bit 0 (R24). -/
  smooth : Bool
  /-- SEED (R27). -/
  seed : Word
  /-- SAMPLE_RATE, in Hz (R29). -/
  sampleRate : Word32
  /-- BIT_DEPTH (R30). -/
  bitDepth : Word32
  /-- WAVEFORM (R31). -/
  waveform : Word32
  /-- NOISE_TYPE (R32). -/
  noiseType : Word32
  /-- NUM_OSC (R33). -/
  numOsc : Word32
  /-- LEVEL_COUNT (R33). -/
  levelCount : Word32
  startFreq : Word
  endFreq : Word
  duration : Word
  attack : Word
  decay : Word
  sustain : Word
  release : Word
  drive : Word
  filterCutoff : Word
  filterResonance : Word
  sweep : Word
  pitchDecay : Word
  noiseAmount : Word
  saturatorAmount : Word
  band0 : Word
  band1 : Word
  band2 : Word
  fadeDuration : Word
  /-- OSC_LEVEL[0 .. MAX_OSC - 1] (R35): as many entries as MAX_OSC. -/
  oscLevels : List Word
  deriving DecidableEq, Repr

/-- The fields of STATUS (R26). -/
structure Status where
  busy : Bool
  done : Bool
  err : Bool
  overrun : Bool
  errCode : Byte
  errDetail : Byte
  bps : BitVec 4
  samples : Word32
  deriving DecidableEq, Repr

/-- The engine mode (R45): IDLE, or RUNNING(P). The number is the model's own: the host-visible steps left before the
engine's update, a free value (70_reset_and_hazards.md rule R352; log 6). -/
inductive Engine where
  | idle
  | running (p : Params) (left : Nat)
  deriving DecidableEq, Repr

/-- Which NUMERICS the block is configured with (00_scope.md rules R3, R9; log 19): the default binary64, or the one
`Config.otherNumerics` gives (`Machine.numericsOf`). -/
inductive NumericsChoice where
  | binary64
  | other
  deriving DecidableEq, Repr

/-- The parameters of this block, wired in (00_scope.md rule R3; log 1): the capacities CAPS shows (R23), and the
NUMERICS, which no register shows. -/
structure Caps where
  maxSamples : Word32
  maxOsc : BitVec 16
  numerics : NumericsChoice
  deriving DecidableEq, Repr

/-- What the host can do to the block (70_reset_and_hazards.md rule R354): one bus access at an offset from BASE, or an
assertion of the reset input. -/
inductive BusEvent where
  | write (a : BusWrite)
  | read (off : Offset) (width : Width)
  | reset
  deriving DecidableEq, Repr

/-- The state of the block, and of its host port. -/
structure State where
  /-- The live parameter registers and CTRL.SMOOTH (R21). -/
  params : Params
  /-- CTRL bit 1, never snapshotted (R24). -/
  irqEn : Bool
  /-- STATUS (R26). -/
  status : Status
  /-- The engine mode (R45). -/
  engine : Engine
  /-- The sample memory (R44): bytes of the SAMPLE window keyed by offset, addresses strictly rising. An unlisted
  address is unspecified (log 13). -/
  mem : List Host.Cell
  /-- The parameters of the block (R23; log 1). -/
  caps : Caps
  /-- The model's own: the host's accesses not yet performed, oldest first (log 8). -/
  inbox : List BusEvent
  /-- The model's own: the data the last admitted read returned, zero-extended (log 17). -/
  lastRead : Option Word
  /-- The model's own: how many free values have been taken (log 7). -/
  freeCount : Nat
  deriving DecidableEq, Repr

/-- The default parameters MAX_SAMPLES = 2^20, MAX_OSC = 16 and NUMERICS = binary64 (00_scope.md rules R3, R9). -/
def Caps.default : Caps where
  maxSamples := 0x00100000#32
  maxOsc := 16#16
  numerics := .binary64

/-- OSC_LEVEL after reset: 1.0, then 0.0 for every k >= 1 (R35). -/
def resetLevels (maxOsc : Nat) : List Word :=
  (List.range maxOsc).map fun k => if k = 0 then 0x3FF0000000000000#64 else 0x0000000000000000#64

/-- The parameter registers after reset (R21, R48), for a block with `maxOsc` level registers. -/
def Params.reset (maxOsc : Nat) : Params where
  smooth := true
  seed := 0x0000000000000000#64
  sampleRate := 96000#32
  bitDepth := 16#32
  waveform := 0#32
  noiseType := 0#32
  numOsc := 1#32
  levelCount := 1#32
  startFreq := 0x4062C00000000000#64
  endFreq := 0x4044000000000000#64
  duration := 0x3FF0000000000000#64
  attack := 0x3F689374BC6A7EFA#64
  decay := 0x3FD3333333333333#64
  sustain := 0x3FB999999999999A#64
  release := 0x3FC3333333333333#64
  drive := 0x3FB999999999999A#64
  filterCutoff := 0x40AF400000000000#64
  filterResonance := 0x0000000000000000#64
  sweep := 0x3FE999999999999A#64
  pitchDecay := 0x3FE0000000000000#64
  noiseAmount := 0x0000000000000000#64
  saturatorAmount := 0x3FD3333333333333#64
  band0 := 0x4069000000000000#64
  band1 := 0x408F400000000000#64
  band2 := 0x40A7700000000000#64
  fadeDuration := 0x3F847AE147AE147B#64
  oscLevels := resetLevels maxOsc

/-- STATUS after reset (R26). -/
def Status.reset : Status where
  busy := false
  done := false
  err := false
  overrun := false
  errCode := 0#8
  errDetail := 0#8
  bps := 0#4
  samples := 0#32

/-- The block right after reset (R48, 70_reset_and_hazards.md rule R341), at the default parameters, with no host
access waiting. -/
def State.reset : State where
  params := Params.reset Caps.default.maxOsc.toNat
  irqEn := false
  status := Status.reset
  engine := .idle
  mem := []
  caps := Caps.default
  inbox := []
  lastRead := none
  freeCount := 0

end Sys2Proof.Machine
end

