-- ==== Sys2Proof/Machine/Registers.lean ====
section
/-!
DEFINITION. The register map (10_state.md rule R21) and one accessor per register format (30_encoding.md rule R90).
-/

namespace Sys2Proof.Machine

/-- The integer parameter registers (R28). -/
inductive U32Reg where
  | sampleRate
  | bitDepth
  | waveform
  | noiseType
  | numOsc
  | levelCount
  deriving DecidableEq, Repr

/-- The named real parameter registers (R34). -/
inductive F64Reg where
  | startFreq
  | endFreq
  | duration
  | attack
  | decay
  | sustain
  | release
  | drive
  | filterCutoff
  | filterResonance
  | sweep
  | pitchDecay
  | noiseAmount
  | saturatorAmount
  | band0
  | band1
  | band2
  | fadeDuration
  deriving DecidableEq, Repr

/-- What stands at an 8-aligned offset of the register window (R21). -/
inductive Reg where
  | id
  | caps
  | ctrl
  | cmd
  | status
  | seed
  | u32 (r : U32Reg)
  | f64 (r : F64Reg)
  | oscLevel (k : Nat)
  | reserved
  deriving DecidableEq, Repr

/-- The named rows of the register table (R21). -/
def regTable : List (Nat × Reg) :=
  [(0x000, .id), (0x008, .caps), (0x010, .ctrl), (0x018, .cmd), (0x020, .status), (0x028, .seed),
   (0x030, .u32 .sampleRate), (0x038, .u32 .bitDepth), (0x040, .u32 .waveform), (0x048, .u32 .noiseType),
   (0x050, .u32 .numOsc), (0x058, .u32 .levelCount)] ++
  [(0x060, .f64 .startFreq), (0x068, .f64 .endFreq), (0x070, .f64 .duration), (0x078, .f64 .attack),
   (0x080, .f64 .decay), (0x088, .f64 .sustain), (0x090, .f64 .release), (0x098, .f64 .drive),
   (0x0A0, .f64 .filterCutoff), (0x0A8, .f64 .filterResonance), (0x0B0, .f64 .sweep), (0x0B8, .f64 .pitchDecay),
   (0x0C0, .f64 .noiseAmount), (0x0C8, .f64 .saturatorAmount), (0x0D0, .f64 .band0), (0x0D8, .f64 .band1),
   (0x0E0, .f64 .band2), (0x0E8, .f64 .fadeDuration)]

/-- The register at an 8-aligned offset below 0x1000: a named row, OSC_LEVEL[k] at 0x100 + 8k for k < MAX_OSC, or a
reserved offset (R21, R35, 20_memory.md rule R65). -/
def regAt (maxOsc : Nat) (off : Nat) : Reg :=
  match regTable.lookup off with
  | some r => r
  | none => if 0x100 ≤ off ∧ (off - 0x100) / 8 < maxOsc then .oscLevel ((off - 0x100) / 8) else .reserved

/-- The stored 32 bits of an integer register. -/
def getU32 : U32Reg → Params → Word32
  | .sampleRate, p => p.sampleRate
  | .bitDepth, p => p.bitDepth
  | .waveform, p => p.waveform
  | .noiseType, p => p.noiseType
  | .numOsc, p => p.numOsc
  | .levelCount, p => p.levelCount

/-- Replace the stored 32 bits of an integer register. -/
def setU32 : U32Reg → Word32 → Params → Params
  | .sampleRate, v, p => { p with sampleRate := v }
  | .bitDepth, v, p => { p with bitDepth := v }
  | .waveform, v, p => { p with waveform := v }
  | .noiseType, v, p => { p with noiseType := v }
  | .numOsc, v, p => { p with numOsc := v }
  | .levelCount, v, p => { p with levelCount := v }

/-- The pattern in a named real register. -/
def getF64 : F64Reg → Params → Word
  | .startFreq, p => p.startFreq
  | .endFreq, p => p.endFreq
  | .duration, p => p.duration
  | .attack, p => p.attack
  | .decay, p => p.decay
  | .sustain, p => p.sustain
  | .release, p => p.release
  | .drive, p => p.drive
  | .filterCutoff, p => p.filterCutoff
  | .filterResonance, p => p.filterResonance
  | .sweep, p => p.sweep
  | .pitchDecay, p => p.pitchDecay
  | .noiseAmount, p => p.noiseAmount
  | .saturatorAmount, p => p.saturatorAmount
  | .band0, p => p.band0
  | .band1, p => p.band1
  | .band2, p => p.band2
  | .fadeDuration, p => p.fadeDuration

/-- Replace the pattern in a named real register. -/
def setF64 : F64Reg → Word → Params → Params
  | .startFreq, v, p => { p with startFreq := v }
  | .endFreq, v, p => { p with endFreq := v }
  | .duration, v, p => { p with duration := v }
  | .attack, v, p => { p with attack := v }
  | .decay, v, p => { p with decay := v }
  | .sustain, v, p => { p with sustain := v }
  | .release, v, p => { p with release := v }
  | .drive, v, p => { p with drive := v }
  | .filterCutoff, v, p => { p with filterCutoff := v }
  | .filterResonance, v, p => { p with filterResonance := v }
  | .sweep, v, p => { p with sweep := v }
  | .pitchDecay, v, p => { p with pitchDecay := v }
  | .noiseAmount, v, p => { p with noiseAmount := v }
  | .saturatorAmount, v, p => { p with saturatorAmount := v }
  | .band0, v, p => { p with band0 := v }
  | .band1, v, p => { p with band1 := v }
  | .band2, v, p => { p with band2 := v }
  | .fadeDuration, v, p => { p with fadeDuration := v }

/-- OSC_LEVEL[k]; an index the block has no register for reads 0, as a reserved offset does (R35). -/
def getLevel (k : Nat) (p : Params) : Word := p.oscLevels.getD k 0#64

/-- Replace OSC_LEVEL[k]. -/
def setLevel (k : Nat) (v : Word) (p : Params) : Params := { p with oscLevels := p.oscLevels.set k v }

/-- A register write of a U32 format register: bits [31:0] are stored, bits [63:32] are ignored (R28, R92). -/
def storeU32 (r : U32Reg) (v : Word) (s : State) : State :=
  { s with params := setU32 r (v.extractLsb' 0 32) s.params }

/-- A register write of an F64 format register: all 64 bits, verbatim (R34). -/
def storeF64 (r : F64Reg) (v : Word) (s : State) : State := { s with params := setF64 r v s.params }

/-- A register write of OSC_LEVEL[k]: all 64 bits, verbatim (R34, R35). -/
def storeLevel (k : Nat) (v : Word) (s : State) : State := { s with params := setLevel k v s.params }

/-- A register write of SEED: all 64 bits (R27). -/
def storeSeed (v : Word) (s : State) : State := { s with params := { s.params with seed := v } }

/-- A register write of CTRL: SMOOTH = v[0], IRQ_EN = v[1], the rest ignored (R24, R93). -/
def storeCtrl (v : Word) (s : State) : State :=
  { s with params := { s.params with smooth := v.getLsbD 0 }, irqEn := v.getLsbD 1 }

/-- A write to any register but CMD: a read-write register stores, a read-only register and a reserved offset ignore
it (20_memory.md rules R62, R65). Commands are not decided here: the decoder sends every CMD word to its meaning or to
`illegalCommand`. -/
def storeReg : Reg → Word → State → State
  | .ctrl, v, s => storeCtrl v s
  | .seed, v, s => storeSeed v s
  | .u32 r, v, s => storeU32 r v s
  | .f64 r, v, s => storeF64 r v s
  | .oscLevel k, v, s => storeLevel k v s
  | .id, _, s => s
  | .caps, _, s => s
  | .status, _, s => s
  | .cmd, _, s => s
  | .reserved, _, s => s

end Sys2Proof.Machine
end

