-- ==== Sys2Proof/Machine/Operands.lean ====
section
/-!
DEFINITION. The operands of a render, read from the snapshot (30_encoding.md rule R96, 41_render.md rules R141, R142,
R146): a command has no operand field of its own. A real register is read by the `as_f64` of the configured NUMERICS
(10_state.md rule R34).
-/

namespace Sys2Proof.Machine

/-- `as_u32(p)` of an integer register, as a count (R96). -/
def asU32 (v : Word32) : Nat := v.toNat

/-- `sr`: SAMPLE_RATE as a `Num`, exact (R141). -/
def rateNum {Num : Type} (nx : Numerics Num) (p : Params) : Num := nx.ofNat (asU32 p.sampleRate)

/-- The time of sample i: t = i / sr (R141). -/
def sampleTime {Num : Type} (nx : Numerics Num) (p : Params) (i : Nat) : Num := nx.div (nx.ofNat i) (rateNum nx p)

/-- `sr * D`, as the product of `Num` (R146). -/
def sampleSpan {Num : Type} (nx : Numerics Num) (p : Params) : Num := nx.mul (rateNum nx p) (nx.asF64 p.duration)

/-- N = FLOOR(sr * D) (R146). -/
def sampleCount {Num : Type} (nx : Numerics Num) (p : Params) : Nat := countOf nx (nx.floor (sampleSpan nx p))

/-- QSCALE = 2^bd - 1 (R142). -/
def quantScale {Num : Type} (nx : Numerics Num) (p : Params) : Num := nx.ofNat (2 ^ asU32 p.bitDepth - 1)

/-- NSCALE = 2^(bd - 1) (R142). -/
def noiseScale {Num : Type} (nx : Numerics Num) (p : Params) : Num := nx.ofNat (2 ^ (asU32 p.bitDepth - 1))

/-- level[k] for 0 <= k < K, K = as_u32(P.num_osc) (R142, 44_mix_quantize.md rule R225). -/
def stackLevels {Num : Type} (nx : Numerics Num) (p : Params) : List Num :=
  (List.range (asU32 p.numOsc)).map fun k => nx.asF64 (getLevel k p)

end Sys2Proof.Machine
end

