-- ==== Sys2Proof/Machine/Mix.lean ====
section
/-!
DEFINITION. Drive, the multiplies of the oscillator stack and the quantizer (44_mix_quantize.md rules R220-R228). That a NaN
or an infinity propagates through them to the quantizer (R220, R222, R228) follows from R9 under the default NUMERICS, and is
left free under another (log 21).
-/

namespace Sys2Proof.Machine

/-- Drive, the soft clip (R220). -/
def drive {Num : Type} (nx : Numerics Num) (d x : Num) : Num :=
  if nx.lt (nx.ofNat 0) d then
    nx.div (nx.mul x (nx.add (nx.ofNat 1) d)) (nx.add (nx.ofNat 1) (nx.mul d (nx.abs x)))
  else x

/-- One oscillator's share: the driven sample times the envelope, times the level (R221-R223). -/
def stackTerm {Num : Type} (nx : Numerics Num) (d x e level : Num) : Num :=
  nx.mul (nx.mul (drive nx d x) e) level

/-- The quantizer: `none` is NONFINITE (R227, 60_exceptions.md rule R304). The result is an integer-valued `Num` with no
width limit. -/
def quantize {Num : Type} (nx : Numerics Num) (total qscale : Num) : Option Num :=
  let v := nx.mul total qscale
  if nx.isFinite v then some (nx.floor v) else none

end Sys2Proof.Machine
end

