-- ==== Sys2Proof/Machine/PitchEnvelope.lean ====
section
/-!
DEFINITION. The pitch law and the envelope generator (43_pitch_envelope.md rules R200-R205).
-/

namespace Sys2Proof.Machine

/-- `pitch_mod(t) = 1 + 0.1 * EXP(-3 * t)` (R200, 41_render.md rule R150). -/
def pitchMod {Num : Type} (nx : Numerics Num) (t : Num) : Num :=
  nx.add (nx.ofNat 1) (nx.mul (nx.tenths 1) (nx.exp (nx.mul (nx.neg (nx.ofNat 3)) t)))

/-- The smooth pitch law (R200): the formula, also where END_FREQ / START_FREQ is 0 or infinite, so that R10 says nothing of
POW, not even at t = 0 (log 22). -/
def pitchSmooth {Num : Type} (nx : Numerics Num) (p : Params) (t : Num) : Num :=
  let start := nx.asF64 p.startFreq
  let r := nx.div (nx.asF64 p.endFreq) start
  let e := nx.mul (nx.div t (nx.asF64 p.duration)) (nx.asF64 p.sweep)
  let df := nx.pow r e
  nx.mul (nx.mul start df) (pitchMod nx t)

/-- The step pitch law (R201). -/
def pitchStep {Num : Type} (nx : Numerics Num) (p : Params) (t : Num) : Num :=
  if nx.lt t (nx.div (nx.asF64 p.duration) (nx.ofNat 2)) then nx.asF64 p.startFreq else nx.asF64 p.endFreq

/-- The pitch selector (R202). R202 infers f > 0 whenever it is finite; the model follows the formula, which can give 0 when
POW (00_scope.md rule R10) or a product underflows, under the default NUMERICS too (log 22). -/
def pitch {Num : Type} (nx : Numerics Num) (p : Params) (t : Num) : Num :=
  if p.smooth then pitchSmooth nx p t else pitchStep nx p t

/-- The ADSR envelope of the attack, decay, sustain, release and duration: the branches are tested in order (R203,
R204). What R204 infers of it, that it lies in [0, 1] and divides by no zero, is left free under a NUMERICS other than the
default (log 21). -/
def adsr {Num : Type} (nx : Numerics Num) (attack decay sustain release duration t : Num) : Num :=
  if nx.lt t attack then nx.div t attack
  else if nx.lt t (nx.add attack decay) then
    nx.sub (nx.ofNat 1) (nx.mul (nx.div (nx.sub t attack) decay) (nx.sub (nx.ofNat 1) sustain))
  else if nx.lt t (nx.sub duration release) then sustain
  else if nx.lt t duration then
    nx.mul sustain (nx.sub (nx.ofNat 1) (nx.div (nx.sub t (nx.sub duration release)) release))
  else nx.ofNat 0

/-- The envelope of a snapshot (R203). -/
def env {Num : Type} (nx : Numerics Num) (p : Params) (t : Num) : Num :=
  adsr nx (nx.asF64 p.attack) (nx.asF64 p.decay) (nx.asF64 p.sustain) (nx.asF64 p.release) (nx.asF64 p.duration) t

end Sys2Proof.Machine
end

