-- ==== Sys2Proof/Machine/Oscillators.lean ====
section
/-!
DEFINITION. The noise sources and the waveform oscillators (42_oscillators.md rules R170-R188). Every phase is computed
afresh from the current frequency; there is no phase accumulator (R188).
-/

namespace Sys2Proof.Machine

/-- The hidden per-render state the noise sources use: the PRNG state and the two accumulators (10_state.md rules R41,
R42). It lives inside one render only (R45; log 11). -/
structure Dsp (Num : Type) where
  rng : Nat
  accPink : Num
  accBrown : Num
  deriving DecidableEq, Repr

/-- Pipeline start: the PRNG is reloaded from SEED, both accumulators are 0 (41_render.md rule R143). -/
def dspStart {Num : Type} (nx : Numerics Num) (p : Params) : Dsp Num where
  rng := nx.rngInit p.seed
  accPink := nx.ofNat 0
  accBrown := nx.ofNat 0

/-- `draw_u()`: the only operation that advances the PRNG (R170). -/
def drawU {Num : Type} (nx : Numerics Num) (d : Dsp Num) : Num × Dsp Num :=
  let (rng, u) := nx.rngNext d.rng
  (u, { d with rng := rng })

/-- White noise: one draw (R171). -/
def noiseWhite {Num : Type} (nx : Numerics Num) (d : Dsp Num) : Num × Dsp Num := drawU nx d

/-- Pink noise: the running sum divided by the sample index plus one (R172). -/
def noisePink {Num : Type} (nx : Numerics Num) (i : Nat) (d : Dsp Num) : Num × Dsp Num :=
  let (u, d) := drawU nx d
  let acc := nx.add d.accPink u
  (nx.div acc (nx.ofNat (i + 1)), { d with accPink := acc })

/-- Brown noise: a clamped random walk of step 0.1 (R173). -/
def noiseBrown {Num : Type} (nx : Numerics Num) (d : Dsp Num) : Num × Dsp Num :=
  let (u, d) := drawU nx d
  let acc := clamp nx (nx.add d.accBrown (nx.mul (nx.tenths 1) u)) (nx.neg (nx.ofNat 1)) (nx.ofNat 1)
  (acc, { d with accBrown := acc })

/-- `(TWO_PI * f) * t`, the phase of Sine and Square (R180, R183, R188). Where `TWO_PI * f` overflows it is no number at t = 0
(log 22). -/
def sinePhase {Num : Type} (nx : Numerics Num) (f t : Num) : Num := nx.mul (nx.mul nx.twoPi f) t

/-- Sine (R180). -/
def oscSine {Num : Type} (nx : Numerics Num) (f t : Num) : Num := nx.sin (sinePhase nx f t)

/-- Triangle (R181). R181 infers the range [-1, 1]; the model follows the formula, which leaves it where `p + 0.5` is rounded,
at odd phases above 2^52 (log 22). -/
def oscTriangle {Num : Type} (nx : Numerics Num) (f t : Num) : Num :=
  let p := nx.mul t f
  nx.sub (nx.mul (nx.ofNat 2) (nx.abs (nx.mul (nx.ofNat 2) (nx.sub p (nx.floor (nx.add p (nx.tenths 5)))))))
    (nx.ofNat 1)

/-- Sawtooth (R182); its range as that of Triangle (log 22). -/
def oscSawtooth {Num : Type} (nx : Numerics Num) (f t : Num) : Num :=
  let p := nx.mul t f
  nx.mul (nx.ofNat 2) (nx.sub p (nx.floor (nx.add (nx.tenths 5) p)))

/-- Square (R183). -/
def oscSquare {Num : Type} (nx : Numerics Num) (f t : Num) : Num := nx.sign (nx.sin (sinePhase nx f t))

/-- NoiseWhite (R184). -/
def oscNoiseWhite {Num : Type} (nx : Numerics Num) (d : Dsp Num) : Num × Dsp Num := noiseWhite nx d

/-- NoisePink (R185). -/
def oscNoisePink {Num : Type} (nx : Numerics Num) (i : Nat) (d : Dsp Num) : Num × Dsp Num := noisePink nx i d

/-- NoiseBrown (R186). -/
def oscNoiseBrown {Num : Type} (nx : Numerics Num) (d : Dsp Num) : Num × Dsp Num := noiseBrown nx d

/-- `osc(code, f, t, i)` (R187). A code of 7 or more never reaches the pipeline, because validation refuses it; the
function is total and answers 0 there (log 16). -/
def osc {Num : Type} (nx : Numerics Num) (code : Word32) (f t : Num) (i : Nat) (d : Dsp Num) : Num × Dsp Num :=
  if code = 0#32 then (oscSine nx f t, d)
  else if code = 1#32 then (oscTriangle nx f t, d)
  else if code = 2#32 then (oscSawtooth nx f t, d)
  else if code = 3#32 then (oscSquare nx f t, d)
  else if code = 4#32 then oscNoiseWhite nx d
  else if code = 5#32 then oscNoisePink nx i d
  else if code = 6#32 then oscNoiseBrown nx d
  else (nx.ofNat 0, d)

end Sys2Proof.Machine
end

