-- ==== Sys2Proof/Machine/PostChain.lean ====
section
/-!
DEFINITION. The post chain: saturator, pseudo-band gain, noise mix, fade window (45_post_chain.md rules R240-R248).
-/

namespace Sys2Proof.Machine

/-- The saturator, always applied, normalized by 2^15 at both bit depths (R240). That small values are kept
(R240) asks more of TANH than R10 grants, and is left free (log 22). -/
def saturate {Num : Type} (nx : Numerics Num) (q s : Num) : Num :=
  let x := nx.div q (nx.ofNat 32768)
  let y := nx.tanh (nx.mul x (nx.add (nx.ofNat 1) s))
  nx.trunc (nx.mul y (nx.ofNat 32768))

/-- The gain of the pseudo-band attenuator for the proxy frequency `fp` (R242). -/
def bandGainOf {Num : Type} (nx : Numerics Num) (p : Params) (fp : Num) : Num :=
  if nx.lt fp (nx.asF64 p.band0) then nx.tenths 9
  else if nx.lt fp (nx.asF64 p.band1) then nx.tenths 8
  else if nx.lt fp (nx.asF64 p.band2) then nx.tenths 7
  else nx.tenths 6

/-- The proxy frequency `440 * POW(2, t)` (R242). That it grows with t (R243) asks more of POW than R10 grants, and is left
free (log 22). -/
def bandProxy {Num : Type} (nx : Numerics Num) (t : Num) : Num := nx.mul (nx.ofNat 440) (nx.pow (nx.ofNat 2) t)

/-- The pseudo-band gain (R242). -/
def bandGain {Num : Type} (nx : Numerics Num) (p : Params) (q t : Num) : Num :=
  nx.trunc (nx.mul q (bandGainOf nx p (bandProxy nx t)))

/-- The noise source of the noise mix, codes 1..3 (R244, 30_encoding.md rule R98). Validation refuses the codes above 3
and the stage does not run at 0; the function is total and answers 0 there (log 16). -/
def noiseSource {Num : Type} (nx : Numerics Num) (nt : Word32) (i : Nat) (d : Dsp Num) : Num × Dsp Num :=
  if nt = 1#32 then noiseWhite nx d
  else if nt = 2#32 then noisePink nx i d
  else if nt = 3#32 then noiseBrown nx d
  else (nx.ofNat 0, d)

/-- One sample plus scaled noise, truncated and clamped to plus or minus 32767 (R244). -/
def mixNoise {Num : Type} (nx : Numerics Num) (q n amount nscale : Num) : Num :=
  clamp nx (nx.trunc (nx.add q (nx.mul (nx.mul n amount) nscale))) (nx.neg (nx.ofNat 32767)) (nx.ofNat 32767)

/-- The noise mix of one sample (R244). -/
def noiseMix {Num : Type} (nx : Numerics Num) (p : Params) (q : Num) (i : Nat) (d : Dsp Num) : Num × Dsp Num :=
  let (n, d) := noiseSource nx p.noiseType i d
  (mixNoise nx q n (nx.asF64 p.noiseAmount) (noiseScale nx p), d)

/-- The fade length k = FLOOR(MIN(fd * sr, N / 2)) (R246). -/
def fadeLength {Num : Type} (nx : Numerics Num) (p : Params) (n : Nat) : Nat :=
  countOf nx (nx.floor
    (nx.min (nx.mul (nx.asF64 p.fadeDuration) (rateNum nx p)) (nx.div (nx.ofNat n) (nx.ofNat 2))))

/-- `TRUNC(w * (a / k))`, one fade gain (R246). -/
def fadeGain {Num : Type} (nx : Numerics Num) (w : Num) (a k : Nat) : Num :=
  nx.trunc (nx.mul w (nx.div (nx.ofNat a) (nx.ofNat k)))

/-- What the fade does to sample j: the fade-in loop, then the fade-out loop (R246). -/
def fadeSample {Num : Type} (nx : Numerics Num) (n k j : Nat) (w : Num) : Num :=
  let w := if j < k then fadeGain nx w j k else w
  if n - k ≤ j ∧ j < n then fadeGain nx w (n - 1 - j) k else w

end Sys2Proof.Machine
end

