-- ==== Sys2Proof/Machine/Render.lean ====
section
/-!
DEFINITION. The render (41_render.md rules R140-R152): a function of the snapshot and of the configured NUMERICS and
PRNG alone. The stages run in the order OSC, SAT, BAND, NOISE, FADE; within each, samples in increasing index; within
OSC, oscillators in increasing k (R38, R148, R149).
-/

namespace Sys2Proof.Machine

/-- The oscillator loop of one sample: k in increasing order, `total` summed left to right
(44_mix_quantize.md rules R222-R225). -/
def oscStack {Num : Type} (nx : Numerics Num) (p : Params) (f e t : Num) (i : Nat) :
    List Num → Dsp Num → Num → Num × Dsp Num
  | [], d, total => (total, d)
  | level :: levels, d, total =>
    let (x, d) := osc nx p.waveform f t i d
    oscStack nx p f e t i levels d (nx.add total (stackTerm nx (nx.asF64 p.drive) x e level))

/-- `total` of sample i: one frequency and one envelope value for all oscillators (R148). -/
def oscSample {Num : Type} (nx : Numerics Num) (p : Params) (i : Nat) (d : Dsp Num) : Num × Dsp Num :=
  let t := sampleTime nx p i
  oscStack nx p (pitch nx p t) (env nx p t) t i (stackLevels nx p) d (nx.ofNat 0)

/-- Stage OSC for `n` samples from index i: `none` at the first sample whose quantizer input is not finite, and no
later sample is computed (44_mix_quantize.md rule R227). -/
def oscStage {Num : Type} (nx : Numerics Num) (p : Params) : Nat → Nat → Dsp Num → Option (List Num × Dsp Num)
  | 0, _, d => some ([], d)
  | n + 1, i, d =>
    let (total, d) := oscSample nx p i d
    match quantize nx total (quantScale nx p) with
    | none => none
    | some q =>
      match oscStage nx p n (i + 1) d with
      | none => none
      | some (qs, d) => some (q :: qs, d)

/-- A stage that treats each sample by itself, from index i. -/
def mapStage {Num : Type} (g : Nat → Num → Num) : Nat → List Num → List Num
  | _, [] => []
  | i, w :: ws => g i w :: mapStage g (i + 1) ws

/-- Stage NOISE, one draw per sample in increasing index (45_post_chain.md rule R244). -/
def noiseStage {Num : Type} (nx : Numerics Num) (p : Params) : Nat → List Num → Dsp Num → List Num
  | _, [], _ => []
  | i, w :: ws, d =>
    let (w', d) := noiseMix nx p w i d
    w' :: noiseStage nx p (i + 1) ws d

/-- Stages SAT, BAND, NOISE and FADE on the working buffer (R148). -/
def postChain {Num : Type} (nx : Numerics Num) (p : Params) (n : Nat) (w : List Num) (d : Dsp Num) : List Num :=
  let w := mapStage (fun _ q => saturate nx q (nx.asF64 p.saturatorAmount)) 0 w
  let w := mapStage (fun i q => bandGain nx p q (sampleTime nx p i)) 0 w
  let w := if p.noiseType = 0#32 then w else noiseStage nx p 0 w d
  if nx.lt (nx.ofNat 0) (nx.asF64 p.fadeDuration) then mapStage (fadeSample nx n (fadeLength nx p n)) 0 w else w

/-- The working buffer at the end of the FADE stage, or `none` for NONFINITE (R148). -/
def renderBuffer {Num : Type} (nx : Numerics Num) (p : Params) : Option (List Num) :=
  let n := sampleCount nx p
  (oscStage nx p n 0 (dspStart nx p)).map fun r => postChain nx p n r.1 r.2

/-- A sample as the two's complement word the memory keeps (R160, 10_state.md rule R44). -/
def sampleWord {Num : Type} (nx : Numerics Num) (w : Num) : BitVec 32 := BitVec.ofInt 32 (nx.toInt w)

/-- `render(P)`: the words written back, or `none` for NONFINITE (R148, R160). -/
def render {Num : Type} (nx : Numerics Num) (p : Params) : Option (List (BitVec 32)) :=
  (renderBuffer nx p).map fun w => w.map (sampleWord nx)

end Sys2Proof.Machine
end

