-- ==== Sys2Proof/Machine/Flags.lean ====
section
/-!
DEFINITION. The words the block shows the host: STATUS (10_state.md rule R26), ID, CAPS and CTRL (R22-R24), and the
interrupt output (R47, 60_exceptions.md rules R310, R311), and the error codes of STATUS (60_exceptions.md rule R300).
-/

namespace Sys2Proof.Machine

/-- The error codes of 60_exceptions.md rule R300. -/
inductive ErrCode where
  | invalidParams
  | domain
  | capacity
  | nonfinite
  | illegalCmd
  deriving DecidableEq, Repr

/-- The code as STATUS.ERR_CODE holds it (R300). -/
def errByte : ErrCode → Byte
  | .invalidParams => 1#8
  | .domain => 2#8
  | .capacity => 3#8
  | .nonfinite => 4#8
  | .illegalCmd => 5#8

/-- STATUS as a word: BUSY 0, DONE 1, ERR 2, OVERRUN 3, ERR_CODE [15:8], ERR_DETAIL [23:16], BPS [27:24], SAMPLES
[63:32], the rest 0 (R26). -/
def statusWord (t : Status) : Word :=
  t.samples ++ 0#4 ++ t.bps ++ t.errDetail ++ t.errCode ++ 0#4 ++
    BitVec.ofBool t.overrun ++ BitVec.ofBool t.err ++ BitVec.ofBool t.done ++ BitVec.ofBool t.busy

/-- ID: the bytes "KICK" in [31:0], revision 7 in [47:32] (R22). -/
def idWord : Word := 0x000000074B43494B#64

/-- CAPS: MAX_SAMPLES in [31:0], MAX_OSC in [47:32] (R23). -/
def capsWord (c : Caps) : Word := 0#16 ++ c.maxOsc ++ c.maxSamples

/-- CTRL: SMOOTH bit 0, IRQ_EN bit 1, the rest 0 (R24). -/
def ctrlWord (smooth irqEn : Bool) : Word := 0#62 ++ BitVec.ofBool irqEn ++ BitVec.ofBool smooth

/-- The level of the interrupt output: IRQ_EN AND (DONE OR ERR) (R47). -/
def irq (s : State) : Bool := s.irqEn && (s.status.done || s.status.err)

/-- The value a register reads as; CMD and reserved offsets read 0 (20_memory.md rule R63). -/
def readReg (r : Reg) (s : State) : Word :=
  match r with
  | .id => idWord
  | .caps => capsWord s.caps
  | .ctrl => ctrlWord s.params.smooth s.irqEn
  | .cmd => 0#64
  | .status => statusWord s.status
  | .seed => s.params.seed
  | .u32 r => 0#32 ++ getU32 r s.params
  | .f64 r => getF64 r s.params
  | .oscLevel k => getLevel k s.params
  | .reserved => 0#64

end Sys2Proof.Machine
end

