-- ==== Sys2Proof/Machine/Validate.lean ====
section
/-!
DEFINITION. Validation of a snapshot (41_render.md rules R144, R145; 60_exceptions.md rules R301-R303, R307).
-/

namespace Sys2Proof.Machine

/-- `isfinite(x)` and `x > 0`. -/
def finitePositive {Num : Type} (nx : Numerics Num) (x : Num) : Bool := nx.isFinite x && nx.lt (nx.ofNat 0) x

/-- `isfinite(x)` and `x >= 0`. -/
def finiteNonneg {Num : Type} (nx : Numerics Num) (x : Num) : Bool := nx.isFinite x && nx.le (nx.ofNat 0) x

/-- `0 <= x` and `x <= 1`. -/
def inUnit {Num : Type} (nx : Numerics Num) (x : Num) : Bool := nx.le (nx.ofNat 0) x && nx.le x (nx.ofNat 1)

/-- The INVALID_PARAMS checks 1..5, in order (R301). -/
def invalidChecks {Num : Type} (nx : Numerics Num) (p : Params) : List Bool :=
  [decide (1 ≤ asU32 p.sampleRate),
   nx.lt (nx.ofNat 0) (nx.asF64 p.duration),
   p.numOsc == p.levelCount,
   nx.lt (nx.asF64 p.band0) (nx.asF64 p.band1) && nx.lt (nx.asF64 p.band1) (nx.asF64 p.band2),
   p.bitDepth == 16#32 || p.bitDepth == 24#32]

/-- The levels check 17 reads: OSC_LEVEL[k] for k < min(NUM_OSC, MAX_OSC) (R302). -/
def checkedLevels {Num : Type} (nx : Numerics Num) (c : Caps) (p : Params) : List Num :=
  (List.range (min (asU32 p.numOsc) c.maxOsc.toNat)).map fun k => nx.asF64 (getLevel k p)

/-- The DOMAIN checks 1..19, in order (R302). -/
def domainChecks {Num : Type} (nx : Numerics Num) (c : Caps) (p : Params) : List Bool :=
  [finitePositive nx (nx.asF64 p.startFreq),
   finitePositive nx (nx.asF64 p.endFreq),
   nx.isFinite (nx.asF64 p.duration),
   finiteNonneg nx (nx.asF64 p.attack),
   finiteNonneg nx (nx.asF64 p.decay),
   inUnit nx (nx.asF64 p.sustain),
   finiteNonneg nx (nx.asF64 p.release),
   inUnit nx (nx.asF64 p.drive),
   finitePositive nx (nx.asF64 p.filterCutoff),
   inUnit nx (nx.asF64 p.filterResonance),
   finiteNonneg nx (nx.asF64 p.sweep),
   finitePositive nx (nx.asF64 p.pitchDecay),
   decide (asU32 p.waveform ≤ 6),
   decide (asU32 p.noiseType ≤ 3),
   inUnit nx (nx.asF64 p.noiseAmount),
   decide (1 ≤ asU32 p.numOsc),
   (checkedLevels nx c p).all nx.isFinite,
   finiteNonneg nx (nx.asF64 p.saturatorAmount),
   finiteNonneg nx (nx.asF64 p.fadeDuration)]

/-- The CAPACITY checks 1..2, in order (R303). -/
def capacityChecks {Num : Type} (nx : Numerics Num) (c : Caps) (p : Params) : List Bool :=
  [decide (asU32 p.numOsc ≤ c.maxOsc.toNat),
   nx.le (nx.floor (sampleSpan nx p)) (nx.ofNat c.maxSamples.toNat)]

/-- The number of the first check that fails, counting from `n`. -/
def firstFailing (n : Nat) : List Bool → Option Nat
  | [] => none
  | holds :: rest => if holds then firstFailing (n + 1) rest else some n

/-- `validate(P)` under a NUMERICS: the first failing check with its class, or `none` for Ok (R144, R145). -/
def validateIn {Num : Type} (nx : Numerics Num) (c : Caps) (p : Params) : Option (ErrCode × Byte) :=
  match firstFailing 1 (invalidChecks nx p) with
  | some n => some (.invalidParams, BitVec.ofNat 8 n)
  | none =>
    match firstFailing 1 (domainChecks nx c p) with
    | some n => some (.domain, BitVec.ofNat 8 n)
    | none =>
      match firstFailing 1 (capacityChecks nx c p) with
      | some n => some (.capacity, BitVec.ofNat 8 n)
      | none => none

end Sys2Proof.Machine
end

