-- ==== Sys2Proof/Machine/Configured.lean ====
section
/-!
DEFINITION. The NUMERICS a block is configured with (00_scope.md rules R3 and R9; logs 4, 5, 19 and 20): the ranges the
rules state of a render under any of them, the free constants that stand for the open operations of the default and for
another NUMERICS, and which one a block has.
-/

namespace Sys2Proof.Machine

/-! ### The ranges the rules state of the samples of every block -/

/-- The capacities are legal parameters (00_scope.md rule R3). -/
def LegalCaps (c : Caps) : Prop :=
  1 ≤ c.maxSamples.toNat ∧ c.maxSamples.toNat ≤ 2 ^ 20 ∧ 1 ≤ c.maxOsc.toNat ∧ c.maxOsc.toNat ≤ 480

/-- Of an integer and a legal amount, the saturator gives an integer in [-32768, 32768] (10_state.md rule R43,
45_post_chain.md rule R240). -/
abbrev SaturatorLaw {Num : Type} (nx : Numerics Num) : Prop :=
  ∀ (q s : Num) (z : Int), nx.standsFor q (.finite z) → finiteNonneg nx s = true →
    IntegerWithin nx 32768 (saturate nx q s)

/-- A render of a valid snapshot ends with integers in [-32767, 32767], without noise in [-29491, 29491] (10_state.md rule
R46, 45_post_chain.md rule R248). -/
abbrev RenderLaw {Num : Type} (nx : Numerics Num) : Prop :=
  ∀ (c : Caps) (p : Params) (w : List Num), LegalCaps c → validateIn nx c p = none → renderBuffer nx p = some w →
    ∀ x ∈ w, IntegerWithin nx (if p.noiseType = 0#32 then 29491 else 32767) x

/-- What the rules state of the samples of every block, whatever its NUMERICS. 00_scope.md rule R8 leaves `+ - * /` to the
configuration and gives none of it, so it is asked of the whole render and of no operation (log 20). Nothing else is asked
of `+ - * /`: the other facts the rules infer, such as an envelope in [0, 1] or the way of a NaN to the quantizer, are left
free (log 21). -/
abbrev RangeLaws {Num : Type} (nx : Numerics Num) : Prop := SaturatorLaw nx ∧ RenderLaw nx

/-- Open operations over binary64 with the properties of R10 and R11. -/
structure LawfulOps where
  ops : OpenOps Num64
  transcendental : TranscendentalLaws (binary64 ops)
  draws : DrawLaws (binary64 ops)

/-- A NUMERICS that is what the rules require: exact where R7, R8, R12 and R96 say so, with the properties of R10 and
R11, and with samples in the ranges of R43, R46 and R248 (log 20). Its `+ - * /` are otherwise free: whether they round,
propagate a NaN or an infinity, or keep the envelope in [0, 1] is left open (log 21). -/
structure LawfulNumerics where
  Num : Type
  ops : Numerics Num
  exact : ExactLaws ops
  transcendental : TranscendentalLaws ops
  draws : DrawLaws ops
  ranges : RangeLaws ops

end Sys2Proof.Machine

namespace Sys2Proof

open Machine

/-- The open operations of the default NUMERICS, whichever they are (00_scope.md rules R10, R11; logs 4 and 5). -/
opaque Config.openOps : Option LawfulOps

/-- The NUMERICS of a block configured otherwise than with the default, whichever it is (00_scope.md rules R3, R9; log
19). -/
opaque Config.otherNumerics : Option LawfulNumerics

end Sys2Proof

namespace Sys2Proof.Machine

/-! ### The NUMERICS of a block -/

/-- The open operations of the default. `Config.openOps` is any with the properties of R10 and R11, and nothing else can
be proved of them. -/
def defaultOps : OpenOps Num64 :=
  match Config.openOps with
  | some o => o.ops
  | none => plainOps

/-- The default NUMERICS (R9). -/
def numerics : Numerics Num64 := binary64 defaultOps

/-- A number domain and its NUMERICS. -/
structure NumericsParam where
  Num : Type
  ops : Numerics Num

/-- The NUMERICS of a block with the given parameters: the default, or the one it is configured with (log 19). -/
def numericsOf (c : Caps) : NumericsParam :=
  match c.numerics with
  | .binary64 => ⟨Num64, numerics⟩
  | .other =>
    match Config.otherNumerics with
    | some n => ⟨n.Num, n.ops⟩
    | none => ⟨Num64, numerics⟩

/-- `validate(P)` under the NUMERICS of the block (41_render.md rule R144; 10_state.md rule R34). -/
def validate (c : Caps) (p : Params) : Option (ErrCode × Byte) := validateIn (numericsOf c).ops c p

end Sys2Proof.Machine
end

