-- ==== Sys2Proof/Machine/Ops.lean ====
section
/-!
DEFINITION. The named operations over the state: the sample memory (10_state.md rule R44), free values, the snapshot
(R40), recording an error and returning from it (60_exceptions.md rules R305, R306, R314), acceptance and completion
(40_commands.md rule R123, 41_render.md rule R160), and reset (70_reset_and_hazards.md rule R341).
-/

namespace Sys2Proof.Machine

/-! ### The sample memory -/

/-- What an offset no cell lists reads as: nothing, the byte is unspecified (R44; log 13). -/
def unlistedByte : Option Byte := none

/-- The byte at an offset of the sample memory, `none` where it is unspecified. -/
def readByte (mem : List Host.Cell) (addr : Nat) : Option Byte :=
  match mem with
  | [] => unlistedByte
  | (a, b) :: rest => if a = addr then some b else readByte rest addr

/-- The canonical form: offsets strictly rising. Every listed byte differs from what an unlisted offset reads as,
since that is no byte at all. -/
def memWf (mem : List Host.Cell) : Bool :=
  match mem with
  | [] => true
  | [_] => true
  | (a, _) :: (b, y) :: rest => decide (a < b) && memWf ((b, y) :: rest)

/-- The offset of sample entry i in the SAMPLE window (20_memory.md rule R67). -/
def sampleOffset (i : Nat) : Nat := 0x400000 + 4 * i

/-- Byte b of a word, counted from the least significant (20_memory.md rule R69). -/
def byteOf (w : BitVec 32) (b : Nat) : Byte := w.extractLsb' (8 * b) 8

/-- The four bytes of one sample entry, little-endian (R69). -/
def cellsOfSample (i : Nat) (w : BitVec 32) : List Host.Cell :=
  [(sampleOffset i, byteOf w 0), (sampleOffset i + 1, byteOf w 1), (sampleOffset i + 2, byteOf w 2),
   (sampleOffset i + 3, byteOf w 3)]

/-- The sample memory that holds the given words from entry i on, and nothing else. -/
def memOfSamples (i : Nat) : List (BitVec 32) → List Host.Cell
  | [] => []
  | w :: ws => cellsOfSample i w ++ memOfSamples (i + 1) ws

/-- S[i], `none` where it is unspecified (R44). -/
def readSample (mem : List Host.Cell) (i : Nat) : Option (BitVec 32) :=
  match readByte mem (sampleOffset i), readByte mem (sampleOffset i + 1), readByte mem (sampleOffset i + 2),
    readByte mem (sampleOffset i + 3) with
  | some b0, some b1, some b2, some b3 => some (b3 ++ b2 ++ b1 ++ b0)
  | _, _, _, _ => none

/-! ### Free values -/

/-- `draw()`: take one free word (20_memory.md rule R71). -/
def takeDraw (s : State) : Word × State :=
  (Config.draw s.freeCount, { s with freeCount := s.freeCount + 1 })

/-! ### Errors: entry and return -/

/-- `raise Err(code, detail)` in a command (R305): ERR, ERR_CODE and ERR_DETAIL are written and nothing else changes. -/
def raiseErr (code : ErrCode) (detail : Byte) (s : State) : State :=
  { s with status := { s.status with err := true, errCode := errByte code, errDetail := detail } }

/-- The return from an error, CLEAR_STATUS while idle (R314, 40_commands.md rule R124). -/
def clearStatus (s : State) : State :=
  { s with status := { s.status with
      done := false, err := false, overrun := false, errCode := 0#8, errDetail := 0#8 } }

/-- A command dropped because a render runs (40_commands.md rule R127). -/
def setOverrun (s : State) : State := { s with status := { s.status with overrun := true } }

/-- The NONFINITE abort (R306). OVERRUN is kept. -/
def abortNonfinite (s : State) : State :=
  { s with
    status := { s.status with
      busy := false, done := false, err := true, errCode := errByte .nonfinite, errDetail := 0#8, bps := 0#4,
      samples := 0#32 }
    mem := []
    engine := .idle }

/-! ### The life of a render -/

/-- The snapshot P: every register marked so in R21, all at once (R40). -/
def snapshot (s : State) : Params := s.params

/-- Acceptance (40_commands.md rule R123). The render latency is a free value (70_reset_and_hazards.md rule R352). -/
def accept (p : Params) (s : State) : State :=
  { s with
    status := { s.status with
      busy := true, done := false, err := false, errCode := 0#8, errDetail := 0#8
      bps := BitVec.ofNat 4 (asU32 p.bitDepth / 8)
      samples := BitVec.ofNat 32 (sampleCount (numericsOf s.caps).ops p) }
    mem := []
    engine := .running p (Config.renderLatency s.freeCount)
    freeCount := s.freeCount + 1 }

/-- Completion (41_render.md rule R160): the samples become the memory, BUSY falls and DONE rises. SAMPLES and BPS
keep the values acceptance gave them. -/
def complete (samples : List (BitVec 32)) (s : State) : State :=
  { s with
    status := { s.status with busy := false, done := true }
    mem := memOfSamples 0 samples
    engine := .idle }

/-- `reset()` (70_reset_and_hazards.md rule R341): registers, STATUS, engine and sample memory. The wired parameters
and the model's own fields are no part of it. -/
def resetBlock (s : State) : State :=
  { s with
    params := Params.reset s.caps.maxOsc.toNat
    irqEn := false
    status := Status.reset
    engine := .idle
    mem := [] }

/-! ### Bus addresses -/

/-- The offset a bus address selects, if it falls in this block (20_memory.md rules R60, R79). -/
def busOffset (addr : Nat) : Option Offset :=
  if Config.base ≤ addr ∧ addr < Config.base + 2 ^ 24 then some (BitVec.ofNat 24 (addr - Config.base)) else none

end Sys2Proof.Machine
end

