-- ==== Sys2Proof/Machine/Engine.lean ====
section
/-!
DEFINITION. The render engine's only step: the completion or the abort of the running render
(10_state.md rules R20, R45; 41_render.md rules R160, R161; 60_exceptions.md rule R306; 70_reset_and_hazards.md rule R352).
-/

namespace Sys2Proof.Machine

/-- The engine's update of a render of snapshot `p`, computed under the NUMERICS of the block. -/
def engineUpdate (p : Params) (s : State) : State :=
  match render (numericsOf s.caps).ops p with
  | some samples => complete samples s
  | none => abortNonfinite s

/-- One host-visible step passes while a render runs (70_reset_and_hazards.md rule R352). -/
def tickEngine (s : State) : State :=
  match s.engine with
  | .running p (left + 1) => { s with engine := .running p left }
  | .running p 0 => { s with engine := .running p 0 }
  | .idle => s

/-- The snapshot whose update comes at this point of the total order, if one does (20_memory.md rule R73,
60_exceptions.md rule R312). -/
def engineDue (s : State) : Option Params :=
  match s.engine with
  | .running p 0 => some p
  | .running _ (_ + 1) => none
  | .idle => none

/-- An engine whose update is not due at the next step, so that a host access comes before it. -/
def deferEngine : Engine → Engine
  | .running p 0 => .running p 1
  | .running p (left + 1) => .running p (left + 1)
  | .idle => .idle

end Sys2Proof.Machine
end

