-- ==== Sys2Proof/WellFormed.lean ====
section
/-!
DEFINITION. Well-formedness of the words the block decodes (30_encoding.md rules R94, R97-R101) and of an instruction.
The command word is the only word the spec itself calls well-formed or not; the selector words have a legal code space.
-/

namespace Sys2Proof

/-- A command word is well-formed iff RSVD = v[63:8] is 0 and OPCODE = v[7:0] is one of the codes 0x00..0x03
(30_encoding.md rules R94, R95). -/
def cmdWellFormed (v : Word) : Bool :=
  v.extractLsb' 8 56 == 0#56 && v.extractLsb' 0 8 ≤ 0x03#8

/-- The legal WAVEFORM codes 0..6 (30_encoding.md rule R97). -/
def waveformLegal (code : Word32) : Bool := code ≤ 6#32

/-- The legal NOISE_TYPE codes 0..3 (30_encoding.md rule R98). -/
def noiseTypeLegal (code : Word32) : Bool := code ≤ 3#32

/-- The legal BIT_DEPTH values 16 and 24 (30_encoding.md rule R99). -/
def bitDepthLegal (value : Word32) : Bool := value == 16#32 || value == 24#32

/-- An instruction is well-formed iff the word its row names is well-formed or legal. The bits a register ignores,
and both pitch codes, are unconstrained (30_encoding.md rules R92, R93, R100). -/
def Instr.wellFormed : Instr → Bool
  | .nop => cmdWellFormed 0x0#64
  | .render => cmdWellFormed 0x1#64
  | .clearStatus => cmdWellFormed 0x2#64
  | .softReset => cmdWellFormed 0x3#64
  | .waveformSine _ => waveformLegal 0#32
  | .waveformTriangle _ => waveformLegal 1#32
  | .waveformSawtooth _ => waveformLegal 2#32
  | .waveformSquare _ => waveformLegal 3#32
  | .waveformNoiseWhite _ => waveformLegal 4#32
  | .waveformNoisePink _ => waveformLegal 5#32
  | .waveformNoiseBrown _ => waveformLegal 6#32
  | .noiseTypeNone _ => noiseTypeLegal 0#32
  | .noiseTypeWhite _ => noiseTypeLegal 1#32
  | .noiseTypePink _ => noiseTypeLegal 2#32
  | .noiseTypeBrown _ => noiseTypeLegal 3#32
  | .bitDepth16 _ => bitDepthLegal 16#32
  | .bitDepth24 _ => bitDepthLegal 24#32
  | .pitchStep _ _ => true
  | .pitchSmooth _ _ => true

end Sys2Proof
end

