-- ==== Sys2Proof/Decode.lean ====
section
/-!
DEFINITION. Decoding a host write: total, an instruction or a rejection by name (30_encoding.md rules R90-R102,
20_memory.md rules R62, R64). A rejected write is no refusal of the machine: `step` gives each its effect. The encoder
follows.
-/

namespace Sys2Proof

/-- Why a write is no row of the opcode table. -/
inductive Reject where
  /-- The access is not admitted: outside REG, not 8 bytes wide, or misaligned (20_memory.md rules R61, R64, R67, R68). -/
  | notAdmitted
  /-- A command word that is not well-formed (30_encoding.md rule R101 (a)). -/
  | illegalCommand
  /-- A WAVEFORM code of 7 or more (30_encoding.md rule R101 (b)). -/
  | reservedWaveform
  /-- A NOISE_TYPE code of 4 or more (30_encoding.md rule R101 (b)). -/
  | reservedNoiseType
  /-- A BIT_DEPTH value other than 16 and 24 (30_encoding.md rule R101 (c)). -/
  | reservedBitDepth
  /-- A register that holds no command and no selector: a plain parameter write, a read-only register or a reserved
  offset (20_memory.md rules R62, R65). -/
  | plainRegister
  deriving DecidableEq, Repr

/-- What a write decodes to. -/
inductive Decoded where
  | instr (i : Instr)
  | reject (r : Reject)
  deriving DecidableEq, Repr

/-- Offset of CTRL (10_state.md rule R24). -/
def offCtrl : Offset := 0x010#24
/-- Offset of CMD (10_state.md rule R25). -/
def offCmd : Offset := 0x018#24
/-- Offset of BIT_DEPTH (10_state.md rule R28). -/
def offBitDepth : Offset := 0x038#24
/-- Offset of WAVEFORM (10_state.md rule R28). -/
def offWaveform : Offset := 0x040#24
/-- Offset of NOISE_TYPE (10_state.md rule R28). -/
def offNoiseType : Offset := 0x048#24

/-- The command word, fully decoded over its 64 bits (30_encoding.md rule R95). -/
def decodeCmd (v : Word) : Decoded :=
  if v = 0x0#64 then .instr .nop
  else if v = 0x1#64 then .instr .render
  else if v = 0x2#64 then .instr .clearStatus
  else if v = 0x3#64 then .instr .softReset
  else .reject .illegalCommand

/-- The WAVEFORM code is v[31:0]; bits [63:32] are ignored (30_encoding.md rules R92, R97). -/
def decodeWaveform (v : Word) : Decoded :=
  let hi := v.extractLsb' 32 32
  let code := v.extractLsb' 0 32
  if code = 0#32 then .instr (.waveformSine hi)
  else if code = 1#32 then .instr (.waveformTriangle hi)
  else if code = 2#32 then .instr (.waveformSawtooth hi)
  else if code = 3#32 then .instr (.waveformSquare hi)
  else if code = 4#32 then .instr (.waveformNoiseWhite hi)
  else if code = 5#32 then .instr (.waveformNoisePink hi)
  else if code = 6#32 then .instr (.waveformNoiseBrown hi)
  else .reject .reservedWaveform

/-- The NOISE_TYPE code is v[31:0] (30_encoding.md rules R92, R98). -/
def decodeNoiseType (v : Word) : Decoded :=
  let hi := v.extractLsb' 32 32
  let code := v.extractLsb' 0 32
  if code = 0#32 then .instr (.noiseTypeNone hi)
  else if code = 1#32 then .instr (.noiseTypeWhite hi)
  else if code = 2#32 then .instr (.noiseTypePink hi)
  else if code = 3#32 then .instr (.noiseTypeBrown hi)
  else .reject .reservedNoiseType

/-- The BIT_DEPTH value is v[31:0] (30_encoding.md rules R92, R99). -/
def decodeBitDepth (v : Word) : Decoded :=
  let hi := v.extractLsb' 32 32
  let value := v.extractLsb' 0 32
  if value = 16#32 then .instr (.bitDepth16 hi)
  else if value = 24#32 then .instr (.bitDepth24 hi)
  else .reject .reservedBitDepth

/-- CTRL: SMOOTH = v[0], IRQ_EN = v[1], bits [63:2] ignored (30_encoding.md rules R93, R100). -/
def decodeCtrl (v : Word) : Decoded :=
  let irqEn := v.getLsbD 1
  let hi := v.extractLsb' 2 62
  if v.getLsbD 0 then .instr (.pitchSmooth irqEn hi) else .instr (.pitchStep irqEn hi)

/-- An access to the register window is admitted iff it is 8 bytes wide at a multiple of 8 below 0x1000
(20_memory.md rules R60, R64). -/
def regAdmitted (off : Offset) (width : Width) : Bool :=
  off < 0x001000#24 && width == .eight && off.extractLsb' 0 3 == 0#3

/-- Decode one host write. -/
def decode (a : BusWrite) : Decoded :=
  if regAdmitted a.off a.width then
    if a.off = offCmd then decodeCmd a.data
    else if a.off = offCtrl then decodeCtrl a.data
    else if a.off = offBitDepth then decodeBitDepth a.data
    else if a.off = offWaveform then decodeWaveform a.data
    else if a.off = offNoiseType then decodeNoiseType a.data
    else .reject .plainRegister
  else .reject .notAdmitted

/-- An 8-byte write of a selector register: the ignored bits above the 32-bit code (30_encoding.md rule R92). -/
def encodeU32 (off : Offset) (ignored code : BitVec 32) : BusWrite :=
  { off := off, width := .eight, data := ignored ++ code }

/-- An 8-byte write of CTRL (30_encoding.md rule R93). -/
def encodeCtrl (smooth irqEn : Bool) (ignored : BitVec 62) : BusWrite :=
  { off := offCtrl, width := .eight, data := ignored ++ BitVec.ofBool irqEn ++ BitVec.ofBool smooth }

/-- An 8-byte write of CMD (30_encoding.md rules R94, R95). -/
def encodeCmd (opcode : Byte) : BusWrite :=
  { off := offCmd, width := .eight, data := 0#56 ++ opcode }

/-- The host write that carries an instruction. -/
def encode : Instr → BusWrite
  | .nop => encodeCmd 0x00#8
  | .render => encodeCmd 0x01#8
  | .clearStatus => encodeCmd 0x02#8
  | .softReset => encodeCmd 0x03#8
  | .waveformSine hi => encodeU32 offWaveform hi 0#32
  | .waveformTriangle hi => encodeU32 offWaveform hi 1#32
  | .waveformSawtooth hi => encodeU32 offWaveform hi 2#32
  | .waveformSquare hi => encodeU32 offWaveform hi 3#32
  | .waveformNoiseWhite hi => encodeU32 offWaveform hi 4#32
  | .waveformNoisePink hi => encodeU32 offWaveform hi 5#32
  | .waveformNoiseBrown hi => encodeU32 offWaveform hi 6#32
  | .noiseTypeNone hi => encodeU32 offNoiseType hi 0#32
  | .noiseTypeWhite hi => encodeU32 offNoiseType hi 1#32
  | .noiseTypePink hi => encodeU32 offNoiseType hi 2#32
  | .noiseTypeBrown hi => encodeU32 offNoiseType hi 3#32
  | .bitDepth16 hi => encodeU32 offBitDepth hi 16#32
  | .bitDepth24 hi => encodeU32 offBitDepth hi 24#32
  | .pitchStep irqEn hi => encodeCtrl false irqEn hi
  | .pitchSmooth irqEn hi => encodeCtrl true irqEn hi

/-- The write that an opcode-table word stands for. The table gives the word and not the register it is written to, so
the register is read from the row's size: 64 bits is a command word, 32 bits a selector word (16 and 24 are BIT_DEPTH
values, every other a WAVEFORM code), and at most 8 bits, with the value 0 or 1, the pitch selector of CTRL.
DESIGN CHOICE (log 10): the NOISE_TYPE rows have the same words as WAVEFORM rows, and only the offset of a real access
tells them apart. -/
def tableWrite (nbits w : Nat) : BusWrite :=
  let v := BitVec.ofNat 64 w
  if nbits ≤ 8 then
    if w ≤ 1 then { off := offCtrl, width := .eight, data := v } else { off := offCmd, width := .eight, data := v }
  else if nbits ≤ 32 then
    if w = 16 ∨ w = 24 then { off := offBitDepth, width := .eight, data := v }
    else { off := offWaveform, width := .eight, data := v }
  else { off := offCmd, width := .eight, data := v }

/-- The instruction the decoder reads from an opcode-table word of `nbits` bits. -/
def decodeTableWord (nbits w : Nat) : Option Instr :=
  match decode (tableWrite nbits w) with
  | .instr i => some i
  | .reject _ => none

end Sys2Proof
end

