-- ==== Sys2Proof/Machine/Commands.lean ====
section
/-!
DEFINITION. The commands written to CMD (40_commands.md rules R120-R127).
-/

namespace Sys2Proof.Machine

/-- NOP: nothing, busy or not (R120). -/
def execNop (s : State) : Host.Outcome State Fault Refusal := .next s

/-- RENDER: dropped with OVERRUN while busy; else snapshot and validate, then record the error or accept (R121-R123,
R127). -/
def execRender (s : State) : Host.Outcome State Fault Refusal :=
  if s.status.busy then .next (setOverrun s)
  else
    match validate s.caps (snapshot s) with
    | some (code, detail) => .next (raiseErr code detail s)
    | none => .next (accept (snapshot s) s)

/-- CLEAR_STATUS: dropped with OVERRUN while busy (R124, R127). -/
def execClearStatus (s : State) : Host.Outcome State Fault Refusal :=
  if s.status.busy then .next (setOverrun s) else .next (clearStatus s)

/-- SOFT_RESET: `reset()`, busy or not (R125). -/
def execSoftReset (s : State) : Host.Outcome State Fault Refusal := .next (resetBlock s)

/-- A CMD word that is not well-formed: dropped with OVERRUN while busy (R127), else ILLEGAL_CMD with the written
OPCODE byte as its detail (R126). -/
def illegalCommand (v : Word) (s : State) : State :=
  if s.status.busy then setOverrun s else raiseErr .illegalCmd (v.extractLsb' 0 8) s

end Sys2Proof.Machine
end

