-- ==== Sys2Proof/Machine/Bus.lean ====
section
/-!
DEFINITION. Host accesses that are no row of the opcode table: reads of the three windows (20_memory.md rules R63, R64,
R67, R68; 46_pcm_output.md rules R260-R265), the writes the decoder rejects (R62, R64-R66), and the reset input
(70_reset_and_hazards.md rule R340).
-/

namespace Sys2Proof.Machine

/-- The state after a read that returned `v` to the host. -/
def answerRead (v : Word) (s : State) : State := { s with lastRead := some v }

/-- A sample read (46_pcm_output.md rule R260): the word, or 32 drawn bits while busy or where S[i] is unspecified. -/
def readSampleWindow (i : Nat) (s : State) : State :=
  match (if s.status.busy then none else readSample s.mem i) with
  | some w => answerRead (w.setWidth 64) s
  | none =>
    let (v, s) := takeDraw s
    answerRead ((v.setWidth 32).setWidth 64) s

/-- `pcm_byte(j)`, or `none` where the byte is a draw (46_pcm_output.md rules R262-R264). -/
def pcmByte (j : Nat) (s : State) : Option Byte :=
  if s.status.busy || s.status.bps == 0#4 then none
  else
    let bps := s.status.bps.toNat
    if s.status.samples.toNat * bps ≤ j then none
    else
      match readSample s.mem (j / bps) with
      | some w => some (byteOf w (j % bps))
      | none => none

/-- The byte a PCM read returns for position j, taking a draw where the byte is unspecified (R263, R264). -/
def takePcmByte (j : Nat) (s : State) : Byte × State :=
  match pcmByte j s with
  | some b => (b, s)
  | none =>
    let (v, s) := takeDraw s
    (v.setWidth 8, s)

/-- The n bytes from PCM position j, the lowest position in bits [7:0] (R263, 20_memory.md rule R69). -/
def takePcmBytes : Nat → Nat → State → Word × State
  | 0, _, s => (0#64, s)
  | n + 1, j, s =>
    let (b, s) := takePcmByte j s
    let (hi, s) := takePcmBytes n (j + 1) s
    ((hi <<< 8) ||| b.setWidth 64, s)

/-- A PCM read of n bytes at position j (46_pcm_output.md rule R263). -/
def readPcmWindow (j n : Nat) (s : State) : State :=
  let (v, s) := takePcmBytes n j s
  answerRead v s

/-- Base of the SAMPLE window (20_memory.md rule R60). -/
def sampleBase : Nat := 0x400000

/-- Base of the PCM window (20_memory.md rule R60). -/
def pcmBase : Nat := 0x800000

/-- `MemRead(BASE + off, width)` (20_memory.md rules R60, R61, R63-R68): the window that admits the access answers, any
other access is a bus fault. -/
def busRead (off : Offset) (width : Width) (s : State) : Host.Outcome State Fault Refusal :=
  let o := off.toNat
  let maxSamples := s.caps.maxSamples.toNat
  if regAdmitted off width then
    .next (answerRead (readReg (regAt s.caps.maxOsc.toNat o) s) s)
  else if sampleBase ≤ o ∧ o < sampleBase + 4 * maxSamples ∧ o % 4 = 0 ∧ width = .four then
    .next (readSampleWindow ((o - sampleBase) / 4) s)
  else if pcmBase ≤ o ∧ (o - pcmBase) + width.bytes ≤ 3 * maxSamples ∧ (o - pcmBase) % width.bytes = 0 then
    .next (readPcmWindow (o - pcmBase) width.bytes s)
  else .fault (.busFault off width .read)

/-- The effect of a write the decoder rejects by name. An illegal command word is recorded or dropped (R126, R127); a
reserved selector code is stored, for RENDER to report (30_encoding.md rule R101 (b), (c)); a plain register stores or
ignores the write (20_memory.md rules R62, R65); an access that is not admitted is a bus fault (R66). -/
def writeRejected (r : Reject) (a : BusWrite) (s : State) : Host.Outcome State Fault Refusal :=
  match r with
  | .notAdmitted => .fault (.busFault a.off a.width .write)
  | .illegalCommand => .next (illegalCommand a.data s)
  | .reservedWaveform => .next (storeU32 .waveform a.data s)
  | .reservedNoiseType => .next (storeU32 .noiseType a.data s)
  | .reservedBitDepth => .next (storeU32 .bitDepth a.data s)
  | .plainRegister => .next (storeReg (regAt s.caps.maxOsc.toNat a.off.toNat) a.data s)

/-- The reset input (70_reset_and_hazards.md rule R340). -/
def resetInput (s : State) : State := resetBlock s

end Sys2Proof.Machine
end

