-- ==== Sys2Proof/Machine/Selectors.lean ====
section
/-!
DEFINITION. The selector words (30_encoding.md rules R92, R93, R97-R100): the write of a code to WAVEFORM, NOISE_TYPE,
BIT_DEPTH or CTRL. The register stores the code; the render that snapshots it performs the operation the code selects
(`osc`, `noiseSource`, `quantScale` and `noiseScale`, `pitch`; log 12).
-/

namespace Sys2Proof.Machine

/-- The write of a U32 selector register: the word is the ignored bits above the code, and the code is stored, whether
or not a render runs (20_memory.md rule R62, 10_state.md rule R28). -/
def storeSelector (r : U32Reg) (ignored code : BitVec 32) (s : State) : State := storeU32 r (ignored ++ code) s

/-- The write of CTRL with a pitch selector: SMOOTH and IRQ_EN are stored together, since CTRL is written as a whole
(30_encoding.md rule R93, 70_reset_and_hazards.md rule R344). -/
def storePitch (smooth irqEn : Bool) (ignored : BitVec 62) (s : State) : State :=
  storeCtrl (ignored ++ BitVec.ofBool irqEn ++ BitVec.ofBool smooth) s

/-- WAVEFORM code 0: a render that snapshots it runs `oscSine` for every oscillator (42_oscillators.md rule R180). -/
def execWaveformSine (ignored : BitVec 32) (s : State) : Host.Outcome State Fault Refusal :=
  .next (storeSelector .waveform ignored 0#32 s)

/-- WAVEFORM code 1: a render that snapshots it runs `oscTriangle` for every oscillator (42_oscillators.md rule R181). -/
def execWaveformTriangle (ignored : BitVec 32) (s : State) : Host.Outcome State Fault Refusal :=
  .next (storeSelector .waveform ignored 1#32 s)

/-- WAVEFORM code 2: a render that snapshots it runs `oscSawtooth` for every oscillator (42_oscillators.md rule R182). -/
def execWaveformSawtooth (ignored : BitVec 32) (s : State) : Host.Outcome State Fault Refusal :=
  .next (storeSelector .waveform ignored 2#32 s)

/-- WAVEFORM code 3: a render that snapshots it runs `oscSquare` for every oscillator (42_oscillators.md rule R183). -/
def execWaveformSquare (ignored : BitVec 32) (s : State) : Host.Outcome State Fault Refusal :=
  .next (storeSelector .waveform ignored 3#32 s)

/-- WAVEFORM code 4: a render that snapshots it runs `oscNoiseWhite` for every oscillator (42_oscillators.md rule R184). -/
def execWaveformNoiseWhite (ignored : BitVec 32) (s : State) : Host.Outcome State Fault Refusal :=
  .next (storeSelector .waveform ignored 4#32 s)

/-- WAVEFORM code 5: a render that snapshots it runs `oscNoisePink` for every oscillator (42_oscillators.md rule R185). -/
def execWaveformNoisePink (ignored : BitVec 32) (s : State) : Host.Outcome State Fault Refusal :=
  .next (storeSelector .waveform ignored 5#32 s)

/-- WAVEFORM code 6: a render that snapshots it runs `oscNoiseBrown` for every oscillator (42_oscillators.md rule R186). -/
def execWaveformNoiseBrown (ignored : BitVec 32) (s : State) : Host.Outcome State Fault Refusal :=
  .next (storeSelector .waveform ignored 6#32 s)

/-- NOISE_TYPE code 0: a render that snapshots it runs no noise mix (41_render.md rule R148). -/
def execNoiseTypeNone (ignored : BitVec 32) (s : State) : Host.Outcome State Fault Refusal :=
  .next (storeSelector .noiseType ignored 0#32 s)

/-- NOISE_TYPE code 1: a render that snapshots it mixes `noiseWhite` (42_oscillators.md rule R171, 45_post_chain.md rule R244). -/
def execNoiseTypeWhite (ignored : BitVec 32) (s : State) : Host.Outcome State Fault Refusal :=
  .next (storeSelector .noiseType ignored 1#32 s)

/-- NOISE_TYPE code 2: a render that snapshots it mixes `noisePink` (42_oscillators.md rule R172, 45_post_chain.md rule R244). -/
def execNoiseTypePink (ignored : BitVec 32) (s : State) : Host.Outcome State Fault Refusal :=
  .next (storeSelector .noiseType ignored 2#32 s)

/-- NOISE_TYPE code 3: a render that snapshots it mixes `noiseBrown` (42_oscillators.md rule R173, 45_post_chain.md rule R244). -/
def execNoiseTypeBrown (ignored : BitVec 32) (s : State) : Host.Outcome State Fault Refusal :=
  .next (storeSelector .noiseType ignored 3#32 s)

/-- BIT_DEPTH value 16: a render that snapshots it quantizes with 65535, scales noise with 32768 and packs 2 bytes per
sample (30_encoding.md rule R99, 44_mix_quantize.md rule R227). -/
def execBitDepth16 (ignored : BitVec 32) (s : State) : Host.Outcome State Fault Refusal :=
  .next (storeSelector .bitDepth ignored 16#32 s)

/-- BIT_DEPTH value 24: a render that snapshots it quantizes with 16777215, scales noise with 8388608 and packs 3 bytes per
sample (30_encoding.md rule R99, 44_mix_quantize.md rule R227). -/
def execBitDepth24 (ignored : BitVec 32) (s : State) : Host.Outcome State Fault Refusal :=
  .next (storeSelector .bitDepth ignored 24#32 s)

/-- CTRL with SMOOTH = 0: a render that snapshots it follows `pitchStep` (43_pitch_envelope.md rule R201). -/
def execPitchStep (irqEn : Bool) (ignored : BitVec 62) (s : State) : Host.Outcome State Fault Refusal :=
  .next (storePitch false irqEn ignored s)

/-- CTRL with SMOOTH = 1: a render that snapshots it follows `pitchSmooth` (43_pitch_envelope.md rule R200). -/
def execPitchSmooth (irqEn : Bool) (ignored : BitVec 62) (s : State) : Host.Outcome State Fault Refusal :=
  .next (storePitch true irqEn ignored s)

end Sys2Proof.Machine
end

