-- ==== Sys2Proof/Machine/Dispatch.lean ====
section
/-! DEFINITION. One arm per row of spec/opcode_table.json. -/

namespace Sys2Proof.Machine

def exec (i : Instr) (s : State) : Host.Outcome State Fault Refusal :=
  match i with
  | .nop => Sys2Proof.Machine.execNop s
  | .render => Sys2Proof.Machine.execRender s
  | .clearStatus => Sys2Proof.Machine.execClearStatus s
  | .softReset => Sys2Proof.Machine.execSoftReset s
  | .waveformSine ignored => Sys2Proof.Machine.execWaveformSine ignored s
  | .waveformTriangle ignored => Sys2Proof.Machine.execWaveformTriangle ignored s
  | .waveformSawtooth ignored => Sys2Proof.Machine.execWaveformSawtooth ignored s
  | .waveformSquare ignored => Sys2Proof.Machine.execWaveformSquare ignored s
  | .waveformNoiseWhite ignored => Sys2Proof.Machine.execWaveformNoiseWhite ignored s
  | .waveformNoisePink ignored => Sys2Proof.Machine.execWaveformNoisePink ignored s
  | .waveformNoiseBrown ignored => Sys2Proof.Machine.execWaveformNoiseBrown ignored s
  | .noiseTypeNone ignored => Sys2Proof.Machine.execNoiseTypeNone ignored s
  | .noiseTypeWhite ignored => Sys2Proof.Machine.execNoiseTypeWhite ignored s
  | .noiseTypePink ignored => Sys2Proof.Machine.execNoiseTypePink ignored s
  | .noiseTypeBrown ignored => Sys2Proof.Machine.execNoiseTypeBrown ignored s
  | .bitDepth16 ignored => Sys2Proof.Machine.execBitDepth16 ignored s
  | .bitDepth24 ignored => Sys2Proof.Machine.execBitDepth24 ignored s
  | .pitchStep irqEn ignored => Sys2Proof.Machine.execPitchStep irqEn ignored s
  | .pitchSmooth irqEn ignored => Sys2Proof.Machine.execPitchSmooth irqEn ignored s

end Sys2Proof.Machine
end

