-- ==== Sys2Proof/Machine/Events.lean ====
section
/-!
DEFINITION. Performing one host interaction (70_reset_and_hazards.md rule R354): a write that decodes to an instruction
is that instruction's meaning.
-/

namespace Sys2Proof.Machine

/-- Perform one host access (70_reset_and_hazards.md rule R354). -/
def performEvent (e : BusEvent) (s : State) : Host.Outcome State Fault Refusal :=
  match e with
  | .write a =>
    match decode a with
    | .instr i => exec i s
    | .reject r => writeRejected r a s
  | .read off width => busRead off width s
  | .reset => .next (resetInput s)

end Sys2Proof.Machine
end

