-- ==== Sys2Proof/Machine/Step.lean ====
section
/-!
DEFINITION. One step: one point of the total order (20_memory.md rule R73). It is the engine's update when that is due;
else the oldest waiting host access; else nothing but the passing of a host-visible step.
-/

namespace Sys2Proof.Machine

/-- One step of the block. -/
def step (s : State) : Host.Outcome State Fault Refusal :=
  match engineDue s with
  | some p => .next (engineUpdate p s)
  | none =>
    match s.inbox with
    | [] => .next (tickEngine s)
    | e :: rest => performEvent e { (tickEngine s) with inbox := rest }

/-- The state in which the next step performs the write an opcode-table word stands for (log 8). -/
def State.withFetchWord (s : State) (nbits w : Nat) : State :=
  { s with inbox := .write (tableWrite nbits w) :: s.inbox, engine := deferEngine s.engine }

end Sys2Proof.Machine
end

