-- ==== Sys2Proof/Safety.lean ====
section
/-!
DEFINITION. What counts as a safe state: the invariant of the block, and the bound of a rendered sample.
-/

namespace Sys2Proof.Safety

open Sys2Proof.Machine

/-- The snapshot of the running render, if one runs. -/
def runningSnapshot (s : State) : Option Params :=
  match s.engine with
  | .idle => none
  | .running p _ => some p

/-- The capacities of the block are legal. -/
def CapsLegal (s : State) : Prop := LegalCaps s.caps

/-- There are MAX_OSC level registers, live and in the snapshot (10_state.md rules R35, R40). -/
def LevelsMatch (s : State) : Prop :=
  s.params.oscLevels.length = s.caps.maxOsc.toNat ∧
  ∀ p, runningSnapshot s = some p → p.oscLevels.length = s.caps.maxOsc.toNat

/-- BUSY = 1 exactly while a render runs (10_state.md rules R20, R26). -/
def BusyMatches (s : State) : Prop := s.status.busy = (runningSnapshot s).isSome

/-- While a render runs: its snapshot passed validation, DONE and ERR are 0, BPS and SAMPLES are those of the snapshot,
and every sample entry is unspecified (40_commands.md rule R123). -/
def RunningLegal (s : State) : Prop :=
  ∀ p, runningSnapshot s = some p →
    validate s.caps p = none ∧ s.status.done = false ∧ s.status.err = false ∧
    s.status.bps = BitVec.ofNat 4 (asU32 p.bitDepth / 8) ∧
    s.status.samples = BitVec.ofNat 32 (sampleCount (numericsOf s.caps).ops p) ∧ s.mem = []

/-- The sample memory is in its canonical form. -/
def MemCanonical (s : State) : Prop := memWf s.mem = true

/-- Either no entry is defined, or exactly the entries [0, SAMPLES) are (10_state.md rule R44, 41_render.md rule R160). -/
def DefinedEntries (s : State) : Prop :=
  s.mem = [] ∨ ∀ i, (readSample s.mem i).isSome = decide (i < s.status.samples.toNat)

/-- DONE = 1 means that the sample memory [0, SAMPLES) holds a completed render (10_state.md rule R26). -/
def DoneMeansHeld (s : State) : Prop :=
  s.status.done = true → s.status.busy = false ∧ s.status.bps ≠ 0#4 ∧
    ∀ i, (readSample s.mem i).isSome = decide (i < s.status.samples.toNat)

/-- BPS is 2, 3, or 0 when no render is held; then SAMPLES is 0 and nothing is defined (10_state.md rule R26,
60_exceptions.md rule R306). -/
def BpsLegal (s : State) : Prop :=
  s.status.bps = 2#4 ∨ s.status.bps = 3#4 ∨ (s.status.bps = 0#4 ∧ s.status.samples = 0#32 ∧ s.mem = [])

/-- The error record: without ERR the code and detail are 0; with ERR the code is one of 1..5, and the detail lies in
the range rule R300 gives the code (60_exceptions.md rule R300). -/
def ErrorRecordLegal (s : State) : Prop :=
  (s.status.err = false → s.status.errCode = 0#8 ∧ s.status.errDetail = 0#8) ∧
  (s.status.err = true →
    (s.status.errCode = 1#8 ∧ 1 ≤ s.status.errDetail.toNat ∧ s.status.errDetail.toNat ≤ 5) ∨
    (s.status.errCode = 2#8 ∧ 1 ≤ s.status.errDetail.toNat ∧ s.status.errDetail.toNat ≤ 19) ∨
    (s.status.errCode = 3#8 ∧ 1 ≤ s.status.errDetail.toNat ∧ s.status.errDetail.toNat ≤ 2) ∨
    (s.status.errCode = 4#8 ∧ s.status.errDetail = 0#8) ∨
    s.status.errCode = 5#8)

/-- The invariant of the block. -/
structure Inv (s : State) : Prop where
  capsLegal : CapsLegal s
  levelsMatch : LevelsMatch s
  busyMatches : BusyMatches s
  runningLegal : RunningLegal s
  memCanonical : MemCanonical s
  definedEntries : DefinedEntries s
  doneMeansHeld : DoneMeansHeld s
  bpsLegal : BpsLegal s
  errorRecordLegal : ErrorRecordLegal s

/-- Every defined sample lies in [-32767, 32767] (10_state.md rule R46). -/
def SamplesBounded (s : State) : Prop :=
  ∀ i w, readSample s.mem i = some w → -32767 ≤ w.toInt ∧ w.toInt ≤ 32767

/-! ### Words of the statements -/

/-- The register table of 10_state.md rules R21 and R48: each named read-write register's offset and reset word. -/
def resetWords : List (Nat × Word) :=
  [(0x010, 0x1#64), (0x020, 0x0#64), (0x028, 0x0#64), (0x030, 96000#64), (0x038, 16#64), (0x040, 0#64),
   (0x048, 0#64), (0x050, 1#64), (0x058, 1#64)] ++
  [(0x060, 0x4062C00000000000#64), (0x068, 0x4044000000000000#64), (0x070, 0x3FF0000000000000#64),
   (0x078, 0x3F689374BC6A7EFA#64), (0x080, 0x3FD3333333333333#64), (0x088, 0x3FB999999999999A#64),
   (0x090, 0x3FC3333333333333#64), (0x098, 0x3FB999999999999A#64), (0x0A0, 0x40AF400000000000#64),
   (0x0A8, 0x0000000000000000#64), (0x0B0, 0x3FE999999999999A#64), (0x0B8, 0x3FE0000000000000#64)] ++
  [(0x0C0, 0x0000000000000000#64), (0x0C8, 0x3FD3333333333333#64), (0x0D0, 0x4069000000000000#64),
   (0x0D8, 0x408F400000000000#64), (0x0E0, 0x40A7700000000000#64), (0x0E8, 0x3F847AE147AE147B#64)]

/-- The reads rule R60's table admits, in the words of 20_memory.md rules R64, R67 and R68. -/
def ReadAdmitted (s : State) (off : Offset) (width : Width) : Prop :=
  (off.toNat < 0x1000 ∧ width = .eight ∧ off.toNat % 8 = 0) ∨
  (0x400000 ≤ off.toNat ∧ off.toNat < 0x400000 + 4 * s.caps.maxSamples.toNat ∧ width = .four ∧
    off.toNat % 4 = 0) ∨
  (0x800000 ≤ off.toNat ∧ off.toNat - 0x800000 + width.bytes ≤ 3 * s.caps.maxSamples.toNat ∧
    off.toNat % width.bytes = 0)

/-- Check number n of INVALID_PARAMS holds (60_exceptions.md rule R301), a real register being read by `as_f64`; there
are the checks 1 to 5. -/
def InvalidCheck {Num : Type} (nx : Numerics Num) (p : Params) : Nat → Prop
  | 1 => 1 ≤ p.sampleRate.toNat
  | 2 => nx.lt (nx.ofNat 0) (nx.asF64 p.duration) = true
  | 3 => p.numOsc = p.levelCount
  | 4 => nx.lt (nx.asF64 p.band0) (nx.asF64 p.band1) = true ∧ nx.lt (nx.asF64 p.band1) (nx.asF64 p.band2) = true
  | 5 => p.bitDepth = 16#32 ∨ p.bitDepth = 24#32
  | _ => True

/-- Check number n of DOMAIN holds (60_exceptions.md rule R302); there are the checks 1 to 19. -/
def DomainCheck {Num : Type} (nx : Numerics Num) (c : Caps) (p : Params) : Nat → Prop
  | 1 => nx.isFinite (nx.asF64 p.startFreq) = true ∧ nx.lt (nx.ofNat 0) (nx.asF64 p.startFreq) = true
  | 2 => nx.isFinite (nx.asF64 p.endFreq) = true ∧ nx.lt (nx.ofNat 0) (nx.asF64 p.endFreq) = true
  | 3 => nx.isFinite (nx.asF64 p.duration) = true
  | 4 => nx.isFinite (nx.asF64 p.attack) = true ∧ nx.le (nx.ofNat 0) (nx.asF64 p.attack) = true
  | 5 => nx.isFinite (nx.asF64 p.decay) = true ∧ nx.le (nx.ofNat 0) (nx.asF64 p.decay) = true
  | 6 => nx.le (nx.ofNat 0) (nx.asF64 p.sustain) = true ∧ nx.le (nx.asF64 p.sustain) (nx.ofNat 1) = true
  | 7 => nx.isFinite (nx.asF64 p.release) = true ∧ nx.le (nx.ofNat 0) (nx.asF64 p.release) = true
  | 8 => nx.le (nx.ofNat 0) (nx.asF64 p.drive) = true ∧ nx.le (nx.asF64 p.drive) (nx.ofNat 1) = true
  | 9 => nx.isFinite (nx.asF64 p.filterCutoff) = true ∧ nx.lt (nx.ofNat 0) (nx.asF64 p.filterCutoff) = true
  | 10 => nx.le (nx.ofNat 0) (nx.asF64 p.filterResonance) = true ∧ nx.le (nx.asF64 p.filterResonance) (nx.ofNat 1) = true
  | 11 => nx.isFinite (nx.asF64 p.sweep) = true ∧ nx.le (nx.ofNat 0) (nx.asF64 p.sweep) = true
  | 12 => nx.isFinite (nx.asF64 p.pitchDecay) = true ∧ nx.lt (nx.ofNat 0) (nx.asF64 p.pitchDecay) = true
  | 13 => p.waveform.toNat ≤ 6
  | 14 => p.noiseType.toNat ≤ 3
  | 15 => nx.le (nx.ofNat 0) (nx.asF64 p.noiseAmount) = true ∧ nx.le (nx.asF64 p.noiseAmount) (nx.ofNat 1) = true
  | 16 => 1 ≤ p.numOsc.toNat
  | 17 => ∀ k < min p.numOsc.toNat c.maxOsc.toNat, nx.isFinite (nx.asF64 (getLevel k p)) = true
  | 18 => nx.isFinite (nx.asF64 p.saturatorAmount) = true ∧ nx.le (nx.ofNat 0) (nx.asF64 p.saturatorAmount) = true
  | 19 => nx.isFinite (nx.asF64 p.fadeDuration) = true ∧ nx.le (nx.ofNat 0) (nx.asF64 p.fadeDuration) = true
  | _ => True

/-- Check number n of CAPACITY holds (60_exceptions.md rule R303); there are the checks 1 and 2. -/
def CapacityCheck {Num : Type} (nx : Numerics Num) (c : Caps) (p : Params) : Nat → Prop
  | 1 => p.numOsc.toNat ≤ c.maxOsc.toNat
  | 2 =>
    nx.le (nx.floor (nx.mul (nx.ofNat p.sampleRate.toNat) (nx.asF64 p.duration))) (nx.ofNat c.maxSamples.toNat) = true
  | _ => True

/-- `FirstFails check n`: check number n is the first that fails. -/
def FirstFails (check : Nat → Prop) (n : Nat) : Prop := ¬ check n ∧ ∀ m, m < n → check m

/-- The least magnitude that rounds to infinity, in the unit 2^-1074: half a unit in the last place above the largest
finite value (00_scope.md rule R9). Irreducible, so that no proof unrolls the power by accident. -/
@[irreducible] def overflowMag : Nat := (2 ^ 54 - 1) * 2 ^ 2044

/-- The distance of the magnitude m from the exact quotient n / d, times d. -/
def roundingError (n d m : Nat) : Nat := (m * d - n) + (n - m * d)

/-- The value r is the real number e rounded, not necessarily to nearest: it is no NaN, and no value of the domain lies
between the two. -/
def RoundsTo {Num : Type} (nx : Numerics Num) (e : ℝ) (r : Num) : Prop :=
  ¬ nx.standsFor r .nan ∧
  ∀ (z : Num) (b : ℝ), nx.standsFor z (.finite b) → (b ≤ e → nx.le z r = true) ∧ (e ≤ b → nx.le r z = true)

/-- `+ - * /` of finite values round their exact results, as those of the default do (00_scope.md rule R9). R8 does not ask
it of another NUMERICS. -/
def ArithmeticRounds {Num : Type} (nx : Numerics Num) : Prop :=
  ∀ (x y : Num) (a b : ℝ), nx.standsFor x (.finite a) → nx.standsFor y (.finite b) →
    RoundsTo nx (a + b) (nx.add x y) ∧ RoundsTo nx (a - b) (nx.sub x y) ∧ RoundsTo nx (a * b) (nx.mul x y) ∧
    (b ≠ 0 → RoundsTo nx (a / b) (nx.div x y))

/-- The product and the quotient change sign with their first operand, as those of the default do. R8 does not ask it of
another NUMERICS: rounding toward minus infinity is not odd. -/
def SignsFollow {Num : Type} (nx : Numerics Num) : Prop :=
  ∀ (x x' y : Num) (v w : NumValue), nx.standsFor x v → nx.standsFor x' (valueMap (fun a => -a) not v) →
    (nx.standsFor (nx.mul x y) w → nx.standsFor (nx.mul x' y) (valueMap (fun a => -a) not w)) ∧
    (nx.standsFor (nx.div x y) w → nx.standsFor (nx.div x' y) (valueMap (fun a => -a) not w))

/-- Two snapshots that agree on the registers the pipeline reads: not FILTER_CUTOFF, FILTER_RESONANCE, PITCH_DECAY,
LEVEL_COUNT, OSC_LEVEL[k] for k >= K, nor NOISE_AMOUNT when NOISE_TYPE = 0. -/
def AgreeOnWhatIsRead (p q : Params) : Prop :=
  p.smooth = q.smooth ∧ p.seed = q.seed ∧ p.sampleRate = q.sampleRate ∧ p.bitDepth = q.bitDepth ∧
  p.waveform = q.waveform ∧ p.noiseType = q.noiseType ∧ p.numOsc = q.numOsc ∧ p.startFreq = q.startFreq ∧
  p.endFreq = q.endFreq ∧ p.duration = q.duration ∧ p.attack = q.attack ∧ p.decay = q.decay ∧
  p.sustain = q.sustain ∧ p.release = q.release ∧ p.drive = q.drive ∧ p.sweep = q.sweep ∧
  (p.noiseType ≠ 0#32 → p.noiseAmount = q.noiseAmount) ∧ p.saturatorAmount = q.saturatorAmount ∧
  p.band0 = q.band0 ∧ p.band1 = q.band1 ∧ p.band2 = q.band2 ∧ p.fadeDuration = q.fadeDuration ∧
  ∀ k, k < p.numOsc.toNat → getLevel k p = getLevel k q

end Sys2Proof.Safety
end

