-- ==== Sys2Proof/Certificates/Slice0/Obligations.lean ====
section
/-!
DEFINITION. The statements for the provers. Each docstring names the rules of spec/ it formalises.
-/

open Sys2Proof Sys2Proof.Machine Sys2Proof.Safety

/-! ### Decoding -/

/-- Decode and encode are inverse: a host write decodes to an instruction exactly when it is the write that encodes it,
so no bit of a word is dropped or invented (30_encoding.md rules R92-R95, R97-R100, R102). -/
def Obligations.DecodeInvertsEncode : Prop :=
  ∀ (a : BusWrite) (i : Instr), decode a = .instr i ↔ a = encode i

/-- Words written out from the encoding tables decode as the tables say, with a word for each way a write can fail to be
an instruction (30_encoding.md rules R95, R97-R102). -/
def Obligations.TableWordsDecode : Prop :=
  decode ⟨0x000018#24, .eight, 0x0000000000000001#64⟩ = .instr .render ∧
  decode ⟨0x000018#24, .eight, 0x0000000000000003#64⟩ = .instr .softReset ∧
  decode ⟨0x000040#24, .eight, 0xFFFFFFFF00000003#64⟩ = .instr (.waveformSquare 0xFFFFFFFF#32) ∧
  decode ⟨0x000048#24, .eight, 0x0000000000000002#64⟩ = .instr (.noiseTypePink 0#32) ∧
  decode ⟨0x000038#24, .eight, 0x0000000000000018#64⟩ = .instr (.bitDepth24 0#32) ∧
  decode ⟨0x000010#24, .eight, 0x0000000000000003#64⟩ = .instr (.pitchSmooth true 0#62) ∧
  decode ⟨0x000010#24, .eight, 0x0000000000000000#64⟩ = .instr (.pitchStep false 0#62) ∧
  decode ⟨0x000018#24, .eight, 0x0000000000000101#64⟩ = .reject .illegalCommand ∧
  decode ⟨0x000040#24, .eight, 0x0000000000000007#64⟩ = .reject .reservedWaveform ∧
  decode ⟨0x000048#24, .eight, 0x0000000000000004#64⟩ = .reject .reservedNoiseType ∧
  decode ⟨0x000038#24, .eight, 0x0000000000000008#64⟩ = .reject .reservedBitDepth ∧
  decode ⟨0x000060#24, .eight, 0x4062C00000000000#64⟩ = .reject .plainRegister ∧
  decode ⟨0x0000F0#24, .eight, 0x0000000000001234#64⟩ = .reject .plainRegister ∧
  decode ⟨0x000018#24, .four, 0x0000000000000001#64⟩ = .reject .notAdmitted

/-- A CMD word is an instruction iff RSVD = v[63:8] is 0 and OPCODE = v[7:0] is one of 0x00..0x03, the words of NOP,
RENDER, CLEAR_STATUS and SOFT_RESET; every other word is rejected as an illegal command, whatever its OPCODE
(30_encoding.md rules R94, R95). -/
def Obligations.CommandWordsFullyDecoded : Prop :=
  decode ⟨offCmd, .eight, 0x0000000000000000#64⟩ = .instr .nop ∧
  decode ⟨offCmd, .eight, 0x0000000000000001#64⟩ = .instr .render ∧
  decode ⟨offCmd, .eight, 0x0000000000000002#64⟩ = .instr .clearStatus ∧
  decode ⟨offCmd, .eight, 0x0000000000000003#64⟩ = .instr .softReset ∧
  ∀ v : Word,
    (cmdWellFormed v = true ↔ v.extractLsb' 8 56 = 0#56 ∧ (v.extractLsb' 0 8).toNat ≤ 3) ∧
    (cmdWellFormed v = true ↔ ∃ i, decode ⟨offCmd, .eight, v⟩ = .instr i) ∧
    (cmdWellFormed v = false → decode ⟨offCmd, .eight, v⟩ = .reject .illegalCommand)

/-! ### The step -/

/-- A step runs the decoded instruction: when no engine update is due and the oldest host access is a write that decodes
to `i`, the step is `exec i` on the state with that access taken from the port and one host-visible step counted for a
running render (20_memory.md rule R73, 70_reset_and_hazards.md rule R352). -/
def Obligations.StepRunsDecodedInstruction : Prop :=
  ∀ (s : State) (a : BusWrite) (rest : List BusEvent) (i : Instr),
    engineDue s = none → s.inbox = .write a :: rest → decode a = .instr i →
      step s = exec i { (tickEngine s) with inbox := rest }

/-- What a step is when it runs no instruction: the engine's update when it is due; a reset assertion, a read, or a write
that is no instruction at the head of the port; and with nothing waiting, only the passing of a host-visible step. The
host port and the latency count are the model's (logs 6 and 8) (20_memory.md rule R73, 70_reset_and_hazards.md rules
R352, R354). -/
def Obligations.StepFollowsTheTotalOrder : Prop :=
  (∀ (s : State) (p : Params), s.engine = .running p 0 → step s = .next (engineUpdate p s)) ∧
  (∀ s : State, engineDue s = none → s.inbox = [] → step s = .next (tickEngine s)) ∧
  (∀ (s : State) (rest : List BusEvent), engineDue s = none → s.inbox = .reset :: rest →
    step s = .next (resetBlock { (tickEngine s) with inbox := rest })) ∧
  (∀ (s : State) (off : Offset) (width : Width) (rest : List BusEvent), engineDue s = none →
    s.inbox = .read off width :: rest → step s = busRead off width { (tickEngine s) with inbox := rest }) ∧
  (∀ (s : State) (a : BusWrite) (rest : List BusEvent) (r : Reject), engineDue s = none →
    s.inbox = .write a :: rest → decode a = .reject r →
      step s = writeRejected r a { (tickEngine s) with inbox := rest }) ∧
  ∀ (s : State) (e : BusEvent) (rest : List BusEvent), engineDue s = none → s.inbox = e :: rest →
    step s = performEvent e { (tickEngine s) with inbox := rest }

/-! ### Commands -/

/-- NOP changes nothing, busy or not; its word is 0, and the word 0x100 is not NOP (40_commands.md rule R120). -/
def Obligations.NopChangesNothing : Prop :=
  (∀ s : State, exec .nop s = .next s) ∧
  decode ⟨offCmd, .eight, 0x0#64⟩ = .instr .nop ∧
  decode ⟨offCmd, .eight, 0x100#64⟩ = .reject .illegalCommand

/-- RENDER while idle, with a snapshot that passes validation, is accepted: BUSY 1, DONE, ERR, ERR_CODE and ERR_DETAIL 0,
OVERRUN kept, BPS = bit depth / 8, SAMPLES = N, every entry and byte of the sample memory unspecified, the engine RUNNING
the snapshot; the registers and the host port are unchanged (40_commands.md rule R123, 10_state.md rule R40). -/
def Obligations.RenderIsAccepted : Prop :=
  ∀ s : State, s.status.busy = false → validate s.caps s.params = none →
    ∃ t, exec .render s = .next t ∧
      t.status.busy = true ∧ t.status.done = false ∧ t.status.err = false ∧ t.status.errCode = 0#8 ∧
      t.status.errDetail = 0#8 ∧ t.status.overrun = s.status.overrun ∧
      t.status.bps.toNat = s.params.bitDepth.toNat / 8 ∧
      t.status.samples.toNat = sampleCount (numericsOf s.caps).ops s.params ∧
      (∀ i, readSample t.mem i = none) ∧ (∀ a, readByte t.mem a = none) ∧
      (∃ left, t.engine = .running s.params left) ∧
      t.params = s.params ∧ t.irqEn = s.irqEn ∧ t.caps = s.caps ∧ t.inbox = s.inbox ∧ t.lastRead = s.lastRead

/-- RENDER while idle, with a failing snapshot, records the first failing check in ERR, ERR_CODE and ERR_DETAIL and
changes nothing else; the code is 1 for INVALID_PARAMS, 2 for DOMAIN and 3 for CAPACITY, and validation reports no other
class (60_exceptions.md rules R300, R305). -/
def Obligations.FailedRenderRecordsItsCheck : Prop :=
  ∀ (s : State) (code : ErrCode) (detail : Byte),
    s.status.busy = false → validate s.caps s.params = some (code, detail) →
      ∃ byte : Byte,
        ((code = .invalidParams ∧ byte = 1#8) ∨ (code = .domain ∧ byte = 2#8) ∨ (code = .capacity ∧ byte = 3#8)) ∧
        exec .render s =
          .next { s with status := { s.status with err := true, errCode := byte, errDetail := detail } }

/-- CLEAR_STATUS while idle clears DONE, ERR, OVERRUN, ERR_CODE and ERR_DETAIL and keeps everything else, the sample
memory included; while busy it is dropped and sets OVERRUN (40_commands.md rule R124). -/
def Obligations.ClearStatusClearsTheRecord : Prop :=
  (∀ s : State, s.status.busy = false →
    exec .clearStatus s =
      .next { s with status := { s.status with
        done := false, err := false, overrun := false, errCode := 0#8, errDetail := 0#8 } }) ∧
  (∀ s : State, s.status.busy = true →
    exec .clearStatus s = .next { s with status := { s.status with overrun := true } })

/-- SOFT_RESET, in every state, busy or not, and the reset input, which does the same: every register reads its reset
word, OSC_LEVEL[0] is 1.0 and every other level 0.0, STATUS is 0, irq is 0, the engine is IDLE and every sample entry is
unspecified (40_commands.md rule R125, 70_reset_and_hazards.md rules R340, R341, 10_state.md rule R48). That the
capacities, the host port and the data of the last read stay is the model's choice (logs 1, 8 and 17). -/
def Obligations.SoftResetRestoresEveryRegister : Prop :=
  ∀ s : State, ∃ t, exec .softReset s = .next t ∧ performEvent .reset s = .next t ∧
    (∀ r ∈ resetWords, readReg (regAt s.caps.maxOsc.toNat r.1) t = r.2) ∧
    (∀ k, k < s.caps.maxOsc.toNat →
      readReg (.oscLevel k) t = if k = 0 then 0x3FF0000000000000#64 else 0x0000000000000000#64) ∧
    irq t = false ∧ t.engine = .idle ∧ (∀ i, readSample t.mem i = none) ∧ (∀ a, readByte t.mem a = none) ∧
    t.caps = s.caps ∧ t.inbox = s.inbox ∧ t.lastRead = s.lastRead

/-- The state right after reset reads the reset word of every register, with OSC_LEVEL as rule R35 says, irq 0, the engine
IDLE and nothing defined in the sample memory (10_state.md rule R48, 70_reset_and_hazards.md rule R342). -/
def Obligations.ResetStateReadsResetWords : Prop :=
  (∀ r ∈ resetWords, readReg (regAt 16 r.1) State.reset = r.2) ∧
  readReg (regAt 16 0x100) State.reset = 0x3FF0000000000000#64 ∧
  (∀ k, 1 ≤ k → k < 16 → readReg (.oscLevel k) State.reset = 0#64) ∧
  readReg (regAt 16 0x000) State.reset = 0x000000074B43494B#64 ∧
  readReg (regAt 16 0x008) State.reset = 0x0000001000100000#64 ∧
  irq State.reset = false ∧ State.reset.engine = .idle ∧ (∀ i, readSample State.reset.mem i = none)

/-- While BUSY = 1, any 8-byte CMD write other than exactly 0x0 and exactly 0x3 sets OVERRUN and changes nothing else
(40_commands.md rule R127). -/
def Obligations.BusyDropsCommands : Prop :=
  ∀ (s : State) (v : Word), s.status.busy = true → v ≠ 0x0#64 → v ≠ 0x3#64 →
    performEvent (.write ⟨offCmd, .eight, v⟩) s =
      .next { s with status := { s.status with overrun := true } }

/-- While BUSY = 0, a CMD word with RSVD ≠ 0 or OPCODE in 0x04..0xFF records ILLEGAL_CMD (code 5) with the detail v[7:0]
and changes nothing else (40_commands.md rule R126). -/
def Obligations.IllegalCommandIsRecorded : Prop :=
  ∀ (s : State) (v : Word), s.status.busy = false →
    (v.extractLsb' 8 56 ≠ 0#56 ∨ 4 ≤ (v.extractLsb' 0 8).toNat) →
      performEvent (.write ⟨offCmd, .eight, v⟩) s =
        .next { s with status := { s.status with err := true, errCode := 5#8, errDetail := v.extractLsb' 0 8 } }

/-! ### Selector writes -/

/-- The WAVEFORM, NOISE_TYPE and BIT_DEPTH rows store their code, in every state, whatever the ignored bits hold, and change
nothing else (10_state.md rules R28, R30-R32; 30_encoding.md rules R92, R97-R99; 20_memory.md rules R62, R72). That a row
means the write of its code is the model's reading (log 12, DEDUCED). -/
def Obligations.SelectorWritesStoreTheirCode : Prop :=
  ∀ (hi : BitVec 32) (s : State),
    exec (.waveformSine hi) s = .next { s with params := { s.params with waveform := 0#32 } } ∧
    exec (.waveformTriangle hi) s = .next { s with params := { s.params with waveform := 1#32 } } ∧
    exec (.waveformSawtooth hi) s = .next { s with params := { s.params with waveform := 2#32 } } ∧
    exec (.waveformSquare hi) s = .next { s with params := { s.params with waveform := 3#32 } } ∧
    exec (.waveformNoiseWhite hi) s = .next { s with params := { s.params with waveform := 4#32 } } ∧
    exec (.waveformNoisePink hi) s = .next { s with params := { s.params with waveform := 5#32 } } ∧
    exec (.waveformNoiseBrown hi) s = .next { s with params := { s.params with waveform := 6#32 } } ∧
    exec (.noiseTypeNone hi) s = .next { s with params := { s.params with noiseType := 0#32 } } ∧
    exec (.noiseTypeWhite hi) s = .next { s with params := { s.params with noiseType := 1#32 } } ∧
    exec (.noiseTypePink hi) s = .next { s with params := { s.params with noiseType := 2#32 } } ∧
    exec (.noiseTypeBrown hi) s = .next { s with params := { s.params with noiseType := 3#32 } } ∧
    exec (.bitDepth16 hi) s = .next { s with params := { s.params with bitDepth := 16#32 } } ∧
    exec (.bitDepth24 hi) s = .next { s with params := { s.params with bitDepth := 24#32 } }

/-- The PITCH rows store SMOOTH and, with it, IRQ_EN, and change nothing else (10_state.md rule R24; 30_encoding.md rules
R93, R100; 20_memory.md rules R62, R72). That a row means the write of CTRL is the model's reading (log 12, DEDUCED). -/
def Obligations.PitchWritesStoreSmoothAndIrqEnable : Prop :=
  ∀ (irqEn : Bool) (hi : BitVec 62) (s : State),
    exec (.pitchStep irqEn hi) s = .next { s with params := { s.params with smooth := false }, irqEn := irqEn } ∧
    exec (.pitchSmooth irqEn hi) s = .next { s with params := { s.params with smooth := true }, irqEn := irqEn }

/-! ### Frames -/

/-- The frame of every instruction. None touches the capacities, the host port or the data of the last read. The
registers change only by SOFT_RESET and the selector rows, IRQ_EN only by SOFT_RESET and the pitch rows, STATUS only by
RENDER, CLEAR_STATUS and SOFT_RESET, and the engine and any byte of the sample memory only by RENDER and SOFT_RESET. A
selector row changes the one register it names (10_state.md rule R37, 20_memory.md rule R72). That SOFT_RESET too leaves
the capacities, the host port and the data of the last read is the model's choice (logs 1, 8 and 17). -/
def Obligations.InstructionFrame : Prop :=
  ∀ (i : Instr) (s t : State), exec i s = .next t →
    t.caps = s.caps ∧ t.inbox = s.inbox ∧ t.lastRead = s.lastRead ∧
    (i ≠ .softReset → getU32 .sampleRate t.params = getU32 .sampleRate s.params ∧
      getU32 .numOsc t.params = getU32 .numOsc s.params ∧
      getU32 .levelCount t.params = getU32 .levelCount s.params ∧
      t.params.seed = s.params.seed ∧ t.params.oscLevels = s.params.oscLevels ∧
      ∀ r, getF64 r t.params = getF64 r s.params) ∧
    (i = .nop ∨ i = .render ∨ i = .clearStatus → t.params = s.params ∧ t.irqEn = s.irqEn) ∧
    (i ≠ .softReset → (encode i).off ≠ offCtrl → t.params.smooth = s.params.smooth ∧ t.irqEn = s.irqEn) ∧
    (i ≠ .softReset → (encode i).off ≠ offBitDepth → t.params.bitDepth = s.params.bitDepth) ∧
    (i ≠ .softReset → (encode i).off ≠ offWaveform → t.params.waveform = s.params.waveform) ∧
    (i ≠ .softReset → (encode i).off ≠ offNoiseType → t.params.noiseType = s.params.noiseType) ∧
    ((encode i).off ≠ offCmd ∨ i = .nop → t.status = s.status) ∧
    (i ≠ .render → i ≠ .softReset → t.engine = s.engine ∧ ∀ a, readByte t.mem a = readByte s.mem a)

/-! ### Host accesses -/

/-- An admitted access answers a next state; any other is the fault BusFault(offset, n, direction). A write is admitted
only as an 8-byte access at a multiple of 8 below 0x1000 (20_memory.md rules R61, R64, R66-R68). -/
def Obligations.AccessesFaultExactlyWhenNotAdmitted : Prop :=
  (∀ (s : State) (off : Offset) (width : Width),
    (ReadAdmitted s off width → ∃ t, performEvent (.read off width) s = .next t) ∧
    (¬ ReadAdmitted s off width → performEvent (.read off width) s = .fault (.busFault off width .read))) ∧
  (∀ (s : State) (a : BusWrite),
    (a.off.toNat < 0x1000 ∧ a.width = .eight ∧ a.off.toNat % 8 = 0 → ∃ t, performEvent (.write a) s = .next t) ∧
    (¬ (a.off.toNat < 0x1000 ∧ a.width = .eight ∧ a.off.toNat % 8 = 0) →
      performEvent (.write a) s = .fault (.busFault a.off a.width .write)))

/-- Every admitted write to a register other than CMD, a selector row's included, stores as the register at that offset
says and does nothing else; an admitted register read returns the register's value and changes nothing but the data
returned; and the register at each offset is the one the table of rule R21 names, read from the field of that name
(20_memory.md rules R62, R63; 10_state.md rules R21, R34, R35). -/
def Obligations.RegisterAccesses : Prop :=
  (∀ (s : State) (off : Offset) (v : Word), off.toNat < 0x1000 → off.toNat % 8 = 0 →
    (off ≠ offCmd →
      performEvent (.write ⟨off, .eight, v⟩) s = .next (storeReg (regAt s.caps.maxOsc.toNat off.toNat) v s)) ∧
    performEvent (.read off .eight) s =
      .next { s with lastRead := some (readReg (regAt s.caps.maxOsc.toNat off.toNat) s) }) ∧
  (∀ m : Nat,
    (regAt m 0x000 = .id ∧ regAt m 0x008 = .caps ∧ regAt m 0x010 = .ctrl ∧ regAt m 0x018 = .cmd ∧
      regAt m 0x020 = .status ∧ regAt m 0x028 = .seed) ∧
    (regAt m 0x030 = .u32 .sampleRate ∧ regAt m 0x038 = .u32 .bitDepth ∧ regAt m 0x040 = .u32 .waveform ∧
      regAt m 0x048 = .u32 .noiseType ∧ regAt m 0x050 = .u32 .numOsc ∧ regAt m 0x058 = .u32 .levelCount) ∧
    (regAt m 0x060 = .f64 .startFreq ∧ regAt m 0x068 = .f64 .endFreq ∧ regAt m 0x070 = .f64 .duration ∧
      regAt m 0x078 = .f64 .attack ∧ regAt m 0x080 = .f64 .decay ∧ regAt m 0x088 = .f64 .sustain ∧
      regAt m 0x090 = .f64 .release ∧ regAt m 0x098 = .f64 .drive ∧ regAt m 0x0A0 = .f64 .filterCutoff) ∧
    (regAt m 0x0A8 = .f64 .filterResonance ∧ regAt m 0x0B0 = .f64 .sweep ∧ regAt m 0x0B8 = .f64 .pitchDecay ∧
      regAt m 0x0C0 = .f64 .noiseAmount ∧ regAt m 0x0C8 = .f64 .saturatorAmount ∧ regAt m 0x0D0 = .f64 .band0 ∧
      regAt m 0x0D8 = .f64 .band1 ∧ regAt m 0x0E0 = .f64 .band2 ∧ regAt m 0x0E8 = .f64 .fadeDuration) ∧
    (∀ k, k < m → regAt m (0x100 + 8 * k) = .oscLevel k)) ∧
  ∀ s : State,
    (readReg .seed s = s.params.seed ∧
      readReg (.u32 .sampleRate) s = s.params.sampleRate.setWidth 64 ∧
      readReg (.u32 .bitDepth) s = s.params.bitDepth.setWidth 64 ∧
      readReg (.u32 .waveform) s = s.params.waveform.setWidth 64 ∧
      readReg (.u32 .noiseType) s = s.params.noiseType.setWidth 64 ∧
      readReg (.u32 .numOsc) s = s.params.numOsc.setWidth 64 ∧
      readReg (.u32 .levelCount) s = s.params.levelCount.setWidth 64) ∧
    (readReg (.f64 .startFreq) s = s.params.startFreq ∧ readReg (.f64 .endFreq) s = s.params.endFreq ∧
      readReg (.f64 .duration) s = s.params.duration ∧ readReg (.f64 .attack) s = s.params.attack ∧
      readReg (.f64 .decay) s = s.params.decay ∧ readReg (.f64 .sustain) s = s.params.sustain ∧
      readReg (.f64 .release) s = s.params.release ∧ readReg (.f64 .drive) s = s.params.drive ∧
      readReg (.f64 .filterCutoff) s = s.params.filterCutoff) ∧
    (readReg (.f64 .filterResonance) s = s.params.filterResonance ∧ readReg (.f64 .sweep) s = s.params.sweep ∧
      readReg (.f64 .pitchDecay) s = s.params.pitchDecay ∧ readReg (.f64 .noiseAmount) s = s.params.noiseAmount ∧
      readReg (.f64 .saturatorAmount) s = s.params.saturatorAmount ∧ readReg (.f64 .band0) s = s.params.band0 ∧
      readReg (.f64 .band1) s = s.params.band1 ∧ readReg (.f64 .band2) s = s.params.band2 ∧
      readReg (.f64 .fadeDuration) s = s.params.fadeDuration) ∧
    ∀ k (hk : k < s.params.oscLevels.length), readReg (.oscLevel k) s = s.params.oscLevels[k]

/-- What a register reads after a write to it: all 64 bits for a real register, SEED and an existing OSC_LEVEL; bits
[31:0] for an integer register; bits [1:0] for CTRL. Every other register reads as before, and a read-only register,
CMD and a reserved offset store nothing (10_state.md rules R24, R27, R28, R34, R35). -/
def Obligations.RegisterWriteThenRead : Prop :=
  ∀ (s : State) (v : Word),
    (∀ r, readReg (.f64 r) (storeReg (.f64 r) v s) = v) ∧
    (∀ r, readReg (.u32 r) (storeReg (.u32 r) v s) = v &&& 0x00000000FFFFFFFF#64) ∧
    readReg .seed (storeReg .seed v s) = v ∧
    readReg .ctrl (storeReg .ctrl v s) = v &&& 0x3#64 ∧
    (∀ k, k < s.params.oscLevels.length → readReg (.oscLevel k) (storeReg (.oscLevel k) v s) = v) ∧
    (∀ r r', r ≠ r' → readReg r' (storeReg r v s) = readReg r' s) ∧
    (∀ r, r = .id ∨ r = .caps ∨ r = .status ∨ r = .cmd ∨ r = .reserved → storeReg r v s = s)

/-- The reserved offsets 0x0F0, 0x0F8 and 0x100 + 8k for MAX_OSC <= k <= 479 read 0 and ignore writes, and never fault
(20_memory.md rule R65). -/
def Obligations.ReservedOffsetsReadZero : Prop :=
  ∀ (s : State) (off : Offset) (v : Word),
    (off.toNat = 0x0F0 ∨ off.toNat = 0x0F8 ∨
      ∃ k, s.caps.maxOsc.toNat ≤ k ∧ k ≤ 479 ∧ off.toNat = 0x100 + 8 * k) →
    performEvent (.read off .eight) s = .next { s with lastRead := some 0#64 } ∧
    performEvent (.write ⟨off, .eight, v⟩) s = .next s

/-- A read has no side effect: only the data returned and the model's count of free values can change
(20_memory.md rules R63, R72). -/
def Obligations.ReadsHaveNoSideEffect : Prop :=
  ∀ (s t : State) (off : Offset) (width : Width), performEvent (.read off width) s = .next t →
    t = { s with lastRead := t.lastRead, freeCount := t.freeCount }

/-- A sample read of entry i: the word where it is defined and no render runs, else 32 drawn bits, whatever they are
(46_pcm_output.md rule R260). -/
def Obligations.SampleReads : Prop :=
  ∀ (s : State) (off : Offset) (i : Nat), i < s.caps.maxSamples.toNat → off.toNat = 0x400000 + 4 * i →
    (∀ w, s.status.busy = false → readSample s.mem i = some w →
      performEvent (.read off .four) s = .next { s with lastRead := some (w.setWidth 64) }) ∧
    (s.status.busy = true ∨ readSample s.mem i = none →
      performEvent (.read off .four) s = .next { s with
        lastRead := some (((Config.draw s.freeCount).setWidth 32).setWidth 64)
        freeCount := s.freeCount + 1 })

/-- The PCM byte at position j is byte j mod BPS of sample j div BPS, and unspecified while BUSY, with BPS = 0, at a
position of SAMPLES * BPS or more, or where the sample is unspecified (46_pcm_output.md rules R262-R264). -/
def Obligations.PcmByteValue : Prop :=
  ∀ (s : State) (j : Nat),
    (∀ w, s.status.busy = false → s.status.bps ≠ 0#4 → j < s.status.samples.toNat * s.status.bps.toNat →
      readSample s.mem (j / s.status.bps.toNat) = some w →
      pcmByte j s = some (w.extractLsb' (8 * (j % s.status.bps.toNat)) 8)) ∧
    (s.status.busy = true ∨ s.status.bps = 0#4 ∨ s.status.samples.toNat * s.status.bps.toNat ≤ j ∨
      readSample s.mem (j / s.status.bps.toNat) = none → pcmByte j s = none)

/-- An n-byte PCM read at position j returns n bytes, the byte of position j + k in bits [8k+7 : 8k] wherever that byte
is defined, and nothing above them; every unspecified byte is the low byte of a draw of its own, taken in increasing
position, whatever it is; and the rest of the state is as before (20_memory.md rules R69, R71, R72; 46_pcm_output.md
rules R263, R264; log 7). -/
def Obligations.PcmReadsAreLittleEndian : Prop :=
  ∀ (s : State) (off : Offset) (width : Width) (j : Nat),
    off.toNat = 0x800000 + j → j + width.bytes ≤ 3 * s.caps.maxSamples.toNat → j % width.bytes = 0 →
    s.caps.maxSamples.toNat ≤ 2 ^ 20 →
    let drawsBefore := fun k => (List.range k).countP fun m => (pcmByte (j + m) s).isNone
    ∃ v : Word,
      performEvent (.read off width) s =
        .next { s with lastRead := some v, freeCount := s.freeCount + drawsBefore width.bytes } ∧
      v.toNat < 2 ^ (8 * width.bytes) ∧
      ∀ k, k < width.bytes → v.extractLsb' (8 * k) 8 =
        (pcmByte (j + k) s).getD ((Config.draw (s.freeCount + drawsBefore k)).extractLsb' 0 8)

/-- The fields of the words the block shows: STATUS, CTRL and CAPS; ID is a constant and CMD reads 0
(10_state.md rules R22-R26). -/
def Obligations.RegisterWordLayouts : Prop :=
  (∀ t : Status,
    (statusWord t).getLsbD 0 = t.busy ∧ (statusWord t).getLsbD 1 = t.done ∧ (statusWord t).getLsbD 2 = t.err ∧
    (statusWord t).getLsbD 3 = t.overrun ∧ (statusWord t).extractLsb' 4 4 = 0#4 ∧
    (statusWord t).extractLsb' 8 8 = t.errCode ∧ (statusWord t).extractLsb' 16 8 = t.errDetail ∧
    (statusWord t).extractLsb' 24 4 = t.bps ∧ (statusWord t).extractLsb' 28 4 = 0#4 ∧
    (statusWord t).extractLsb' 32 32 = t.samples) ∧
  ∀ s : State,
    readReg .id s = 0x000000074B43494B#64 ∧ readReg .cmd s = 0#64 ∧
    (readReg .caps s).extractLsb' 0 32 = s.caps.maxSamples ∧
    (readReg .caps s).extractLsb' 32 16 = s.caps.maxOsc ∧ (readReg .caps s).extractLsb' 48 16 = 0#16 ∧
    (readReg .ctrl s).getLsbD 0 = s.params.smooth ∧ (readReg .ctrl s).getLsbD 1 = s.irqEn ∧
    (readReg .ctrl s).extractLsb' 2 62 = 0#62 ∧ readReg .status s = statusWord s.status

/-- The interrupt output is the level IRQ_EN AND (DONE OR ERR), a function of those three bits and of nothing else, and 0
after reset (10_state.md rule R47). -/
def Obligations.IrqIsALevel : Prop :=
  (∀ s : State, irq s = true ↔ s.irqEn = true ∧ (s.status.done = true ∨ s.status.err = true)) ∧
  irq State.reset = false ∧ ∀ s : State, irq (resetBlock s) = false

/-! ### Validation -/

/-- Validation runs the INVALID_PARAMS, then the DOMAIN, then the CAPACITY checks, each in order, and reports the first
that fails with its class and number; it is Ok exactly when all hold (41_render.md rules R144, R145). What each numbered
check says is written out in `InvalidCheck`, `DomainCheck` and `CapacityCheck` (60_exceptions.md rules R301-R303), under
the NUMERICS of the block. -/
def Obligations.ValidationReportsTheFirstFailure : Prop :=
  ∀ (c : Caps) (p : Params),
    let nx := (numericsOf c).ops
    (validate c p = none ↔
      (∀ n, InvalidCheck nx p n) ∧ (∀ n, DomainCheck nx c p n) ∧ ∀ n, CapacityCheck nx c p n) ∧
    (∀ n, FirstFails (InvalidCheck nx p) n → validate c p = some (.invalidParams, BitVec.ofNat 8 n)) ∧
    (∀ n, (∀ m, InvalidCheck nx p m) → FirstFails (DomainCheck nx c p) n →
      validate c p = some (.domain, BitVec.ofNat 8 n)) ∧
    (∀ n, (∀ m, InvalidCheck nx p m) → (∀ m, DomainCheck nx c p m) → FirstFails (CapacityCheck nx c p) n →
      validate c p = some (.capacity, BitVec.ofNat 8 n))

/-- A snapshot passes validation exactly when every condition of 60_exceptions.md rules R301, R302 and R303 holds of the
numbers its registers are read as, and it then has at most MAX_SAMPLES samples (41_render.md rule R146, 10_state.md rule
R34). -/
def Obligations.ValidSnapshotsFitTheBlock : Prop :=
  ∀ (c : Caps) (p : Params),
    let nx := (numericsOf c).ops
    let r := fun reg => nx.asF64 (getF64 reg p)
    let finite := fun x => nx.isFinite x = true
    let positive := fun x => nx.lt (nx.ofNat 0) x = true
    let nonneg := fun x => nx.le (nx.ofNat 0) x = true
    let atMostOne := fun x => nx.le x (nx.ofNat 1) = true
    (validate c p = none ↔
      (1 ≤ p.sampleRate.toNat ∧ positive (r .duration) ∧ p.numOsc = p.levelCount ∧
        nx.lt (r .band0) (r .band1) = true ∧ nx.lt (r .band1) (r .band2) = true ∧
        (p.bitDepth = 16#32 ∨ p.bitDepth = 24#32)) ∧
      ((finite (r .startFreq) ∧ positive (r .startFreq)) ∧ (finite (r .endFreq) ∧ positive (r .endFreq)) ∧
        finite (r .duration) ∧ (finite (r .attack) ∧ nonneg (r .attack)) ∧
        (finite (r .decay) ∧ nonneg (r .decay)) ∧ (nonneg (r .sustain) ∧ atMostOne (r .sustain)) ∧
        (finite (r .release) ∧ nonneg (r .release)) ∧ (nonneg (r .drive) ∧ atMostOne (r .drive)) ∧
        (finite (r .filterCutoff) ∧ positive (r .filterCutoff)) ∧
        (nonneg (r .filterResonance) ∧ atMostOne (r .filterResonance)) ∧
        (finite (r .sweep) ∧ nonneg (r .sweep)) ∧ (finite (r .pitchDecay) ∧ positive (r .pitchDecay)) ∧
        p.waveform.toNat ≤ 6 ∧ p.noiseType.toNat ≤ 3 ∧ (nonneg (r .noiseAmount) ∧ atMostOne (r .noiseAmount)) ∧
        1 ≤ p.numOsc.toNat ∧
        (∀ k, k < p.numOsc.toNat → k < c.maxOsc.toNat → finite (nx.asF64 (getLevel k p))) ∧
        (finite (r .saturatorAmount) ∧ nonneg (r .saturatorAmount)) ∧
        (finite (r .fadeDuration) ∧ nonneg (r .fadeDuration))) ∧
      (p.numOsc.toNat ≤ c.maxOsc.toNat ∧
        nx.le (nx.floor (nx.mul (nx.ofNat p.sampleRate.toNat) (r .duration))) (nx.ofNat c.maxSamples.toNat) =
          true)) ∧
    (validate c p = none → sampleCount nx p ≤ c.maxSamples.toNat)

/-- A NaN in any named real register, read by the NUMERICS of the block, fails validation, so no snapshot with a NaN there
is ever rendered (60_exceptions.md rules R301, R302). -/
def Obligations.NanParametersAreNeverRendered : Prop :=
  ∀ (c : Caps) (p : Params) (r : F64Reg),
    (numericsOf c).ops.standsFor ((numericsOf c).ops.asF64 (getF64 r p)) .nan → validate c p ≠ none

/-- RENDER right after reset, at the default parameters MAX_SAMPLES = 2^20 and MAX_OSC = 16 that State.reset carries (log 1),
is accepted and renders 96000 samples at 2 bytes each (70_reset_and_hazards.md rule R343). -/
def Obligations.ResetRendersTheDefaultRecord : Prop :=
  ∃ t, exec .render State.reset = .next t ∧ statusWord t.status = 0x0001770002000001#64

/-! ### Arithmetic -/

/-- A comparison with a NaN operand is false; on finite values the comparisons are those of the exact values; and an
infinity lies beyond every value that is no NaN on its side, and equals itself (00_scope.md rule R8). -/
def Obligations.ComparisonsAreExact : Prop :=
  (∀ x y : Num64, numIsNaN x = true →
    numLt x y = false ∧ numLt y x = false ∧ numLe x y = false ∧ numLe y x = false ∧ numEq x y = false ∧
    numEq y x = false) ∧
  (∀ x y : Num64, numIsFinite x = true → numIsFinite y = true →
    (numLt x y = true ↔ numScaled x < numScaled y) ∧ (numLe x y = true ↔ numScaled x ≤ numScaled y) ∧
    (numEq x y = true ↔ numScaled x = numScaled y)) ∧
  (∀ y : Num64, numIsNaN y = false →
    numLe y (numInf false) = true ∧ numLt (numInf false) y = false ∧
    numLe (numInf true) y = true ∧ numLt y (numInf true) = false ∧
    (numLt y (numInf false) = true ↔ y ≠ numInf false) ∧ (numLe (numInf false) y = true ↔ y = numInf false) ∧
    (numLt (numInf true) y = true ↔ y ≠ numInf true) ∧ (numLe y (numInf true) = true ↔ y = numInf true) ∧
    (numEq y (numInf false) = true ↔ y = numInf false) ∧ (numEq (numInf false) y = true ↔ y = numInf false) ∧
    (numEq y (numInf true) = true ↔ y = numInf true) ∧ (numEq (numInf true) y = true ↔ y = numInf true)) ∧
  ∀ x : Num64, (numIsInf x = true ↔ x = numInf false ∨ x = numInf true)

/-- Each arithmetic operation on finite operands rounds its exact result once, to nearest, ties to even: the sum, the
difference, the product and the quotient are `numRound` of the exact value (in the unit 2^-1074); no finite value is
nearer to the exact magnitude n / d than the rounded one; where another is as near, the rounded one has an even fraction;
and a magnitude of at least (2^53 - 1/2) * 2^971 rounds to infinity (00_scope.md rules R7, R9; IEEE 754, log 3). -/
def Obligations.RoundingIsToNearest : Prop :=
  (∀ x y : Num64, numIsFinite x = true → numIsFinite y = true →
    (numScaled x + numScaled y ≠ 0 → numAdd x y =
      numRound (decide (numScaled x + numScaled y < 0)) (numScaled x + numScaled y).natAbs 1) ∧
    (numScaled x + numScaled y = 0 → numIsZero (numAdd x y) = true) ∧
    (numScaled x - numScaled y ≠ 0 → numSub x y =
      numRound (decide (numScaled x - numScaled y < 0)) (numScaled x - numScaled y).natAbs 1) ∧
    (numScaled x - numScaled y = 0 → numIsZero (numSub x y) = true) ∧
    numMul x y = numRound (numSign x != numSign y) (numMag x * numMag y) unitOne ∧
    (numIsZero y = false → numDiv x y =
      numRound (numSign x != numSign y) (unitOne * numMag x) (numMag y))) ∧
  (∀ (n d : Nat) (neg : Bool) (y : Num64), 0 < d → numIsFinite (numRound neg n d) = true → numIsFinite y = true →
    numSign (numRound neg n d) = neg ∧
    roundingError n d (numMag (numRound neg n d)) ≤ roundingError n d (numMag y) ∧
    (numMag y ≠ numMag (numRound neg n d) →
      roundingError n d (numMag (numRound neg n d)) = roundingError n d (numMag y) →
      numFraction (numRound neg n d) % 2 = 0)) ∧
  ∀ (n d : Nat) (neg : Bool), 0 < d →
    (numIsFinite (numRound neg n d) = false ↔ overflowMag * d ≤ n) ∧
    (numIsFinite (numRound neg n d) = false → numRound neg n d = numInf neg)

/-- FLOOR, TRUNC, ABS, negation, SIGN, MIN and MAX are exact: of a finite value, the largest integer not above it, the
integer part toward zero with the operand's sign where it is not zero, the magnitude and the negative, in the unit
2^-1074; FLOOR and TRUNC of an infinity or a NaN return their operand, ABS and negation of one change at most its sign;
SIGN is 1, -1 or 0, and NaN of NaN; MIN and MAX of two values that are no NaN are one of them, and bound both
(00_scope.md rules R7, R8, R9, R12). -/
def Obligations.FloorAndTruncAreExact : Prop :=
  (∀ x : Num64, numIsFinite x = true →
    numScaled (numFloor x) = (unitOne : Int) * (numScaled x / (unitOne : Int)) ∧
    numMag (numTrunc x) = unitOne * (numMag x / unitOne) ∧
    (numIsZero (numTrunc x) = false → numSign (numTrunc x) = numSign x) ∧
    numIsFinite (numFloor x) = true ∧ numIsFinite (numTrunc x) = true ∧
    numIsFinite (numNeg x) = true ∧ numScaled (numNeg x) = -numScaled x ∧
    numIsFinite (numAbs x) = true ∧ numScaled (numAbs x) = |numScaled x| ∧
    (0 < numScaled x → numSignum x = numOne) ∧ (numScaled x < 0 → numSignum x = numNeg numOne) ∧
    (numScaled x = 0 → numSignum x = numZero false)) ∧
  (∀ x : Num64, numIsFinite x = false → numFloor x = x ∧ numTrunc x = x) ∧
  (∀ b : Bool, numNeg (numInf b) = numInf !b ∧ numAbs (numInf b) = numInf false ∧
    numSignum (numInf b) = if b then numNeg numOne else numOne) ∧
  (∀ x : Num64, numIsNaN x = true →
    numIsNaN (numNeg x) = true ∧ numIsNaN (numAbs x) = true ∧ numIsNaN (numSignum x) = true) ∧
  ∀ x y : Num64, numIsNaN x = false → numIsNaN y = false →
    (numMin x y = x ∨ numMin x y = y) ∧ numLe (numMin x y) x = true ∧ numLe (numMin x y) y = true ∧
    (numMax x y = x ∨ numMax x y = y) ∧ numLe x (numMax x y) = true ∧ numLe y (numMax x y) = true

/-- The NUMERICS of every block, the default or another (log 19): each value of its domain stands for one thing, NaN, an
infinity or a real number; comparisons and the exact operations are those of the numbers its values stand for, and its
constants the nearest values (`ExactLaws`); its transcendental functions have the properties rule R10 names
(`TranscendentalLaws`); and every draw lies in [-1, 1] (00_scope.md rules R3, R7, R8, R10-R12; 30_encoding.md rule R96;
42_oscillators.md rule R170). By default it is binary64, which reads a real register as the pattern it holds, and its
operations are those the statements on arithmetic speak of (00_scope.md rules R5, R9; 10_state.md rule R34). That FLOOR and
TRUNC of an infinity or a NaN are their operand, and that a count that is not finite is 0, is the model's choice for a
NUMERICS other than the default (log 21). -/
def Obligations.OpenOperationsHaveTheirProperties : Prop :=
  (∀ c : Caps,
    let nx := (numericsOf c).ops
    ExactLaws nx ∧ TranscendentalLaws nx ∧
    ∀ st : Nat,
      nx.le (nx.neg (nx.ofNat 1)) (nx.rngNext st).2 = true ∧ nx.le (nx.rngNext st).2 (nx.ofNat 1) = true) ∧
  (∀ c : Caps, c.numerics = .binary64 → numericsOf c = ⟨Num64, numerics⟩) ∧
  (∀ v : Word, numerics.asF64 v = v) ∧
  (∀ x y : Num64,
    numerics.add x y = numAdd x y ∧ numerics.sub x y = numSub x y ∧ numerics.mul x y = numMul x y ∧
    numerics.div x y = numDiv x y ∧ numerics.min x y = numMin x y ∧ numerics.max x y = numMax x y ∧
    numerics.lt x y = numLt x y ∧ numerics.le x y = numLe x y ∧ numerics.eq x y = numEq x y ∧
    numerics.neg x = numNeg x ∧ numerics.abs x = numAbs x ∧ numerics.floor x = numFloor x ∧
    numerics.trunc x = numTrunc x ∧ numerics.sign x = numSignum x ∧ numerics.isFinite x = numIsFinite x ∧
    (numerics.standsFor x .nan ↔ numIsNaN x = true) ∧
    (∀ b, numerics.standsFor x (.inf b) ↔ numIsInf x = true ∧ numSign x = b) ∧
    ∀ a : ℝ, numerics.standsFor x (.finite a) ↔ numIsFinite x = true ∧ a = numScaled x / unitOne) ∧
  unitOne = 2 ^ 1074

/-! ### The render -/

/-- What each WAVEFORM code makes a render compute for one oscillator, and that only the noise codes touch the PRNG and
the accumulators (42_oscillators.md rules R171-R173, R180-R187). -/
def Obligations.WaveformCodeSelectsTheOscillator : Prop :=
  ∀ (Num : Type) (nx : Numerics Num) (f t : Num) (i : Nat) (d : Dsp Num),
    let phase := nx.mul (nx.mul nx.twoPi f) t
    let p := nx.mul t f
    let half := nx.tenths 5
    let rng := (nx.rngNext d.rng).1
    let u := (nx.rngNext d.rng).2
    let pink := nx.add d.accPink u
    let brown := nx.min (nx.max (nx.add d.accBrown (nx.mul (nx.tenths 1) u)) (nx.neg (nx.ofNat 1))) (nx.ofNat 1)
    osc nx 0#32 f t i d = (nx.sin phase, d) ∧
    osc nx 1#32 f t i d =
      (nx.sub (nx.mul (nx.ofNat 2) (nx.abs (nx.mul (nx.ofNat 2) (nx.sub p (nx.floor (nx.add p half))))))
        (nx.ofNat 1), d) ∧
    osc nx 2#32 f t i d = (nx.mul (nx.ofNat 2) (nx.sub p (nx.floor (nx.add half p))), d) ∧
    osc nx 3#32 f t i d = (nx.sign (nx.sin phase), d) ∧
    osc nx 4#32 f t i d = (u, { d with rng := rng }) ∧
    osc nx 5#32 f t i d = (nx.div pink (nx.ofNat (i + 1)), { d with rng := rng, accPink := pink }) ∧
    osc nx 6#32 f t i d = (brown, { d with rng := rng, accBrown := brown })

/-- Under the NUMERICS of every block a brown value lies in [-1, 1], and becomes the accumulator, unless the sum it is
clamped from is NaN. Under the default, and any whose arithmetic rounds, that sum is no NaN when the accumulator lies in
[-1, 1]; and pink noise is no larger than the draws it has taken: within [-m, m] before a draw, the accumulator and the value
lie within [-(m+1), m+1] after it, and the value within [-1, 1] where no more than i + 1 draws were taken at index i
(42_oscillators.md rules R172, R173; that R8 leaves them free under another arithmetic is log 21). -/
def Obligations.NoiseStaysInRange : Prop :=
  ∀ c : Caps,
    let nx := (numericsOf c).ops
    let brownSum := fun d : Dsp (numericsOf c).Num => nx.add d.accBrown (nx.mul (nx.tenths 1) (nx.rngNext d.rng).2)
    (∀ d, ¬ nx.standsFor (brownSum d) .nan →
      Within nx 1 (noiseBrown nx d).1 ∧ (noiseBrown nx d).2.accBrown = (noiseBrown nx d).1) ∧
    (c.numerics = .binary64 ∨ ArithmeticRounds nx →
      (∀ d, Within nx 1 d.accBrown → ¬ nx.standsFor (brownSum d) .nan) ∧
      ∀ (d : Dsp (numericsOf c).Num) (m i : Nat), m + 1 < 2 ^ 32 → i + 1 < 2 ^ 32 → Within nx m d.accPink →
        Within nx (m + 1) (noisePink nx i d).1 ∧ Within nx (m + 1) (noisePink nx i d).2.accPink ∧
        (m ≤ i → Within nx 1 (noisePink nx i d).1))

/-- What each NOISE_TYPE code mixes in: CLAMP(TRUNC(q + ((n * a) * NSCALE)), -32767, 32767) with n the white, the pink or
the brown noise and NSCALE = 2^(bd-1), and what the draw leaves of the PRNG and the accumulators; with code 0 the stage
does not run (45_post_chain.md rule R244, 41_render.md rules R142, R148, 42_oscillators.md rules R171-R173). -/
def Obligations.NoiseTypeSelectsTheSource : Prop :=
  ∀ (Num : Type) (nx : Numerics Num) (p : Params) (q : Num) (i : Nat) (d : Dsp Num),
    let u := (nx.rngNext d.rng).2
    let nscale := nx.ofNat (2 ^ (p.bitDepth.toNat - 1))
    let pink := nx.add d.accPink u
    let brown := nx.min (nx.max (nx.add d.accBrown (nx.mul (nx.tenths 1) u)) (nx.neg (nx.ofNat 1))) (nx.ofNat 1)
    let mixed := fun n =>
      nx.min (nx.max (nx.trunc (nx.add q (nx.mul (nx.mul n (nx.asF64 p.noiseAmount)) nscale)))
        (nx.neg (nx.ofNat 32767))) (nx.ofNat 32767)
    (p.noiseType = 1#32 → noiseMix nx p q i d = (mixed u, { d with rng := (nx.rngNext d.rng).1 })) ∧
    (p.noiseType = 2#32 → noiseMix nx p q i d =
      (mixed (nx.div pink (nx.ofNat (i + 1))), { d with rng := (nx.rngNext d.rng).1, accPink := pink })) ∧
    (p.noiseType = 3#32 → noiseMix nx p q i d =
      (mixed brown, { d with rng := (nx.rngNext d.rng).1, accBrown := brown })) ∧
    (p.noiseType = 0#32 → ∀ (n : Nat) (w : List Num) (d' : Dsp Num), postChain nx p n w d = postChain nx p n w d')

/-- A mixed sample is CLAMP(TRUNC(q + ((n * a) * NSCALE)), -32767, 32767), where CLAMP(x, lo, hi) is
MIN(MAX(x, lo), hi); and under the NUMERICS of every block it is an integer in [-32767, 32767] at both bit depths unless
the sum is NaN (45_post_chain.md rule R244, 00_scope.md rules R7, R8). -/
def Obligations.NoiseMixIsClamped : Prop :=
  (∀ (Num : Type) (nx : Numerics Num) (q n a scale : Num),
    mixNoise nx q n a scale =
      nx.min (nx.max (nx.trunc (nx.add q (nx.mul (nx.mul n a) scale))) (nx.neg (nx.ofNat 32767))) (nx.ofNat 32767)) ∧
  ∀ c : Caps,
    let nx := (numericsOf c).ops
    ∀ q n a scale : (numericsOf c).Num, ¬ nx.standsFor (nx.add q (nx.mul (nx.mul n a) scale)) .nan →
      IntegerWithin nx 32767 (mixNoise nx q n a scale)

/-- BIT_DEPTH selects the quantizer scale 2^bd - 1, the noise scale 2^(bd-1) and the bytes per sample, under the NUMERICS
of every block (30_encoding.md rule R99, 41_render.md rule R142). -/
def Obligations.BitDepthSelectsTheScales : Prop :=
  ∀ (c : Caps) (p : Params),
    let nx := (numericsOf c).ops
    (p.bitDepth = 16#32 →
      nx.standsFor (quantScale nx p) (.finite 65535) ∧ nx.standsFor (noiseScale nx p) (.finite 32768) ∧
      ∀ s, (accept p s).status.bps = 2#4) ∧
    (p.bitDepth = 24#32 →
      nx.standsFor (quantScale nx p) (.finite 16777215) ∧ nx.standsFor (noiseScale nx p) (.finite 8388608) ∧
      ∀ s, (accept p s).status.bps = 3#4)

/-- The pitch law: SMOOTH = 1 gives (s * POW(end/s, (t/D) * sweep)) * (1 + 0.1 * EXP(-3t)); SMOOTH = 0 gives START_FREQ
below D/2 and END_FREQ from there on (43_pitch_envelope.md rules R200-R202). That the pitch is positive, which R202 infers, is
no part of it (log 22). -/
def Obligations.PitchFollowsItsLaw : Prop :=
  ∀ (Num : Type) (nx : Numerics Num) (p : Params) (t : Num),
    let start := nx.asF64 p.startFreq
    let finish := nx.asF64 p.endFreq
    let duration := nx.asF64 p.duration
    (p.smooth = true → pitch nx p t =
      nx.mul (nx.mul start (nx.pow (nx.div finish start) (nx.mul (nx.div t duration) (nx.asF64 p.sweep))))
        (nx.add (nx.ofNat 1) (nx.mul (nx.tenths 1) (nx.exp (nx.mul (nx.neg (nx.ofNat 3)) t))))) ∧
    (p.smooth = false → nx.lt t (nx.div duration (nx.ofNat 2)) = true → pitch nx p t = start) ∧
    (p.smooth = false → nx.lt t (nx.div duration (nx.ofNat 2)) = false → pitch nx p t = finish)

/-- The envelope's branches, tested in order (43_pitch_envelope.md rule R203). -/
def Obligations.EnvelopeBranches : Prop :=
  ∀ (Num : Type) (nx : Numerics Num) (p : Params) (t : Num),
    let attack := nx.asF64 p.attack
    let decay := nx.asF64 p.decay
    let sustain := nx.asF64 p.sustain
    let release := nx.asF64 p.release
    let duration := nx.asF64 p.duration
    (nx.lt t attack = true → env nx p t = nx.div t attack) ∧
    (nx.lt t attack = false → nx.lt t (nx.add attack decay) = true →
      env nx p t =
        nx.sub (nx.ofNat 1) (nx.mul (nx.div (nx.sub t attack) decay) (nx.sub (nx.ofNat 1) sustain))) ∧
    (nx.lt t attack = false → nx.lt t (nx.add attack decay) = false →
      nx.lt t (nx.sub duration release) = true → env nx p t = sustain) ∧
    (nx.lt t attack = false → nx.lt t (nx.add attack decay) = false →
      nx.lt t (nx.sub duration release) = false → nx.lt t duration = true →
      env nx p t = nx.mul sustain (nx.sub (nx.ofNat 1) (nx.div (nx.sub t (nx.sub duration release)) release))) ∧
    (nx.lt t attack = false → nx.lt t (nx.add attack decay) = false →
      nx.lt t (nx.sub duration release) = false → nx.lt t duration = false → env nx p t = nx.ofNat 0)

/-- The soft clip: (x * (1 + d)) / (1 + (d * ABS(x))) for d > 0, and x otherwise; under the default NUMERICS it leaves
full scale where it is, for 1 and -1 are fixed for every legal drive (44_mix_quantize.md rule R220). -/
def Obligations.DriveFixesFullScale : Prop :=
  (∀ (Num : Type) (nx : Numerics Num) (d x : Num),
    (nx.lt (nx.ofNat 0) d = true → drive nx d x =
      nx.div (nx.mul x (nx.add (nx.ofNat 1) d)) (nx.add (nx.ofNat 1) (nx.mul d (nx.abs x)))) ∧
    (nx.lt (nx.ofNat 0) d = false → drive nx d x = x)) ∧
  ∀ d : Num64, inUnit numerics d = true →
    drive numerics d numOne = numOne ∧ drive numerics d (numNeg numOne) = numNeg numOne

/-- The quantizer: NONFINITE exactly when total * QSCALE is not finite, else its FLOOR, which under the NUMERICS of every
block is the largest integer not above it (44_mix_quantize.md rule R227, 00_scope.md rule R8). -/
def Obligations.QuantizerFloorsOrFails : Prop :=
  (∀ (Num : Type) (nx : Numerics Num) (total qscale : Num),
    (nx.isFinite (nx.mul total qscale) = false → quantize nx total qscale = none) ∧
    (nx.isFinite (nx.mul total qscale) = true →
      quantize nx total qscale = some (nx.floor (nx.mul total qscale)))) ∧
  ∀ c : Caps,
    let nx := (numericsOf c).ops
    ∀ (total qscale : (numericsOf c).Num) (a : ℝ), nx.standsFor (nx.mul total qscale) (.finite a) →
      ∃ q, quantize nx total qscale = some q ∧ nx.standsFor q (.finite ⌊a⌋)

/-- The saturator is TRUNC(TANH((q / 32768) * (1 + s)) * 32768); under the NUMERICS of every block, of an integer q and a
legal s its result is an integer in [-32768, 32768], and it is odd where product and quotient change sign with their first
operand; under the default it is in that range and odd for any finite q (45_post_chain.md rule R240, 10_state.md rule R43;
that a NUMERICS other than the default has the range is log 20, and that it need not be odd is log 21). -/
def Obligations.SaturatorIsBoundedAndOdd : Prop :=
  (∀ (Num : Type) (nx : Numerics Num) (q s : Num), saturate nx q s =
    nx.trunc (nx.mul (nx.tanh (nx.mul (nx.div q (nx.ofNat 32768)) (nx.add (nx.ofNat 1) s))) (nx.ofNat 32768))) ∧
  (∀ c : Caps,
    let nx := (numericsOf c).ops
    ∀ (q s : (numericsOf c).Num) (z : Int), nx.standsFor q (.finite z) → nx.isFinite s = true →
      nx.le (nx.ofNat 0) s = true →
      ∃ y : Int, nx.standsFor (saturate nx q s) (.finite y) ∧ -32768 ≤ y ∧ y ≤ 32768 ∧
        (c.numerics = .binary64 ∨ SignsFollow nx → nx.standsFor (saturate nx (nx.neg q) s) (.finite (-y)))) ∧
  ∀ q a : Num64, numIsFinite q = true → finiteNonneg numerics a = true →
    -32768 ≤ numToInt (saturate numerics q a) ∧ numToInt (saturate numerics q a) ≤ 32768 ∧
    numIsFinite (saturate numerics q a) = true ∧
    numToInt (saturate numerics (numNeg q) a) = -numToInt (saturate numerics q a)

/-- The pseudo-band gain is chosen by the first band edge above the proxy frequency 440 * POW(2, t); under the default, and
any NUMERICS of a block whose arithmetic rounds, it gives an integer of no larger magnitude; and under the default it keeps
any value in [-32768, 32768] within [-29491, 29491] (45_post_chain.md rules R242, R243; that R8 leaves both free under another
arithmetic is log 21). -/
def Obligations.BandGainAttenuates : Prop :=
  (∀ (Num : Type) (nx : Numerics Num) (p : Params) (q t : Num),
    let proxy := nx.mul (nx.ofNat 440) (nx.pow (nx.ofNat 2) t)
    let band0 := nx.asF64 p.band0
    let band1 := nx.asF64 p.band1
    let band2 := nx.asF64 p.band2
    (nx.lt proxy band0 = true → bandGain nx p q t = nx.trunc (nx.mul q (nx.tenths 9))) ∧
    (nx.lt proxy band0 = false → nx.lt proxy band1 = true →
      bandGain nx p q t = nx.trunc (nx.mul q (nx.tenths 8))) ∧
    (nx.lt proxy band0 = false → nx.lt proxy band1 = false → nx.lt proxy band2 = true →
      bandGain nx p q t = nx.trunc (nx.mul q (nx.tenths 7))) ∧
    (nx.lt proxy band0 = false → nx.lt proxy band1 = false → nx.lt proxy band2 = false →
      bandGain nx p q t = nx.trunc (nx.mul q (nx.tenths 6)))) ∧
  (∀ c : Caps,
    let nx := (numericsOf c).ops
    c.numerics = .binary64 ∨ ArithmeticRounds nx →
    ∀ (p : Params) (q t : (numericsOf c).Num) (z : Int), nx.standsFor q (.finite z) →
      ∃ y : Int, nx.standsFor (bandGain nx p q t) (.finite y) ∧ |y| ≤ |z|) ∧
  ∀ (p : Params) (q t : Num64),
    numLe (numNeg (numOfNat 32768)) q = true → numLe q (numOfNat 32768) = true →
    -29491 ≤ numToInt (bandGain numerics p q t) ∧ numToInt (bandGain numerics p q t) ≤ 29491

/-- The fade: its length is FLOOR(MIN(fd * sr, N / 2)); the gains are j / k below k and (N - 1 - j) / k from N - k on, and
the samples between are untouched; the stage runs exactly when FADE_DURATION > 0. Under the default, and any NUMERICS of a
block whose arithmetic rounds and that holds N / 2, the length is at most half the buffer; where it rounds, no magnitude of
an integer sample grows, and the first and the last sample become 0 when the length is at least 1; under the default so do
any finite ones (45_post_chain.md rules R246, R247; that R8 leaves these free under another arithmetic is log 21). -/
def Obligations.FadeEndsAtZero : Prop :=
  (∀ (Num : Type) (nx : Numerics Num) (p : Params) (n : Nat), fadeLength nx p n =
    (nx.toInt (nx.floor (nx.min (nx.mul (nx.asF64 p.fadeDuration) (nx.ofNat p.sampleRate.toNat))
      (nx.div (nx.ofNat n) (nx.ofNat 2))))).toNat) ∧
  (∀ (Num : Type) (nx : Numerics Num) (n k j : Nat) (w : Num), k ≤ n / 2 → j < n →
    fadeSample nx n k j w =
      if j < k then nx.trunc (nx.mul w (nx.div (nx.ofNat j) (nx.ofNat k)))
      else if n - k ≤ j then nx.trunc (nx.mul w (nx.div (nx.ofNat (n - 1 - j)) (nx.ofNat k)))
      else w) ∧
  (∀ (Num : Type) (nx : Numerics Num) (p p0 : Params) (n j : Nat) (w : List Num) (d : Dsp Num),
    (∃ v, p0 = { p with fadeDuration := v } ∧ nx.lt (nx.ofNat 0) (nx.asF64 v) = false) →
    (nx.lt (nx.ofNat 0) (nx.asF64 p.fadeDuration) = true →
      (postChain nx p n w d)[j]? = (postChain nx p0 n w d)[j]?.map (fadeSample nx n (fadeLength nx p n) j)) ∧
    (nx.lt (nx.ofNat 0) (nx.asF64 p.fadeDuration) = false → postChain nx p n w d = postChain nx p0 n w d)) ∧
  (∀ (c : Caps) (p : Params), LegalCaps c → validate c p = none →
    let nx := (numericsOf c).ops
    let n := sampleCount nx p
    c.numerics = .binary64 ∨ (ArithmeticRounds nx ∧ ∃ h, nx.standsFor h (.finite (n / 2))) →
    fadeLength nx p n ≤ n / 2) ∧
  (∀ c : Caps,
    let nx := (numericsOf c).ops
    c.numerics = .binary64 ∨ ArithmeticRounds nx →
    ∀ (n k j : Nat) (w : (numericsOf c).Num) (z : Int), k ≤ n / 2 → n ≤ 2 ^ 20 → j < n → nx.standsFor w (.finite z) →
      ∃ y : Int, nx.standsFor (fadeSample nx n k j w) (.finite y) ∧ |y| ≤ |z| ∧
        (1 ≤ k → j = 0 ∨ j = n - 1 → y = 0)) ∧
  ∀ (n k : Nat) (w : Num64), 1 ≤ k → k ≤ n / 2 → n ≤ 2 ^ 20 → numIsFinite w = true →
    numIsZero (fadeSample numerics n k 0 w) = true ∧ numIsZero (fadeSample numerics n k (n - 1) w) = true

/-- A render is the words of its working buffer: S[i] is the two's complement word of W[i], for each of exactly
N = FLOOR(sr * D) samples; and at the end of the render of a valid snapshot every W[i] is an integer in [-32767, 32767],
without noise in [-29491, 29491], at both bit depths, under the NUMERICS of every block (41_render.md rules R146, R160,
10_state.md rules R43, R44, R46, 45_post_chain.md rule R248; that a NUMERICS other than the default keeps within them is
log 20). -/
def Obligations.RenderWritesBackItsBuffer : Prop :=
  (∀ (Num : Type) (nx : Numerics Num) (p : Params),
    render nx p = (renderBuffer nx p).map fun w => w.map fun x => BitVec.ofInt 32 (nx.toInt x)) ∧
  (∀ (Num : Type) (nx : Numerics Num) (p : Params) (ws : List (BitVec 32)), render nx p = some ws →
    ws.length = (nx.toInt (nx.floor (nx.mul (nx.ofNat p.sampleRate.toNat) (nx.asF64 p.duration)))).toNat) ∧
  ∀ (c : Caps) (p : Params) (w : List (numericsOf c).Num), LegalCaps c → validate c p = none →
    renderBuffer (numericsOf c).ops p = some w →
    ∀ x ∈ w, ∃ z : Int, (numericsOf c).ops.standsFor x (.finite z) ∧ (numericsOf c).ops.toInt x = z ∧
      -32767 ≤ z ∧ z ≤ 32767 ∧ (p.noiseType = 0#32 → -29491 ≤ z ∧ z ≤ 29491)

/-- The registers the render does not read never change a sample, as the spec itself infers from the render function
(41_render.md rules R147, R148, 10_state.md rule R36). -/
def Obligations.UnreadRegistersNeverMatter : Prop :=
  ∀ (Num : Type) (nx : Numerics Num) (p q : Params), AgreeOnWhatIsRead p q → render nx p = render nx q

/-- Without noise the staged render equals a render of each sample by itself: the stages may be fused, and no sample
depends on another. The mix of a sample is written out: t = i / sr, one frequency and one envelope value, and the K
levels summed left to right from 0 (41_render.md rules R141, R148, R152, 44_mix_quantize.md rules R222-R224). -/
def Obligations.StagesFusePerSample : Prop :=
  ∀ (Num : Type) (nx : Numerics Num) (p : Params), p.waveform.toNat ≤ 3 → p.noiseType = 0#32 →
    renderBuffer nx p = (List.range (sampleCount nx p)).mapM fun i =>
      let t := nx.div (nx.ofNat i) (nx.ofNat p.sampleRate.toNat)
      let x := (osc nx p.waveform (pitch nx p t) t i (dspStart nx p)).1
      let total := (List.range p.numOsc.toNat).foldl (fun total k =>
        nx.add total (nx.mul (nx.mul (drive nx (nx.asF64 p.drive) x) (env nx p t)) (nx.asF64 (getLevel k p))))
        (nx.ofNat 0)
      (quantize nx total (quantScale nx p)).map fun q =>
        let w := bandGain nx p (saturate nx q (nx.asF64 p.saturatorAmount)) t
        if nx.lt (nx.ofNat 0) (nx.asF64 p.fadeDuration) then
          fadeSample nx (sampleCount nx p) (fadeLength nx p (sampleCount nx p)) i w
        else w

/-- The noise of a render, in its order. The pipeline starts from `rng_init(SEED)` with both accumulators 0; the OSC stage
computes its samples for i = 0 .. n - 1 and within each i for k = 0 .. K - 1, every call of `osc` taking the PRNG and the
accumulators as the call before left them, and is NONFINITE exactly if one of its quantizer inputs is; that is n * K
draws with a noise waveform and none with any other; the NOISE stage starts from what the OSC stage left, takes one noise
value per sample for i = 0, 1, ..., again each from where the one before left off (which does not depend on the samples
mixed); and the stages between draw nothing
(41_render.md rules R143, R148, R149; 42_oscillators.md rule R174; 44_mix_quantize.md rules R222-R227). -/
def Obligations.NoiseFollowsItsOrder : Prop :=
  ∀ (Num : Type) (nx : Numerics Num) (p : Params),
    let time := fun i : Nat => nx.div (nx.ofNat i) (nx.ofNat p.sampleRate.toNat)
    let sample := fun (i : Nat) (d : Dsp Num) =>
      (List.range p.numOsc.toNat).foldl (fun (a : Num × Dsp Num) k =>
        let r := osc nx p.waveform (pitch nx p (time i)) (time i) i a.2
        (nx.add a.1 (nx.mul (nx.mul (drive nx (nx.asF64 p.drive) r.1) (env nx p (time i)))
          (nx.asF64 (getLevel k p))), r.2)) (nx.ofNat 0, d)
    let oscState := fun i : Nat => (List.range i).foldl (fun d j => (sample j d).2) (dspStart nx p)
    let noiseState := fun (i : Nat) (d : Dsp Num) =>
      (List.range i).foldl (fun d j => (noiseMix nx p (nx.ofNat 0) j d).2) d
    dspStart nx p = ⟨nx.rngInit p.seed, nx.ofNat 0, nx.ofNat 0⟩ ∧
    (∀ (n : Nat) (ws : List Num) (d : Dsp Num), oscStage nx p n 0 (dspStart nx p) = some (ws, d) →
      d = oscState n ∧ ws.length = n ∧
      ∀ i, i < n → ws[i]? = quantize nx (sample i (oscState i)).1 (quantScale nx p)) ∧
    (∀ n : Nat, oscStage nx p n 0 (dspStart nx p) = none ↔
      ∃ i, i < n ∧ quantize nx (sample i (oscState i)).1 (quantScale nx p) = none) ∧
    (∀ n : Nat, (oscState n).rng = (fun st => (nx.rngNext st).1)^[
      if 4 ≤ p.waveform.toNat ∧ p.waveform.toNat ≤ 6 then n * p.numOsc.toNat else 0] (nx.rngInit p.seed)) ∧
    (∀ (n i : Nat) (w : List Num) (q : Num) (d : Dsp Num),
      nx.lt (nx.ofNat 0) (nx.asF64 p.fadeDuration) = false → w[i]? = some q →
      (postChain nx p n w d)[i]? =
        let q := bandGain nx p (saturate nx q (nx.asF64 p.saturatorAmount)) (time i)
        if p.noiseType = 0#32 then some q else some (noiseMix nx p q i (noiseState i d)).1) ∧
    (∀ (i : Nat) (d : Dsp Num), 1 ≤ p.noiseType.toNat → p.noiseType.toNat ≤ 3 →
      (noiseState i d).rng = (fun st => (nx.rngNext st).1)^[i] d.rng) ∧
    renderBuffer nx p = (oscStage nx p (sampleCount nx p) 0 (dspStart nx p)).map
      fun r => postChain nx p (sampleCount nx p) r.1 r.2

/-! ### The engine -/

/-- Completion: the engine's update of a render that succeeds makes its words the sample memory and leaves every other
entry unspecified, clears BUSY, sets DONE, goes IDLE, and keeps the rest of STATUS and everything else
(41_render.md rule R160). -/
def Obligations.EngineCompletesTheRender : Prop :=
  ∀ (s : State) (p : Params) (ws : List (BitVec 32)), s.engine = .running p 0 →
    render (numericsOf s.caps).ops p = some ws →
    ∃ t, step s = .next t ∧ (∀ i, readSample t.mem i = ws[i]?) ∧
      t.status = { s.status with busy := false, done := true } ∧ t.engine = .idle ∧ t.params = s.params ∧
      t.irqEn = s.irqEn ∧ t.caps = s.caps ∧ t.inbox = s.inbox ∧ t.lastRead = s.lastRead

/-- The NONFINITE abort: BUSY and DONE 0, ERR 1 with code 4 and detail 0, BPS and SAMPLES 0, OVERRUN kept, every entry
unspecified, IDLE, and everything else as before (60_exceptions.md rule R306). -/
def Obligations.EngineAbortsOnNonfinite : Prop :=
  ∀ (s : State) (p : Params), s.engine = .running p 0 → render (numericsOf s.caps).ops p = none →
    ∃ t, step s = .next t ∧ (∀ i, readSample t.mem i = none) ∧
      t.status.busy = false ∧ t.status.done = false ∧ t.status.err = true ∧ t.status.overrun = s.status.overrun ∧
      t.status.errCode = 4#8 ∧ t.status.errDetail = 0#8 ∧ t.status.bps = 0#4 ∧ t.status.samples = 0#32 ∧
      t.engine = .idle ∧ t.params = s.params ∧ t.irqEn = s.irqEn ∧ t.caps = s.caps ∧ t.inbox = s.inbox ∧
      t.lastRead = s.lastRead

/-- A running render ends: each step either ends it or brings its update one host-visible step nearer, so it ends within
the latency it was given (70_reset_and_hazards.md rule R352). -/
def Obligations.RunningRenderEnds : Prop :=
  ∀ (s t : State) (p : Params) (left : Nat), Inv s → s.engine = .running p left → step s = .next t →
    t.engine = .idle ∨ ∃ left', left = left' + 1 ∧ t.engine = .running p left'

/-- The snapshot is isolated: while a render runs, no host access but a reset changes what it renders
(10_state.md rule R40, 20_memory.md rule R77). -/
def Obligations.RunningSnapshotIsIsolated : Prop :=
  ∀ (s t : State) (e : BusEvent), s.status.busy = true → performEvent e s = .next t →
    e ≠ .reset → e ≠ .write (encode .softReset) → t.engine = s.engine

/-- OVERRUN is sticky: only CLEAR_STATUS while idle, SOFT_RESET and the reset input clear it: a step that does performed
one of them, since no engine update was due and the access stood at the head of the port
(10_state.md rule R26, 40_commands.md rule R127). -/
def Obligations.OverrunIsSticky : Prop :=
  ∀ s t : State, step s = .next t → s.status.overrun = true →
    t.status.overrun = true ∨
    ∃ e rest, engineDue s = none ∧ s.inbox = e :: rest ∧
      performEvent e { (tickEngine s) with inbox := rest } = .next t ∧
      (e = .reset ∨ e = .write (encode .softReset) ∨ (e = .write (encode .clearStatus) ∧ s.status.busy = false))

/-- Only the host writes the parameter registers: a step that changes one performed a host write or a reset, since no
engine update was due and the access stood at the head of the port (10_state.md rule R37). -/
def Obligations.OnlyTheHostWritesRegisters : Prop :=
  ∀ s t : State, step s = .next t → (t.params ≠ s.params ∨ t.irqEn ≠ s.irqEn) →
    ∃ e rest, engineDue s = none ∧ s.inbox = e :: rest ∧
      performEvent e { (tickEngine s) with inbox := rest } = .next t ∧
      (e = .reset ∨ ∃ a, e = .write a ∧ regAdmitted a.off a.width = true)

/-! ### Invariants -/

/-- Every step keeps the invariant of the block: the capacities stay legal, BUSY stays 1 exactly while a render runs,
the snapshot of a running render stays a valid one, the memory keeps its canonical form, exactly the entries [0, SAMPLES)
are defined while DONE = 1, BPS is 2, 3 or 0, and the error record stays one of rule R300 (10_state.md rules R26, R44, R45,
40_commands.md rule R123, 60_exceptions.md rule R300). -/
def Obligations.StepKeepsTheInvariant : Prop :=
  ∀ s t : State, Inv s → step s = .next t → Inv t

/-- Every step keeps every defined sample within [-32767, 32767], whatever NUMERICS the block has (10_state.md rule R46;
that a NUMERICS other than the default keeps within it is log 20). -/
def Obligations.StepKeepsSamplesBounded : Prop :=
  ∀ s t : State, Inv s → SamplesBounded s → step s = .next t → SamplesBounded t

/-- The invariants hold right after reset. -/
def Obligations.ResetMeetsTheInvariants : Prop :=
  Inv State.reset ∧ SamplesBounded State.reset ∧ memWf State.reset.mem = true

/-! ### Special values -/

/-- NaN and infinity propagate through the arithmetic (00_scope.md rule R9; the cases are those of IEEE 754, log 3). -/
def Obligations.SpecialValuesPropagate : Prop :=
  (∀ x y : Num64, numIsNaN x = true ∨ numIsNaN y = true →
    numIsNaN (numAdd x y) = true ∧ numIsNaN (numSub x y) = true ∧ numIsNaN (numMul x y) = true ∧
    numIsNaN (numDiv x y) = true) ∧
  (∀ x y : Num64, numIsInf x = true → numIsFinite y = true →
    numAdd x y = x ∧ numAdd y x = x ∧ numSub x y = x ∧ numSub y x = numNeg x ∧
    numDiv x y = numInf (numSign x != numSign y) ∧ numIsZero (numDiv y x) = true) ∧
  (∀ x y : Num64, numIsInf x = true → numIsInf y = true →
    (numSign x = numSign y → numAdd x y = x ∧ numIsNaN (numSub x y) = true) ∧
    (numSign x ≠ numSign y → numIsNaN (numAdd x y) = true ∧ numSub x y = x) ∧
    numIsNaN (numDiv x y) = true) ∧
  (∀ x y : Num64, numIsInf x = true → numIsNaN y = false →
    (numIsZero y = true → numIsNaN (numMul x y) = true ∧ numIsNaN (numMul y x) = true) ∧
    (numIsZero y = false → numMul x y = numInf (numSign x != numSign y) ∧
      numMul y x = numInf (numSign x != numSign y))) ∧
  ∀ x y : Num64, numIsFinite x = true → numIsZero y = true →
    (numIsZero x = true → numIsNaN (numDiv x y) = true) ∧
    (numIsZero x = false → numDiv x y = numInf (numSign x != numSign y))
end

