-- ==== Sys2Proof/Laws/Float.lean ====
section
/-!
SUPPORT. The arithmetic of `Machine/Float.lean`: rounding is monotone and exact on representable magnitudes, and what
follows for the bounds of a result.
-/

namespace Sys2Proof.Laws

open Sys2Proof.Machine

/-- The magnitude, in the unit 2^-1074, of the pattern `p` below the sign bit. -/
def patMag (p : Nat) : Nat :=
  if p / 2 ^ 52 = 0 then p % 2 ^ 52 else (2 ^ 52 + p % 2 ^ 52) * 2 ^ (p / 2 ^ 52 - 1)

theorem patMag_succ_lt (p : Nat) : patMag p < patMag (p + 1) := by
  have hp := Nat.div_add_mod p (2 ^ 52)
  have hlt := Nat.mod_lt p (show 0 < 2 ^ 52 by norm_num)
  set e := p / 2 ^ 52 with he
  set f := p % 2 ^ 52 with hf
  unfold patMag
  rw [← he, ← hf]
  by_cases hc : f + 1 < 2 ^ 52
  · have h1 : (p + 1) / 2 ^ 52 = e := by omega
    have h2 : (p + 1) % 2 ^ 52 = f + 1 := by omega
    rw [h1, h2]
    split
    · omega
    · exact Nat.mul_lt_mul_of_pos_right (by omega) (by positivity)
  · have h1 : (p + 1) / 2 ^ 52 = e + 1 := by omega
    have h2 : (p + 1) % 2 ^ 52 = 0 := by omega
    rw [h1, h2]
    simp only [Nat.succ_ne_zero, if_false, Nat.add_zero, Nat.add_sub_cancel]
    split
    next h0 => rw [h0]; omega
    next h0 =>
      clear_value e
      obtain ⟨m, rfl⟩ : ∃ m, e = m + 1 := ⟨e - 1, by omega⟩
      simp only [Nat.add_sub_cancel]
      calc (2 ^ 52 + f) * 2 ^ m < 2 ^ 53 * 2 ^ m := Nat.mul_lt_mul_of_pos_right (by omega) (by positivity)
        _ = 2 ^ 52 * 2 ^ (m + 1) := by ring

theorem patMag_strictMono : StrictMono patMag := strictMono_nat_of_lt_succ patMag_succ_lt

theorem patMag_of_le {p : Nat} (h : p ≤ 2 ^ 53) : patMag p = p := by
  unfold patMag
  have hp := Nat.div_add_mod p (2 ^ 52)
  have hlt := Nat.mod_lt p (show 0 < 2 ^ 52 by norm_num)
  have h3 : p / 2 ^ 52 = 0 ∨ p / 2 ^ 52 = 1 ∨ p / 2 ^ 52 = 2 := by omega
  obtain h0 | h0 | h0 := h3 <;> rw [h0] <;> simp <;> omega

theorem roundEven_ge (n d : Nat) : n / d ≤ roundEven n d := by
  unfold roundEven; dsimp only; split <;> omega

theorem roundEven_le_succ (n d : Nat) : roundEven n d ≤ n / d + 1 := by
  unfold roundEven; dsimp only; split <;> omega

theorem roundEven_le {n d m : Nat} (hd : 0 < d) (h : n ≤ m * d) : roundEven n d ≤ m := by
  rcases Nat.lt_or_ge (n / d) m with hlt | hge
  · exact (roundEven_le_succ n d).trans hlt
  · have h1 := Nat.div_add_mod n d
    have h2 : m * d ≤ d * (n / d) := by rw [Nat.mul_comm]; exact Nat.mul_le_mul_left d hge
    have h3 : n % d = 0 := by omega
    have h4 : n / d ≤ m := Nat.div_le_of_le_mul (by rw [Nat.mul_comm]; exact h)
    unfold roundEven
    simp only [h3]
    rw [if_neg (by omega)]
    exact h4

/-- Where the shift is zero the quotient is below 2^53; else it fills 53 bits above the shift. -/
theorem roundShift_cases (q : Nat) :
    (roundShift q = 0 ∧ q < 2 ^ 53) ∨
    (0 < roundShift q ∧ 2 ^ (52 + roundShift q) ≤ q ∧ q < 2 ^ (53 + roundShift q)) := by
  unfold roundShift
  by_cases h : q < 2 ^ 53
  · left
    refine ⟨?_, h⟩
    by_cases h0 : q = 0
    · subst h0; simp
    · have := (Nat.log2_lt h0).2 h
      omega
  · right
    have h0 : q ≠ 0 := by omega
    have h1 : 53 ≤ Nat.log2 q := (Nat.le_log2 h0).2 (by omega)
    have e1 : 52 + (Nat.log2 q - 52) = Nat.log2 q := by omega
    have e2 : 53 + (Nat.log2 q - 52) = Nat.log2 q + 1 := by omega
    refine ⟨by omega, ?_, ?_⟩
    · rw [e1]; exact (Nat.le_log2 h0).1 le_rfl
    · rw [e2]; exact (Nat.log2_lt h0).1 (Nat.lt_succ_self _)

theorem patMag_of_pos {p : Nat} (h : p / 2 ^ 52 ≠ 0) :
    patMag p = (2 ^ 52 + p % 2 ^ 52) * 2 ^ (p / 2 ^ 52 - 1) := by
  unfold patMag; rw [if_neg h]

/-- Rounding does not fall below a representable magnitude that the exact value reaches. -/
theorem le_roundPattern {n d p : Nat} (hd : 0 < d) (hp : p ≤ infPattern) (h : patMag p * d ≤ n) :
    p ≤ roundPattern n d := by
  unfold roundPattern
  dsimp only
  rw [Nat.mul_comm (2 ^ 52)]
  refine le_min ?_ hp
  have hq : patMag p ≤ n / d := (Nat.le_div_iff_mul_le hd).2 h
  have hdm := Nat.div_add_mod p (2 ^ 52)
  have hml := Nat.mod_lt p (show 0 < 2 ^ 52 by norm_num)
  obtain ⟨hk, hlt⟩ | ⟨hk, hlo, hhi⟩ := roundShift_cases (n / d)
  · rw [hk]
    simp only [Nat.zero_mul, Nat.zero_add, pow_zero, Nat.mul_one]
    have hge := roundEven_ge n d
    by_cases hc : p ≤ 2 ^ 53
    · rw [patMag_of_le hc] at hq; omega
    · have := patMag_strictMono.monotone (show 2 ^ 53 ≤ p by omega)
      rw [patMag_of_le le_rfl] at this
      omega
  · set k := roundShift (n / d) with hkdef
    have hr : n / d / 2 ^ k ≤ roundEven n (d * 2 ^ k) := by
      rw [Nat.div_div_eq_div_mul]; exact roundEven_ge _ _
    have hk52 : 2 ^ 52 ≤ n / d / 2 ^ k := by
      rw [Nat.le_div_iff_mul_le (by positivity), ← pow_add]; exact hlo
    by_cases h1 : p / 2 ^ 52 ≤ k
    · have : p / 2 ^ 52 * 2 ^ 52 ≤ k * 2 ^ 52 := Nat.mul_le_mul_right _ h1
      omega
    · rw [patMag_of_pos (by omega)] at hq
      by_cases h2 : p / 2 ^ 52 = k + 1
      · rw [h2, Nat.add_sub_cancel] at hq
        have : 2 ^ 52 + p % 2 ^ 52 ≤ n / d / 2 ^ k := (Nat.le_div_iff_mul_le (by positivity)).2 hq
        rw [h2] at hdm
        omega
      · exfalso
        have h3 : k + 1 ≤ p / 2 ^ 52 - 1 := by omega
        have h4 : 2 ^ (k + 1) ≤ 2 ^ (p / 2 ^ 52 - 1) := Nat.pow_le_pow_right (by norm_num) h3
        have h5 : 2 ^ 52 * 2 ^ (k + 1) ≤ n / d :=
          (Nat.mul_le_mul (Nat.le_add_right _ _) h4).trans hq
        rw [← pow_add, show 52 + (k + 1) = 53 + k by omega] at h5
        omega

/-- Rounding does not rise above a representable magnitude that the exact value does not exceed. -/
theorem roundPattern_le {n d p : Nat} (hd : 0 < d) (h : n ≤ patMag p * d) : roundPattern n d ≤ p := by
  unfold roundPattern
  dsimp only
  rw [Nat.mul_comm (2 ^ 52)]
  refine (min_le_left _ _).trans ?_
  have hq : n / d ≤ patMag p := Nat.div_le_of_le_mul (by rw [Nat.mul_comm]; exact h)
  have hdm := Nat.div_add_mod p (2 ^ 52)
  have hml := Nat.mod_lt p (show 0 < 2 ^ 52 by norm_num)
  obtain ⟨hk, hlt⟩ | ⟨hk, hlo, hhi⟩ := roundShift_cases (n / d)
  · rw [hk]
    simp only [Nat.zero_mul, Nat.zero_add, pow_zero, Nat.mul_one]
    have hle := roundEven_le_succ n d
    by_cases hc : p ≤ 2 ^ 53
    · rw [patMag_of_le hc] at h; exact roundEven_le hd h
    · omega
  · set k := roundShift (n / d) with hkdef
    have hr : roundEven n (d * 2 ^ k) ≤ n / d / 2 ^ k + 1 := by
      rw [Nat.div_div_eq_div_mul]; exact roundEven_le_succ _ _
    have hk53 : n / d / 2 ^ k < 2 ^ 53 := by
      rw [Nat.div_lt_iff_lt_mul (by positivity), ← pow_add]; exact hhi
    have he : p / 2 ^ 52 ≠ 0 := by
      intro h0
      unfold patMag at hq
      rw [if_pos h0] at hq
      have : 2 ^ 52 ≤ 2 ^ (52 + k) := Nat.pow_le_pow_right (by norm_num) (by omega)
      omega
    rw [patMag_of_pos he] at hq h
    have hek : k + 1 ≤ p / 2 ^ 52 := by
      by_contra hc
      have h4 : 2 ^ (p / 2 ^ 52 - 1) ≤ 2 ^ (k - 1) := Nat.pow_le_pow_right (by norm_num) (by omega)
      have h5 : (2 ^ 52 + p % 2 ^ 52) * 2 ^ (p / 2 ^ 52 - 1) < 2 ^ 53 * 2 ^ (k - 1) := by
        have : 2 ^ 52 + p % 2 ^ 52 < 2 ^ 53 := by omega
        exact Nat.mul_lt_mul_of_lt_of_le this h4 (by positivity)
      rw [← pow_add, show 53 + (k - 1) = 52 + k by omega] at h5
      omega
    by_cases h2 : p / 2 ^ 52 = k + 1
    · rw [h2, Nat.add_sub_cancel] at h
      have h3 : roundEven n (d * 2 ^ k) ≤ 2 ^ 52 + p % 2 ^ 52 :=
        roundEven_le (by positivity) (by rw [Nat.mul_assoc, Nat.mul_comm (2 ^ k) d] at h; exact h)
      rw [h2] at hdm
      omega
    · have h6 : (k + 2) * 2 ^ 52 ≤ p / 2 ^ 52 * 2 ^ 52 := Nat.mul_le_mul_right _ (by omega)
      omega

/-- Rounding is exact on a representable magnitude. -/
theorem roundPattern_exact {d p : Nat} (hd : 0 < d) (hp : p ≤ infPattern) : roundPattern (patMag p * d) d = p :=
  le_antisymm (roundPattern_le hd le_rfl) (le_roundPattern hd hp le_rfl)

theorem roundPattern_le_inf (n d : Nat) : roundPattern n d ≤ infPattern := min_le_right _ _

/-! ### Parts of a value -/

theorem toNat_numOfParts {neg : Bool} {p : Nat} (hp : p < 2 ^ 63) :
    (numOfParts neg p).toNat = if neg then 2 ^ 63 + p else p := by
  unfold numOfParts
  rw [BitVec.toNat_ofNat]
  apply Nat.mod_eq_of_lt
  split <;> omega

@[simp] theorem numSign_numOfParts {neg : Bool} {p : Nat} (hp : p < 2 ^ 63) : numSign (numOfParts neg p) = neg := by
  unfold numSign
  rw [BitVec.msb_eq_decide, toNat_numOfParts hp]
  cases neg <;> simp
  omega

/-- The bits below the sign. -/
def lowBits (x : Num64) : Nat := x.toNat % 2 ^ 63

theorem lowBits_numOfParts {neg : Bool} {p : Nat} (hp : p < 2 ^ 63) : lowBits (numOfParts neg p) = p := by
  unfold lowBits
  rw [toNat_numOfParts hp]
  cases neg <;> simp <;> omega

theorem lowBits_lt (x : Num64) : lowBits x < 2 ^ 63 := Nat.mod_lt _ (by norm_num)

theorem numExponent_eq (x : Num64) : numExponent x = lowBits x / 2 ^ 52 := by
  unfold numExponent lowBits
  have := x.isLt
  simp [BitVec.extractLsb'_toNat, Nat.shiftRight_eq_div_pow]
  omega

theorem numFraction_eq (x : Num64) : numFraction x = lowBits x % 2 ^ 52 := by
  unfold numFraction lowBits
  simp [BitVec.extractLsb'_toNat]

theorem numMag_eq (x : Num64) : numMag x = patMag (lowBits x) := by
  unfold numMag patMag; rw [numExponent_eq, numFraction_eq]

theorem numIsFinite_iff (x : Num64) : numIsFinite x = true ↔ lowBits x < infPattern := by
  unfold numIsFinite infPattern
  rw [numExponent_eq]
  have := lowBits_lt x
  simp only [bne_iff_ne, ne_eq]
  omega

theorem numIsNaN_iff (x : Num64) : numIsNaN x = true ↔ infPattern < lowBits x := by
  unfold numIsNaN infPattern
  rw [numExponent_eq, numFraction_eq]
  have := lowBits_lt x
  simp only [Bool.and_eq_true, beq_iff_eq, bne_iff_ne, ne_eq]
  omega

theorem numIsInf_iff (x : Num64) : numIsInf x = true ↔ lowBits x = infPattern := by
  unfold numIsInf infPattern
  rw [numExponent_eq, numFraction_eq]
  have := lowBits_lt x
  simp only [Bool.and_eq_true, beq_iff_eq]
  omega

theorem numIsZero_iff (x : Num64) : numIsZero x = true ↔ lowBits x = 0 := by
  unfold numIsZero lowBits
  rw [beq_iff_eq, ← BitVec.toNat_inj]
  simp [BitVec.extractLsb'_toNat]

theorem numKey_eq (x : Num64) : numKey x = if numSign x then -(lowBits x : Int) else (lowBits x : Int) := by
  unfold numKey lowBits
  simp [BitVec.extractLsb'_toNat]

theorem numRound_parts (neg : Bool) (n d : Nat) :
    numSign (numRound neg n d) = neg ∧ lowBits (numRound neg n d) = roundPattern n d := by
  have h := roundPattern_le_inf n d
  have h2 : roundPattern n d < 2 ^ 63 := by unfold infPattern at h; omega
  exact ⟨numSign_numOfParts h2, lowBits_numOfParts h2⟩

theorem finite_not_nan {x : Num64} (h : numIsFinite x = true) : numIsNaN x = false := by
  rw [numIsFinite_iff] at h
  rw [Bool.eq_false_iff, ne_eq, numIsNaN_iff]
  omega

theorem finite_not_inf {x : Num64} (h : numIsFinite x = true) : numIsInf x = false := by
  rw [numIsFinite_iff] at h
  rw [Bool.eq_false_iff, ne_eq, numIsInf_iff]
  omega

/-! ### Bounded values -/

/-- `x` is finite and its magnitude is at most that of the pattern `p`. -/
def MagLe (x : Num64) (p : Nat) : Prop := p < infPattern ∧ lowBits x ≤ p

theorem MagLe.finite {x : Num64} {p : Nat} (h : MagLe x p) : numIsFinite x = true := by
  rw [numIsFinite_iff]; have := h.1; have := h.2; omega

theorem MagLe.mag {x : Num64} {p : Nat} (h : MagLe x p) : numMag x ≤ patMag p := by
  rw [numMag_eq]; exact patMag_strictMono.monotone h.2

theorem MagLe.mono {x : Num64} {p q : Nat} (h : MagLe x p) (hq : q < infPattern) (hpq : p ≤ q) : MagLe x q :=
  ⟨hq, h.2.trans hpq⟩

/-- A rounded value whose exact magnitude does not exceed a representable one does not exceed it either. -/
theorem magLe_numRound {neg : Bool} {n d p : Nat} (hd : 0 < d) (hp : p < infPattern) (h : n ≤ patMag p * d) :
    MagLe (numRound neg n d) p :=
  ⟨hp, by rw [(numRound_parts neg n d).2]; exact roundPattern_le hd h⟩

/-- The unit as a power whose exponent is a variable, so that nothing evaluates it. -/
theorem unitOne_eq_pow {k : Nat} (h : k = 1074) : unitOne = 2 ^ k := by unfold unitOne; rw [h]

theorem unitOne_pos : 0 < unitOne := by unfold unitOne; positivity

theorem magLe_mul {x y : Num64} {p q r : Nat} (hx : MagLe x p) (hy : MagLe y q) (hr : r < infPattern)
    (h : patMag p * patMag q ≤ patMag r * unitOne) : MagLe (numMul x y) r := by
  unfold numMul
  simp only [finite_not_nan hx.finite, finite_not_nan hy.finite, finite_not_inf hx.finite, finite_not_inf hy.finite,
    Bool.or_self, Bool.false_eq_true, if_false]
  exact magLe_numRound unitOne_pos hr ((Nat.mul_le_mul hx.mag hy.mag).trans h)

theorem natAbs_numScaled (x : Num64) : (numScaled x).natAbs = numMag x := by
  unfold numScaled; split <;> simp

theorem magLe_add {x y : Num64} {p q r : Nat} (hx : MagLe x p) (hy : MagLe y q) (hr : r < infPattern)
    (h : patMag p + patMag q ≤ patMag r) : MagLe (numAdd x y) r := by
  unfold numAdd
  simp only [finite_not_nan hx.finite, finite_not_nan hy.finite, finite_not_inf hx.finite, finite_not_inf hy.finite,
    Bool.or_self, Bool.false_eq_true, if_false]
  split
  · exact ⟨hr, by unfold numZero; rw [lowBits_numOfParts (by norm_num)]; omega⟩
  · refine magLe_numRound Nat.one_pos hr ?_
    have h1 := Int.natAbs_add_le (numScaled x) (numScaled y)
    rw [natAbs_numScaled, natAbs_numScaled] at h1
    have h2 := hx.mag
    have h3 := hy.mag
    omega

theorem lowBits_numNeg (x : Num64) : lowBits (numNeg x) = lowBits x := by
  unfold lowBits numNeg
  rw [BitVec.toNat_xor]
  have : (x.toNat ^^^ 0x8000000000000000) % 2 ^ 63 = (x.toNat % 2 ^ 63) ^^^ (0x8000000000000000 % 2 ^ 63) :=
    Nat.xor_mod_two_pow
  simpa using this

theorem numSign_numNeg (x : Num64) : numSign (numNeg x) = !numSign x := by
  unfold numSign numNeg
  rw [BitVec.msb_xor]
  simp [BitVec.msb_eq_decide]

/-- A truncated value keeps its bound. -/
theorem magLe_trunc {x : Num64} {p : Nat} (hx : MagLe x p) : MagLe (numTrunc x) p := by
  unfold numTrunc
  rw [if_pos hx.finite]
  refine magLe_numRound Nat.one_pos hx.1 ?_
  rw [Nat.mul_one, Nat.mul_comm]
  exact (Nat.div_mul_le_self _ _).trans hx.mag

/-- The integer of a bounded value is bounded by the integer part of the bound. -/
theorem natAbs_numToInt {x : Num64} {p : Nat} (hx : MagLe x p) : (numToInt x).natAbs ≤ patMag p / unitOne := by
  unfold numToInt
  rw [if_pos hx.finite]
  have := Nat.div_le_div_right (c := unitOne) hx.mag
  split
  · rw [Int.natAbs_neg, Int.natAbs_natCast]; exact this
  · rw [Int.natAbs_natCast]; exact this

end Sys2Proof.Laws
end

