-- ==== Sys2Proof/Laws/Exact.lean ====
section
/-!
SUPPORT. What the operations of `Machine/Float.lean` are on finite operands, and the magnitudes a `Num64` holds
exactly: every multiple m * 2^k of the unit with m <= 2^53, so every integer up to 2^53.
-/

namespace Sys2Proof.Laws

open Sys2Proof.Machine

/-- `m * 2^k` units is representable for m below 2^53. -/
theorem exists_pattern_of_lt (k : Nat) : ∀ m : Nat, m < 2 ^ 53 → ∃ p, patMag p = m * 2 ^ k ∧ p ≤ k * 2 ^ 52 + m := by
  induction k with
  | zero => exact fun m hm => ⟨m, by rw [patMag_of_le hm.le, Nat.pow_zero, Nat.mul_one], by omega⟩
  | succ k ih =>
    intro m hm
    by_cases h : m < 2 ^ 52
    · obtain ⟨p, hp, hle⟩ := ih (2 * m) (by omega)
      exact ⟨p, by rw [hp]; ring, by linarith⟩
    · refine ⟨(k + 1) * 2 ^ 52 + m, ?_, by omega⟩
      have h1 : ((k + 1) * 2 ^ 52 + m) / 2 ^ 52 = k + 2 := by omega
      have h2 : ((k + 1) * 2 ^ 52 + m) % 2 ^ 52 = m - 2 ^ 52 := by omega
      unfold patMag
      rw [h1, h2, if_neg (by omega), show 2 ^ 52 + (m - 2 ^ 52) = m by omega, show k + 2 - 1 = k + 1 by omega]

/-- `m * 2^k` units is representable for m up to 2^53. -/
theorem exists_pattern (m k : Nat) (hm : m ≤ 2 ^ 53) : ∃ p, patMag p = m * 2 ^ k ∧ p ≤ k * 2 ^ 52 + 2 ^ 53 := by
  rcases Nat.lt_or_ge m (2 ^ 53) with h | h
  · obtain ⟨p, hp, hle⟩ := exists_pattern_of_lt k m h
    exact ⟨p, hp, by omega⟩
  · obtain rfl : m = 2 ^ 53 := by omega
    obtain ⟨p, hp, hle⟩ := exists_pattern_of_lt (k + 1) (2 ^ 52) (by norm_num)
    refine ⟨p, ?_, by linarith⟩
    rw [hp, pow_succ 2 k]
    generalize 2 ^ k = a
    omega

/-- Every integer up to 2^53 is a finite pattern. -/
theorem exists_pattern_of_nat (m : Nat) (hm : m ≤ 2 ^ 53) : ∃ p, patMag p = m * unitOne ∧ p < infPattern := by
  obtain ⟨k, hk⟩ : ∃ k, k = 1074 := ⟨1074, rfl⟩
  obtain ⟨p, hp, hle⟩ := exists_pattern m k hm
  exact ⟨p, by rw [hp, unitOne_eq_pow hk], by unfold infPattern; omega⟩

/-- An exact integer converts exactly. -/
theorem numOfMag_exact (neg : Bool) {m : Nat} (hm : m ≤ 2 ^ 53) :
    numSign (numOfMag neg m) = neg ∧ numMag (numOfMag neg m) = m * unitOne ∧ numIsFinite (numOfMag neg m) = true := by
  obtain ⟨p, hp, hlt⟩ := exists_pattern_of_nat m hm
  obtain ⟨h1, h2⟩ := numRound_parts neg (m * unitOne) 1
  have h3 : roundPattern (m * unitOne) 1 = p := by
    rw [← hp]; simpa using roundPattern_exact (d := 1) Nat.one_pos hlt.le
  unfold numOfMag
  rw [Nat.mul_comm]
  refine ⟨h1, ?_, ?_⟩
  · rw [numMag_eq, h2, h3, hp]
  · rw [numIsFinite_iff, h2, h3]; exact hlt

theorem numMag_numOfNat {m : Nat} (hm : m ≤ 2 ^ 53) : numMag (numOfNat m) = m * unitOne := (numOfMag_exact false hm).2.1

theorem numSign_numOfNat (m : Nat) : numSign (numOfNat m) = false := (numRound_parts false _ _).1

theorem numIsFinite_numOfNat {m : Nat} (hm : m ≤ 2 ^ 53) : numIsFinite (numOfNat m) = true := (numOfMag_exact false hm).2.2

theorem numToInt_numOfNat {m : Nat} (hm : m ≤ 2 ^ 53) : numToInt (numOfNat m) = m := by
  unfold numToInt
  rw [if_pos (numIsFinite_numOfNat hm), numSign_numOfNat, numMag_numOfNat hm, Nat.mul_div_cancel _ unitOne_pos]
  simp

/-- The integer part of a magnitude is representable, and so is the next integer above it. -/
theorem exists_pattern_of_floor (p : Nat) :
    (∃ q, q ≤ p ∧ patMag q = patMag p / unitOne * unitOne) ∧
    (patMag p % unitOne ≠ 0 → ∃ q, q < infPattern ∧ patMag q = (patMag p / unitOne + 1) * unitOne) := by
  rcases Nat.lt_or_ge (patMag p / unitOne) (2 ^ 53) with h | h
  · constructor
    · obtain ⟨q, hq, _⟩ := exists_pattern_of_nat _ h.le
      refine ⟨q, ?_, hq⟩
      rw [← patMag_strictMono.le_iff_le, hq]
      exact Nat.div_mul_le_self _ _
    · intro _
      obtain ⟨q, hq, hlt⟩ := exists_pattern_of_nat (patMag p / unitOne + 1) h
      exact ⟨q, hlt, hq⟩
  · have hdvd : unitOne ∣ patMag p := by
      have hbig : 2 ^ 53 * unitOne ≤ patMag p := (Nat.le_div_iff_mul_le unitOne_pos).1 h
      have hml := Nat.mod_lt p (show 0 < 2 ^ 52 by norm_num)
      have h0 : p / 2 ^ 52 ≠ 0 := by
        intro h0
        have : patMag p < 2 ^ 52 := by unfold patMag; rw [if_pos h0]; exact hml
        have := unitOne_pos
        omega
      rw [patMag_of_pos h0] at hbig ⊢
      obtain ⟨k, hk⟩ : ∃ k, k = 1074 := ⟨1074, rfl⟩
      rw [unitOne_eq_pow hk] at hbig ⊢
      have h1 : k ≤ p / 2 ^ 52 - 1 := by
        by_contra hc
        have h2 : 2 ^ (p / 2 ^ 52 - 1) ≤ 2 ^ k := Nat.pow_le_pow_right (by norm_num) (Nat.lt_of_not_le hc).le
        have h3 : (2 ^ 52 + p % 2 ^ 52) * 2 ^ (p / 2 ^ 52 - 1) < 2 ^ 53 * 2 ^ k :=
          Nat.mul_lt_mul_of_lt_of_le (by omega) h2 (by positivity)
        omega
      exact Dvd.dvd.mul_left (pow_dvd_pow 2 h1) _
    obtain ⟨c, hc⟩ := hdvd
    constructor
    · exact ⟨p, le_rfl, by rw [hc, Nat.mul_div_cancel_left _ unitOne_pos, Nat.mul_comm]⟩
    · intro hne
      exact absurd (by rw [hc]; exact Nat.mul_mod_right _ _) hne

/-- The magnitude of the floor: the integer part, or the next integer for a negative value that is no integer. -/
theorem natAbs_floor (x : Num64) :
    (numScaled x / (unitOne : Int)).natAbs = numMag x / unitOne ∨
    (numMag x % unitOne ≠ 0 ∧ (numScaled x / (unitOne : Int)).natAbs = numMag x / unitOne + 1) := by
  have hu : (0 : Int) < unitOne := by have := unitOne_pos; omega
  unfold numScaled
  split
  · by_cases hm : numMag x % unitOne = 0
    · left
      rw [Int.neg_ediv_of_dvd (by exact_mod_cast Nat.dvd_of_mod_eq_zero hm), Int.natAbs_neg]
      norm_cast
    · right
      refine ⟨hm, ?_⟩
      have h1 : (unitOne : Int) * ((numMag x / unitOne : Nat) : Int) + ((numMag x % unitOne : Nat) : Int) =
          (numMag x : Int) := by exact_mod_cast Nat.div_add_mod (numMag x) unitOne
      have h2 : ((numMag x % unitOne : Nat) : Int) < (unitOne : Int) := by
        exact_mod_cast Nat.mod_lt (numMag x) unitOne_pos
      have h3 : (0 : Int) < ((numMag x % unitOne : Nat) : Int) := by omega
      have h4 : -(numMag x : Int) / (unitOne : Int) = -((numMag x / unitOne + 1 : Nat) : Int) := by
        rw [Int.ediv_eq_iff_of_pos hu, ← h1, Nat.cast_add, Nat.cast_one]
        generalize ((numMag x / unitOne : Nat) : Int) = q
        generalize ((numMag x % unitOne : Nat) : Int) = r at *
        generalize (unitOne : Int) = u at *
        constructor <;> nlinarith
      rw [h4, Int.natAbs_neg, Int.natAbs_natCast]
  · left
    norm_cast

theorem numIsFinite_numFloor {x : Num64} (hx : numIsFinite x = true) : numIsFinite (numFloor x) = true := by
  have hlt := (numIsFinite_iff x).1 hx
  obtain ⟨⟨q, hq, hqe⟩, hup⟩ := exists_pattern_of_floor (lowBits x)
  have key : ∀ p, p < infPattern → ∀ m, patMag p = m * unitOne → numIsFinite (numOfMag (numSign x) m) = true := by
    intro p hp m hm
    unfold numOfMag
    rw [numIsFinite_iff, (numRound_parts _ _ _).2, Nat.mul_comm, ← hm]
    exact lt_of_le_of_lt (roundPattern_le Nat.one_pos (by omega)) hp
  unfold numFloor
  rw [if_pos hx]
  rw [← numMag_eq] at hqe hup
  obtain h | ⟨hm, h⟩ := natAbs_floor x <;> rw [h]
  · exact key q (by omega) _ hqe
  · obtain ⟨q', hq', hqe'⟩ := hup hm
    exact key q' hq' _ hqe'

/-! ### The operations on finite operands -/

theorem numMul_finite {x y : Num64} (hx : numIsFinite x = true) (hy : numIsFinite y = true) :
    numMul x y = numRound (numSign x != numSign y) (numMag x * numMag y) unitOne := by
  unfold numMul
  simp [finite_not_nan hx, finite_not_nan hy, finite_not_inf hx, finite_not_inf hy]

theorem numDiv_finite {x y : Num64} (hx : numIsFinite x = true) (hy : numIsFinite y = true)
    (h0 : numIsZero y = false) :
    numDiv x y = numRound (numSign x != numSign y) (unitOne * numMag x) (numMag y) := by
  unfold numDiv
  simp [finite_not_nan hx, finite_not_nan hy, finite_not_inf hx, finite_not_inf hy, h0]

theorem numAdd_finite {x y : Num64} (hx : numIsFinite x = true) (hy : numIsFinite y = true)
    (h0 : numScaled x + numScaled y ≠ 0) :
    numAdd x y = numRound (decide (numScaled x + numScaled y < 0)) (numScaled x + numScaled y).natAbs 1 := by
  unfold numAdd
  simp [finite_not_nan hx, finite_not_nan hy, finite_not_inf hx, finite_not_inf hy, h0]

theorem numAdd_cancel {x y : Num64} (hx : numIsFinite x = true) (hy : numIsFinite y = true)
    (h0 : numScaled x + numScaled y = 0) : numAdd x y = numZero (numSign x && numSign y) := by
  unfold numAdd
  simp [finite_not_nan hx, finite_not_nan hy, finite_not_inf hx, finite_not_inf hy, h0]

theorem numMag_eq_zero_iff (x : Num64) : numMag x = 0 ↔ numIsZero x = true := by
  rw [numMag_eq, numIsZero_iff]
  constructor
  · intro h
    by_contra hc
    have := patMag_strictMono (Nat.pos_of_ne_zero hc)
    omega
  · intro h; rw [h]; rfl

/-- A value is its sign and the bits below it. -/
theorem eq_numOfParts (x : Num64) : x = numOfParts (numSign x) (lowBits x) := by
  apply BitVec.eq_of_toNat_eq
  rw [toNat_numOfParts (lowBits_lt x)]
  unfold lowBits numSign
  rw [BitVec.msb_eq_decide]
  have := x.isLt
  simp only [decide_eq_true_eq]
  split <;> omega

/-- Rounding a value's own magnitude gives the value back. -/
theorem numRound_numMag {x : Num64} (hx : numIsFinite x = true) (neg : Bool) {d : Nat} (hd : 0 < d) :
    numRound neg (numMag x * d) d = numOfParts neg (lowBits x) := by
  unfold numRound
  rw [numMag_eq, roundPattern_exact hd (numIsFinite_iff x |>.1 hx).le]

end Sys2Proof.Laws
end

