-- ==== Sys2Proof/Laws/Bounds.lean ====
section
/-!
SUPPORT. Bounds of a result: comparisons with a constant and its negation, CLAMP, quotients, and products with one.
-/

namespace Sys2Proof.Laws

open Sys2Proof.Machine

/-- `c` is a positive finite constant whose bits are `p`. -/
def IsBound (c : Num64) (p : Nat) : Prop := numSign c = false ∧ lowBits c = p ∧ p < infPattern

theorem isBound_one : IsBound numOne 0x3FF0000000000000 := by unfold IsBound; decide

theorem finite_one : numIsFinite numOne = true := by decide

theorem numOfNat_zero : numOfNat 0 = numZero false := by decide +kernel

theorem numOfNat_one : numOfNat 1 = numOne := by decide +kernel

theorem isBound_32767 : IsBound (numOfNat 32767) 0x40DFFFC000000000 := by unfold IsBound; decide +kernel

theorem isBound_32768 : IsBound (numOfNat 32768) 0x40E0000000000000 := by unfold IsBound; decide +kernel

theorem notNaN_iff (x : Num64) : numIsNaN x = false ↔ lowBits x ≤ infPattern := by
  rw [Bool.eq_false_iff, ne_eq, numIsNaN_iff]
  omega

/-- Lying between -c and c is having a magnitude of at most that of c. -/
theorem magLe_iff_between {x c : Num64} {p : Nat} (hc : IsBound c p) :
    MagLe x p ↔ numLe (numNeg c) x = true ∧ numLe x c = true := by
  obtain ⟨h1, h2, h3⟩ := hc
  have n1 := notNaN_iff x
  have n2 : numIsNaN c = false := (notNaN_iff c).2 (by omega)
  have n3 : numIsNaN (numNeg c) = false := (notNaN_iff _).2 (by rw [lowBits_numNeg]; omega)
  simp only [numLe, n2, n3, Bool.not_false, Bool.true_and, Bool.and_true, Bool.and_eq_true, Bool.not_eq_true',
    decide_eq_true_eq, numKey_eq, lowBits_numNeg, numSign_numNeg, h1, h2, n1]
  simp only [if_true, Bool.false_eq_true, if_false, MagLe]
  split <;> omega

/-- CLAMP of a value that is no NaN lies within its limits. -/
theorem magLe_clamp {x c : Num64} {p : Nat} (hc : IsBound c p) (hx : numIsNaN x = false) :
    MagLe (numMin (numMax x (numNeg c)) c) p := by
  have hn : numIsNaN (numNeg c) = false := (notNaN_iff _).2 (by rw [lowBits_numNeg, hc.2.1]; have := hc.2.2; omega)
  have hcn : numIsNaN c = false := (notNaN_iff _).2 (by rw [hc.2.1]; have := hc.2.2; omega)
  have kc : numKey c = p := by rw [numKey_eq, hc.1, hc.2.1]; simp
  have kn : numKey (numNeg c) = -p := by rw [numKey_eq, numSign_numNeg, hc.1, lowBits_numNeg, hc.2.1]; simp
  rw [magLe_iff_between hc]
  unfold numMin numMax
  simp only [numLe, numLt, hn, hcn, hx, kc, kn, Bool.not_false, Bool.true_and]
  by_cases h1 : numKey x < -p
  · simp only [h1, decide_true, if_true, hn, kn, Bool.not_false, Bool.true_and]
    rw [if_neg (by simp)]
    simp [hn, kn]
  · simp only [h1, decide_false, Bool.false_eq_true, if_false, hx, Bool.not_false, Bool.true_and]
    by_cases h2 : (p : Int) < numKey x
    · simp [h2, hcn, kc]
    · simp [h2, hx]
      omega

/-- A quotient is bounded if its divisor is bounded below. -/
theorem magLe_div {x y : Num64} {p m r : Nat} (hx : MagLe x p) (hy : numIsFinite y = true) (hm : 0 < patMag m)
    (hmy : patMag m ≤ numMag y) (hr : r < infPattern) (h : patMag p * unitOne ≤ patMag r * patMag m) :
    MagLe (numDiv x y) r := by
  have h0 : numIsZero y = false := by
    rw [Bool.eq_false_iff, ne_eq, ← numMag_eq_zero_iff]
    omega
  rw [numDiv_finite hx.finite hy h0]
  refine magLe_numRound (by omega) hr ?_
  rw [Nat.mul_comm]
  calc numMag x * unitOne ≤ patMag p * unitOne := Nat.mul_le_mul_right _ hx.mag
    _ ≤ patMag r * patMag m := h
    _ ≤ patMag r * numMag y := Nat.mul_le_mul_left _ hmy

theorem numMag_one : numMag numOne = unitOne := by
  rw [numMag_eq, isBound_one.2.1]
  obtain ⟨k, hk⟩ : ∃ k, k = 1074 := ⟨1074, rfl⟩
  rw [unitOne_eq_pow hk]
  unfold patMag
  norm_num
  rw [show (4503599627370496 : Nat) = 2 ^ 52 by norm_num, ← pow_add, hk]

theorem numMul_one {x : Num64} (hx : numIsFinite x = true) : numMul x numOne = x := by
  rw [numMul_finite hx finite_one, numMag_one, numRound_numMag hx _ unitOne_pos]
  conv_rhs => rw [eq_numOfParts x]
  rw [isBound_one.1, Bool.bne_false]

theorem one_numMul {x : Num64} (hx : numIsFinite x = true) : numMul numOne x = x := by
  rw [numMul_finite finite_one hx, numMag_one, Nat.mul_comm, numRound_numMag hx _ unitOne_pos]
  conv_rhs => rw [eq_numOfParts x]
  rw [isBound_one.1, Bool.false_bne]

theorem numDiv_self {x : Num64} (hx : numIsFinite x = true) (h0 : numIsZero x = false) : numDiv x x = numOne := by
  have hpos : 0 < numMag x := Nat.pos_of_ne_zero fun h => by rw [numMag_eq_zero_iff, h0] at h; cases h
  rw [numDiv_finite hx hx h0, ← numMag_one, numRound_numMag (by decide) _ hpos]
  simp
  decide

/-! ### Constants in the unit -/

theorem patMag_mk (e f : Nat) (hf : f < 2 ^ 52) : patMag ((e + 1) * 2 ^ 52 + f) = (2 ^ 52 + f) * 2 ^ e := by
  have h1 : ((e + 1) * 2 ^ 52 + f) / 2 ^ 52 = e + 1 := by omega
  have h2 : ((e + 1) * 2 ^ 52 + f) % 2 ^ 52 = f := by omega
  unfold patMag
  rw [h1, h2, if_neg (by omega), Nat.add_sub_cancel]

theorem patMag_one : patMag 0x3FF0000000000000 = unitOne := by
  rw [← numMag_one, numMag_eq, isBound_one.2.1]

theorem patMag_32767 : patMag 0x40DFFFC000000000 = 32767 * unitOne := by
  obtain ⟨k, hk⟩ : ∃ k, k = 1036 := ⟨_, rfl⟩
  have h : (0x40DFFFC000000000 : Nat) = (k + 1) * 2 ^ 52 + 0xFFFC000000000 := by subst hk; norm_num
  rw [h, patMag_mk _ _ (by norm_num), unitOne_eq_pow (k := k + 38) (by omega), pow_add]
  generalize 2 ^ k = a
  omega

theorem patMag_32768 : patMag 0x40E0000000000000 = 32768 * unitOne := by
  obtain ⟨k, hk⟩ : ∃ k, k = 1037 := ⟨_, rfl⟩
  have h : (0x40E0000000000000 : Nat) = (k + 1) * 2 ^ 52 + 0 := by subst hk; norm_num
  rw [h, patMag_mk _ _ (by norm_num), unitOne_eq_pow (k := k + 37) (by omega), pow_add]
  generalize 2 ^ k = a
  omega

/-- A value bounded below the next integer is an integer within the bound. -/
theorem numToInt_range {x : Num64} {p m : Nat} (h : MagLe x p) (hp : patMag p < (m + 1) * unitOne) :
    -(m : Int) ≤ numToInt x ∧ numToInt x ≤ m := by
  have h1 := natAbs_numToInt h
  have h2 : patMag p / unitOne ≤ m := by
    rw [← Nat.lt_succ_iff, Nat.div_lt_iff_lt_mul unitOne_pos]
    exact hp
  omega

theorem numIsNaN_numTrunc {x : Num64} (h : numIsNaN x = false) : numIsNaN (numTrunc x) = false := by
  unfold numTrunc
  split
  · rw [notNaN_iff]
    unfold numOfMag
    rw [(numRound_parts _ _ _).2]
    exact roundPattern_le_inf _ _
  · exact h

/-- One added to a finite value is finite: the largest finite value absorbs it. -/
theorem numIsFinite_one_add {x : Num64} (hx : numIsFinite x = true) : numIsFinite (numAdd numOne x) = true := by
  by_cases h0 : numScaled numOne + numScaled x = 0
  · rw [numAdd_cancel finite_one hx h0]
    cases numSign numOne && numSign x <;> decide
  rw [numAdd_finite finite_one hx h0, numIsFinite_iff, (numRound_parts _ _ _).2]
  obtain ⟨k, hk⟩ : ∃ k, k = 1074 := ⟨_, rfl⟩
  have hu := unitOne_eq_pow hk
  have habs : (numScaled numOne + numScaled x).natAbs ≤ unitOne + numMag x := by
    have h1 := Int.natAbs_add_le (numScaled numOne) (numScaled x)
    rwa [natAbs_numScaled, natAbs_numScaled, numMag_one] at h1
  generalize (numScaled numOne + numScaled x).natAbs = n at habs
  rw [numMag_eq] at habs
  have hlt := (numIsFinite_iff x).1 hx
  have htop : patMag (infPattern - 1) = (2 ^ 53 - 1) * 2 ^ (k + 971) := by
    have h : infPattern - 1 = (k + 971 + 1) * 2 ^ 52 + (2 ^ 52 - 1) := by subst hk; decide
    rw [h, patMag_mk _ _ (by norm_num)]
    congr 1
  have hbig : 2 * unitOne < 2 ^ (k + 971) := by
    rw [hu, ← pow_succ']
    exact Nat.pow_lt_pow_right (by norm_num) (by omega)
  have hle1 := patMag_strictMono.monotone (show lowBits x ≤ infPattern - 1 by omega)
  rcases Nat.lt_or_ge (patMag (infPattern - 1)) n with hn | hn
  · have hr : roundPattern n 1 = infPattern - 1 := by
      have hdiv : n / 2 ^ (k + 971) = 2 ^ 53 - 1 := by
        rw [Nat.div_eq_iff (by positivity)]
        generalize 2 ^ (k + 971) = a at *
        omega
      have hmod : 2 * (n % 2 ^ (k + 971)) < 2 ^ (k + 971) := by
        have h1 := Nat.div_add_mod n (2 ^ (k + 971))
        rw [hdiv] at h1
        generalize 2 ^ (k + 971) = a at *
        omega
      have hshift : roundShift n = k + 971 := by
        unfold roundShift
        have h2 : n.log2 = k + 971 + 52 := by
          rw [Nat.log2_eq_iff (by omega)]
          constructor
          · rw [pow_add]
            generalize 2 ^ (k + 971) = a at *
            omega
          · rw [show k + 971 + 52 + 1 = k + 971 + 53 by ring, pow_add]
            generalize 2 ^ (k + 971) = a at *
            omega
        omega
      unfold roundPattern roundEven
      simp only [Nat.div_one, Nat.one_mul, hshift, hdiv]
      rw [if_neg (by omega)]
      subst hk
      decide
    rw [hr]
    decide
  · have := roundPattern_le (n := n) (d := 1) (p := infPattern - 1) Nat.one_pos (by omega)
    have h2 : infPattern - 1 < infPattern := by decide
    omega

/-! ### Signs -/

theorem numNeg_numOfParts (b : Bool) {p : Nat} (hp : p < 2 ^ 63) : numNeg (numOfParts b p) = numOfParts (!b) p := by
  have h := eq_numOfParts (numNeg (numOfParts b p))
  rwa [numSign_numNeg, lowBits_numNeg, numSign_numOfParts hp, lowBits_numOfParts hp] at h

theorem numNeg_numRound (b : Bool) (n d : Nat) : numNeg (numRound b n d) = numRound (!b) n d := by
  have := roundPattern_le_inf n d
  unfold infPattern at this
  exact numNeg_numOfParts b (by omega)

theorem numMag_numNeg (x : Num64) : numMag (numNeg x) = numMag x := by
  rw [numMag_eq, numMag_eq, lowBits_numNeg]

theorem numIsFinite_numNeg (x : Num64) : numIsFinite (numNeg x) = numIsFinite x := by
  rw [Bool.eq_iff_iff, numIsFinite_iff, numIsFinite_iff, lowBits_numNeg]

theorem numMul_numNeg_left {x y : Num64} (hx : numIsFinite x = true) (hy : numIsFinite y = true) :
    numMul (numNeg x) y = numNeg (numMul x y) := by
  rw [numMul_finite hx hy, numMul_finite (by rwa [numIsFinite_numNeg]) hy, numNeg_numRound, numMag_numNeg,
    numSign_numNeg]
  cases numSign x <;> cases numSign y <;> rfl

theorem numDiv_numNeg_left {x y : Num64} (hx : numIsFinite x = true) (hy : numIsFinite y = true)
    (h0 : numIsZero y = false) : numDiv (numNeg x) y = numNeg (numDiv x y) := by
  rw [numDiv_finite hx hy h0, numDiv_finite (by rwa [numIsFinite_numNeg]) hy h0, numNeg_numRound, numMag_numNeg,
    numSign_numNeg]
  cases numSign x <;> cases numSign y <;> rfl

theorem numKey_zero : numKey (numZero false) = 0 := by decide

/-- A value above zero is positive. -/
theorem pos_of_numLt {x : Num64} (h : numLt (numZero false) x = true) :
    numSign x = false ∧ 0 < lowBits x ∧ numIsNaN x = false := by
  simp only [numLt, Bool.and_eq_true, Bool.not_eq_true', decide_eq_true_eq, numKey_zero] at h
  obtain ⟨⟨-, h1⟩, h2⟩ := h
  rw [numKey_eq] at h2
  split at h2 <;> rename_i hs
  · omega
  · exact ⟨by simpa using hs, by omega, h1⟩

/-- A value of at least zero is positive or a zero. -/
theorem nonneg_of_numLe {x : Num64} (h : numLe (numZero false) x = true) :
    (numSign x = false ∨ lowBits x = 0) ∧ numIsNaN x = false := by
  simp only [numLe, Bool.and_eq_true, Bool.not_eq_true', decide_eq_true_eq, numKey_zero] at h
  obtain ⟨⟨-, h1⟩, h2⟩ := h
  rw [numKey_eq] at h2
  refine ⟨?_, h1⟩
  split at h2 <;> rename_i hs
  · right; omega
  · left; simpa using hs

end Sys2Proof.Laws
end

