-- ==== Sys2Proof/Laws/AtMost.lean ====
section
/-!
SUPPORT. Values bounded by an integer: sums, products and quotients stay within the integer bound while that is at
most 2^53, since such an integer is representable.
-/

namespace Sys2Proof.Laws

open Sys2Proof.Machine

/-- `x` is finite and its magnitude is at most the integer `m`. -/
def AtMost (x : Num64) (m : Nat) : Prop := numIsFinite x = true ∧ numMag x ≤ m * unitOne

theorem AtMost.mono {x : Num64} {m n : Nat} (h : AtMost x m) (hmn : m ≤ n) : AtMost x n :=
  ⟨h.1, h.2.trans (Nat.mul_le_mul_right _ hmn)⟩

theorem AtMost.notNaN {x : Num64} {m : Nat} (h : AtMost x m) : numIsNaN x = false := finite_not_nan h.1

theorem MagLe.atMost {x : Num64} {p m : Nat} (h : MagLe x p) (hp : patMag p ≤ m * unitOne) : AtMost x m :=
  ⟨h.finite, h.mag.trans hp⟩

theorem AtMost.magLe {x : Num64} {m p : Nat} (h : AtMost x m) (hp : patMag p = m * unitOne) (hlt : p < infPattern) :
    MagLe x p := by
  refine ⟨hlt, ?_⟩
  have h1 := h.2
  rwa [← hp, numMag_eq, patMag_strictMono.le_iff_le] at h1

theorem atMost_numRound {neg : Bool} {n d m : Nat} (hd : 0 < d) (hm : m ≤ 2 ^ 53) (h : n ≤ m * unitOne * d) :
    AtMost (numRound neg n d) m := by
  obtain ⟨p, hp, hlt⟩ := exists_pattern_of_nat m hm
  rw [← hp] at h
  exact (magLe_numRound hd hlt h).atMost hp.le

theorem atMost_one : AtMost numOne 1 := ⟨finite_one, by rw [numMag_one]; omega⟩

theorem atMost_numOfNat {m : Nat} (hm : m ≤ 2 ^ 53) : AtMost (numOfNat m) m :=
  ⟨numIsFinite_numOfNat hm, (numMag_numOfNat hm).le⟩

theorem AtMost.add {x y : Num64} {a b : Nat} (hx : AtMost x a) (hy : AtMost y b) (hab : a + b ≤ 2 ^ 53) :
    AtMost (numAdd x y) (a + b) := by
  by_cases h0 : numScaled x + numScaled y = 0
  · rw [numAdd_cancel hx.1 hy.1 h0]
    refine ⟨by cases numSign x && numSign y <;> decide, ?_⟩
    rw [(numMag_eq_zero_iff _).2 (by cases numSign x && numSign y <;> decide)]
    exact Nat.zero_le _
  · rw [numAdd_finite hx.1 hy.1 h0]
    refine atMost_numRound Nat.one_pos hab ?_
    have h1 := Int.natAbs_add_le (numScaled x) (numScaled y)
    rw [natAbs_numScaled, natAbs_numScaled] at h1
    have h2 := hx.2
    have h3 := hy.2
    rw [Nat.mul_one, Nat.add_mul]
    omega

theorem AtMost.mul {x y : Num64} {a b : Nat} (hx : AtMost x a) (hy : AtMost y b) (hab : a * b ≤ 2 ^ 53) :
    AtMost (numMul x y) (a * b) := by
  rw [numMul_finite hx.1 hy.1]
  refine atMost_numRound unitOne_pos hab ?_
  calc numMag x * numMag y ≤ (a * unitOne) * (b * unitOne) := Nat.mul_le_mul hx.2 hy.2
    _ = a * b * unitOne * unitOne := by ring

/-- A quotient by a value of at least one keeps the bound. -/
theorem AtMost.div {x y : Num64} {a : Nat} (hx : AtMost x a) (hy : numIsFinite y = true) (h1 : unitOne ≤ numMag y)
    (ha : a ≤ 2 ^ 53) : AtMost (numDiv x y) a := by
  have hu := unitOne_pos
  have h0 : numIsZero y = false := by
    rw [Bool.eq_false_iff, ne_eq, ← numMag_eq_zero_iff]
    omega
  rw [numDiv_finite hx.1 hy h0]
  refine atMost_numRound (by omega) ha ?_
  calc unitOne * numMag x ≤ unitOne * (a * unitOne) := Nat.mul_le_mul_left _ hx.2
    _ = a * unitOne * unitOne := by ring
    _ ≤ a * unitOne * numMag y := Nat.mul_le_mul_left _ h1

/-- Lying between -1 and 1 is being at most one. -/
theorem atMost_one_iff {x : Num64} : AtMost x 1 ↔ numLe (numNeg numOne) x = true ∧ numLe x numOne = true := by
  rw [← magLe_iff_between isBound_one]
  exact ⟨fun h => h.magLe (by rw [patMag_one, Nat.one_mul]) (by decide), fun h => h.atMost (by rw [patMag_one, Nat.one_mul])⟩

/-- A value of at least 0 and at most 1 is at most one. -/
theorem atMost_of_inUnit {x : Num64} (h0 : numLe (numZero false) x = true) (h1 : numLe x numOne = true) : AtMost x 1 := by
  rw [atMost_one_iff]
  refine ⟨?_, h1⟩
  simp only [numLe, Bool.and_eq_true, decide_eq_true_eq] at h0 ⊢
  have e1 : numKey (numZero false) = 0 := numKey_zero
  have e2 : numKey (numNeg numOne) ≤ 0 := by decide
  exact ⟨⟨by decide, h0.1.2⟩, by omega⟩

theorem AtMost.trunc {x : Num64} {m : Nat} (h : AtMost x m) : AtMost (numTrunc x) m := by
  have h1 : MagLe x (lowBits x) := ⟨(numIsFinite_iff x).1 h.1, le_rfl⟩
  exact (magLe_trunc h1).atMost (by rw [← numMag_eq]; exact h.2)

/-- CLAMP to plus or minus 1 of a value that is no NaN. -/
theorem atMost_clamp_one {x : Num64} (hx : numIsNaN x = false) :
    AtMost (numMin (numMax x (numNeg numOne)) numOne) 1 :=
  (magLe_clamp isBound_one hx).atMost (by rw [patMag_one, Nat.one_mul])

/-- CLAMP to plus or minus 32767 of a value that is no NaN. -/
theorem atMost_clamp_32767 {x : Num64} (hx : numIsNaN x = false) :
    AtMost (numMin (numMax x (numNeg (numOfNat 32767))) (numOfNat 32767)) 32767 :=
  (magLe_clamp isBound_32767 hx).atMost (by rw [patMag_32767])

/-- The integer of a value lies within the integer bound. -/
theorem AtMost.toInt {x : Num64} {m : Nat} (h : AtMost x m) : -(m : Int) ≤ numToInt x ∧ numToInt x ≤ m := by
  refine numToInt_range (p := lowBits x) ⟨(numIsFinite_iff x).1 h.1, le_rfl⟩ ?_
  rw [← numMag_eq]
  have := h.2
  have := unitOne_pos
  rw [Nat.add_mul]
  omega

end Sys2Proof.Laws
end

