-- ==== Sys2Proof/Laws/Numerics.lean ====
section
/-!
SUPPORT. The operations of binary64 by name, and what an exact NUMERICS gives.
-/

namespace Sys2Proof.Laws

open Sys2Proof.Machine

/-! ### binary64, operation by operation -/

@[simp] theorem binary64_standsFor (o : OpenOps Num64) : (binary64 o).standsFor = numStandsFor := rfl
@[simp] theorem binary64_asF64 (o : OpenOps Num64) (v : Word) : (binary64 o).asF64 v = v := rfl
@[simp] theorem binary64_ofNat (o : OpenOps Num64) : (binary64 o).ofNat = numOfNat := rfl
@[simp] theorem binary64_tenths (o : OpenOps Num64) : (binary64 o).tenths = numTenths := rfl
@[simp] theorem binary64_twoPi (o : OpenOps Num64) : (binary64 o).twoPi = numTwoPi := rfl
@[simp] theorem binary64_add (o : OpenOps Num64) : (binary64 o).add = numAdd := rfl
@[simp] theorem binary64_sub (o : OpenOps Num64) : (binary64 o).sub = numSub := rfl
@[simp] theorem binary64_mul (o : OpenOps Num64) : (binary64 o).mul = numMul := rfl
@[simp] theorem binary64_div (o : OpenOps Num64) : (binary64 o).div = numDiv := rfl
@[simp] theorem binary64_min (o : OpenOps Num64) : (binary64 o).min = numMin := rfl
@[simp] theorem binary64_max (o : OpenOps Num64) : (binary64 o).max = numMax := rfl
@[simp] theorem binary64_neg (o : OpenOps Num64) : (binary64 o).neg = numNeg := rfl
@[simp] theorem binary64_abs (o : OpenOps Num64) : (binary64 o).abs = numAbs := rfl
@[simp] theorem binary64_floor (o : OpenOps Num64) : (binary64 o).floor = numFloor := rfl
@[simp] theorem binary64_trunc (o : OpenOps Num64) : (binary64 o).trunc = numTrunc := rfl
@[simp] theorem binary64_sign (o : OpenOps Num64) : (binary64 o).sign = numSignum := rfl
@[simp] theorem binary64_lt (o : OpenOps Num64) : (binary64 o).lt = numLt := rfl
@[simp] theorem binary64_le (o : OpenOps Num64) : (binary64 o).le = numLe := rfl
@[simp] theorem binary64_eq (o : OpenOps Num64) : (binary64 o).eq = numEq := rfl
@[simp] theorem binary64_isFinite (o : OpenOps Num64) : (binary64 o).isFinite = numIsFinite := rfl
@[simp] theorem binary64_toInt (o : OpenOps Num64) : (binary64 o).toInt = numToInt := rfl
@[simp] theorem binary64_toOpenOps (o : OpenOps Num64) : (binary64 o).toOpenOps = o := rfl

/-! ### Any exact NUMERICS -/

section Exact

variable {Num : Type} {nx : Numerics Num}

/-- A value stands for one thing. -/
theorem standsFor_unique (h : ExactLaws nx) {x : Num} {v w : NumValue} (hv : nx.standsFor x v) (hw : nx.standsFor x w) :
    v = w := (h.1 x).unique hv hw

/-- To lie within an integer bound is to stand for a real number that does. -/
theorem within_iff (h : ExactLaws nx) {m : Nat} (hm : m < 2 ^ 32) {x : Num} :
    Within nx m x ↔ ∃ a : ℝ, nx.standsFor x (.finite a) ∧ -(m : ℝ) ≤ a ∧ a ≤ m := by
  obtain ⟨hv, ho, hu, -, -, hc, -⟩ := id h
  obtain ⟨v, hx, hv'⟩ := hv x
  have e : ∀ a : ℝ, nx.standsFor x (.finite a) ↔ v = .finite a :=
    fun a => ⟨fun h' => (hv' _ h').symm, fun h' => h' ▸ hx⟩
  have hn := (hu _ _ (hc m hm)).2.1
  unfold Within
  rw [(ho _ _ _ _ hn hx).2.1, (ho _ _ _ _ hx (hc m hm)).2.1]
  simp only [e]
  cases v with
  | nan => simp [valueMap, valueLt, valueEq]
  | inf b => cases b <;> simp [valueMap, valueLt, valueEq]
  | finite a => simp [valueMap, valueLt, valueEq, le_iff_lt_or_eq]

/-- An integer within an integer bound lies within it. -/
theorem within_of_integer (h : ExactLaws nx) {m : Nat} (hm : m < 2 ^ 32) {x : Num} (hx : IntegerWithin nx m x) :
    Within nx m x := by
  obtain ⟨z, hz, h1, h2⟩ := hx
  exact (within_iff h hm).2 ⟨z, hz, by exact_mod_cast h1, by exact_mod_cast h2⟩

/-- TRUNC of a value within an integer bound is an integer within it. -/
theorem integerWithin_trunc (h : ExactLaws nx) {m : Nat} (hm : m < 2 ^ 32) {x : Num} (hx : Within nx m x) :
    IntegerWithin nx m (nx.trunc x) := by
  obtain ⟨a, ha, h1, h2⟩ := (within_iff h hm).1 hx
  have ht := (h.2.2.1 _ _ ha).2.2.2.2
  simp only [valueMap] at ht
  split at ht
  · refine ⟨_, ht, ?_, Int.floor_le_iff.2 (by push_cast; linarith)⟩
    have := Int.floor_nonneg.2 ‹0 ≤ a›
    omega
  · refine ⟨_, ht, Int.le_ceil_iff.2 (by push_cast; linarith), Int.ceil_le.2 (by push_cast; linarith)⟩

/-- CLAMP of a value that is no NaN is the value, or a limit, and lies within the limits. -/
theorem clamp_cases (h : ExactLaws nx) {m : Nat} (hm : m < 2 ^ 32) {x : Num} (hx : ¬ nx.standsFor x .nan) :
    ∃ a : ℝ, nx.standsFor (clamp nx x (nx.neg (nx.ofNat m)) (nx.ofNat m)) (.finite a) ∧ -(m : ℝ) ≤ a ∧ a ≤ m ∧
      (nx.standsFor x (.finite a) ∨ a = m ∨ a = -m) := by
  obtain ⟨hv, ho, hu, -, -, hc, -⟩ := id h
  obtain ⟨v, hxv, -⟩ := hv x
  have hvn : v ≠ .nan := fun e => hx (e ▸ hxv)
  have hm' := hc m hm
  have hn : nx.standsFor (nx.neg (nx.ofNat m)) (.finite (-(m : ℝ))) := (hu _ _ hm').2.1
  have h0 : (0 : ℝ) ≤ m := by positivity
  have hlt := (ho _ _ _ _ hxv hn).1
  have hmax := ((ho _ _ _ _ hxv hn).2.2.2 hvn (by simp)).2
  unfold clamp
  by_cases h1 : nx.lt x (nx.neg (nx.ofNat m)) = true
  · rw [if_pos h1] at hmax
    have hlt2 := (ho _ _ _ _ hm' hmax).1
    have hmin := ((ho _ _ _ _ hmax hm').2.2.2 (by simp) (by simp)).1
    rw [if_neg (fun h' => by have := hlt2.1 h'; simp only [valueLt] at this; linarith)] at hmin
    exact ⟨_, hmin, le_rfl, by linarith, .inr (.inr rfl)⟩
  · rw [if_neg h1] at hmax
    have hlt2 := (ho _ _ _ _ hm' hmax).1
    have hmin := ((ho _ _ _ _ hmax hm').2.2.2 hvn (by simp)).1
    by_cases h2 : nx.lt (nx.ofNat m) (nx.max x (nx.neg (nx.ofNat m))) = true
    · rw [if_pos h2] at hmin
      exact ⟨_, hmin, by linarith, le_rfl, .inr (.inl rfl)⟩
    · rw [if_neg h2] at hmin
      rw [hlt] at h1
      rw [hlt2] at h2
      cases v with
      | nan => exact absurd rfl hvn
      | inf b => cases b <;> simp [valueLt] at h1 h2
      | finite a => exact ⟨a, hmin, not_lt.1 h1, not_lt.1 h2, .inl hxv⟩

/-- CLAMP of a value that is no NaN lies within its limits. -/
theorem within_clamp (h : ExactLaws nx) {m : Nat} (hm : m < 2 ^ 32) {x : Num} (hx : ¬ nx.standsFor x .nan) :
    Within nx m (clamp nx x (nx.neg (nx.ofNat m)) (nx.ofNat m)) := by
  obtain ⟨a, h1, h2, h3, -⟩ := clamp_cases h hm hx
  exact (within_iff h hm).2 ⟨a, h1, h2, h3⟩

/-- FLOOR that is at most an integer has a count that is at most it. -/
theorem countOf_floor_le (h : ExactLaws nx) {x : Num} {m : Nat} (hm : m < 2 ^ 32)
    (hle : nx.le (nx.floor x) (nx.ofNat m) = true) : countOf nx (nx.floor x) ≤ m := by
  obtain ⟨hv, ho, hu, -, hi, hc, -⟩ := id h
  obtain ⟨v, hx, -⟩ := hv x
  have hf := (hu _ _ hx).2.2.2.1
  have none : (∀ a, valueMap (fun a => (⌊a⌋ : ℝ)) id v ≠ .finite a) → countOf nx (nx.floor x) ≤ m := fun hn => by
    unfold countOf
    rw [(hi _).2 fun a ha => hn a (standsFor_unique h hf ha)]
    simp
  cases v with
  | nan => exact none (by simp [valueMap])
  | inf b => exact none (by simp [valueMap])
  | finite a =>
    have hle := (ho _ _ _ _ hf (hc m hm)).2.1.1 hle
    simp only [valueMap, valueLt, valueEq] at hle
    have h1 : (⌊a⌋ : ℝ) ≤ (m : Int) := by
      rcases hle with h' | ⟨-, h'⟩
      · exact_mod_cast h'.le
      · injection h' with h'
        exact_mod_cast h'.le
    unfold countOf
    rw [(hi _).1 _ hf]
    have : ⌊a⌋ ≤ (m : Int) := by exact_mod_cast h1
    omega

end Exact

end Sys2Proof.Laws
end

