-- ==== Sys2Proof/Laws/Validate.lean ====
section
/-!
SUPPORT. What `validate` says: the list of checks it runs, and what a snapshot it passes satisfies.
-/

namespace Sys2Proof.Laws

open Sys2Proof.Machine

theorem firstFailing_eq_none {n : Nat} {l : List Bool} : firstFailing n l = none ↔ ∀ b ∈ l, b = true := by
  induction l generalizing n with
  | nil => simp [firstFailing]
  | cons b l ih =>
    unfold firstFailing
    cases b <;> simp [ih]

/-- The number `firstFailing` reports is that of a check of the list. -/
theorem firstFailing_range {n m : Nat} {l : List Bool} (h : firstFailing n l = some m) : n ≤ m ∧ m < n + l.length := by
  induction l generalizing n with
  | nil => simp [firstFailing] at h
  | cons b l ih =>
    unfold firstFailing at h
    split at h
    · have := ih h
      simp only [List.length_cons]
      omega
    · cases h
      simp

/-- `validateIn` passes exactly the snapshots whose checks all hold. -/
theorem validateIn_eq_none {Num : Type} {nx : Numerics Num} {c : Caps} {p : Params} :
    validateIn nx c p = none ↔
      (∀ b ∈ invalidChecks nx p, b = true) ∧ (∀ b ∈ domainChecks nx c p, b = true) ∧
        ∀ b ∈ capacityChecks nx c p, b = true := by
  simp only [← firstFailing_eq_none (n := 1)]
  unfold validateIn
  cases firstFailing 1 (invalidChecks nx p) <;> cases firstFailing 1 (domainChecks nx c p) <;>
    cases firstFailing 1 (capacityChecks nx c p) <;> simp

/-- A failing snapshot is reported in one of three classes, with the number of a check of that class. -/
theorem validateIn_eq_some {Num : Type} {nx : Numerics Num} {c : Caps} {p : Params} {code : ErrCode} {detail : Byte}
    (h : validateIn nx c p = some (code, detail)) :
    (code = .invalidParams ∧ 1 ≤ detail.toNat ∧ detail.toNat ≤ 5) ∨
    (code = .domain ∧ 1 ≤ detail.toNat ∧ detail.toNat ≤ 19) ∨
    (code = .capacity ∧ 1 ≤ detail.toNat ∧ detail.toNat ≤ 2) := by
  unfold validateIn at h
  split at h
  · rename_i n hn
    cases h
    have := firstFailing_range hn
    have hl : (invalidChecks nx p).length = 5 := rfl
    left
    simp
    omega
  · split at h
    · rename_i n hn
      cases h
      have := firstFailing_range hn
      have hl : (domainChecks nx c p).length = 19 := rfl
      right; left
      simp
      omega
    · split at h
      · rename_i n hn
        cases h
        have := firstFailing_range hn
        have hl : (capacityChecks nx c p).length = 2 := rfl
        right; right
        simp
        omega
      · cases h

/-- The checks hold exactly when the snapshot's fields are as 60_exceptions.md rules R301-R303 say, in their order. -/
theorem validateIn_iff {Num : Type} {nx : Numerics Num} {c : Caps} {p : Params} : validateIn nx c p = none ↔
    (1 ≤ p.sampleRate.toNat ∧ nx.lt (nx.ofNat 0) (nx.asF64 p.duration) = true ∧ p.numOsc = p.levelCount ∧
      nx.lt (nx.asF64 p.band0) (nx.asF64 p.band1) = true ∧ nx.lt (nx.asF64 p.band1) (nx.asF64 p.band2) = true ∧
      (p.bitDepth = 16#32 ∨ p.bitDepth = 24#32)) ∧
    (finitePositive nx (nx.asF64 p.startFreq) = true ∧ finitePositive nx (nx.asF64 p.endFreq) = true ∧
      nx.isFinite (nx.asF64 p.duration) = true ∧ finiteNonneg nx (nx.asF64 p.attack) = true ∧
      finiteNonneg nx (nx.asF64 p.decay) = true ∧ inUnit nx (nx.asF64 p.sustain) = true ∧
      finiteNonneg nx (nx.asF64 p.release) = true ∧ inUnit nx (nx.asF64 p.drive) = true ∧
      finitePositive nx (nx.asF64 p.filterCutoff) = true ∧ inUnit nx (nx.asF64 p.filterResonance) = true ∧
      finiteNonneg nx (nx.asF64 p.sweep) = true ∧ finitePositive nx (nx.asF64 p.pitchDecay) = true ∧
      p.waveform.toNat ≤ 6 ∧ p.noiseType.toNat ≤ 3 ∧ inUnit nx (nx.asF64 p.noiseAmount) = true ∧
      1 ≤ p.numOsc.toNat ∧ (∀ x ∈ checkedLevels nx c p, nx.isFinite x = true) ∧
      finiteNonneg nx (nx.asF64 p.saturatorAmount) = true ∧ finiteNonneg nx (nx.asF64 p.fadeDuration) = true) ∧
    (p.numOsc.toNat ≤ c.maxOsc.toNat ∧ nx.le (nx.floor (sampleSpan nx p)) (nx.ofNat c.maxSamples.toNat) = true) := by
  rw [validateIn_eq_none]
  simp only [invalidChecks, domainChecks, capacityChecks, List.forall_mem_cons, List.not_mem_nil, false_imp_iff,
    implies_true, and_true, Bool.and_eq_true, Bool.or_eq_true, decide_eq_true_eq, beq_iff_eq, List.all_eq_true, and_assoc]
  exact Iff.rfl

/-- A value that is at most an integer has an integer part that is at most it. -/
theorem numToInt_le {x : Num64} {m : Nat} (hm : m ≤ 2 ^ 53) (h : numLe x (numOfNat m) = true) : numToInt x ≤ m := by
  simp only [numLe, Bool.and_eq_true, Bool.not_eq_true', decide_eq_true_eq] at h
  obtain ⟨-, hk⟩ := h
  rw [numKey_eq, numKey_eq, numSign_numOfNat] at hk
  simp only [Bool.false_eq_true, if_false] at hk
  unfold numToInt
  split
  · split
    · generalize numMag x / unitOne = q
      omega
    · rename_i hs
      rw [if_neg hs] at hk
      have h1 : numMag x ≤ numMag (numOfNat m) := by
        rw [numMag_eq, numMag_eq]
        exact patMag_strictMono.monotone (by omega)
      rw [numMag_numOfNat hm] at h1
      have h2 := Nat.div_le_div_right (c := unitOne) h1
      rw [Nat.mul_div_cancel _ unitOne_pos] at h2
      omega
  · omega

end Sys2Proof.Laws
end

