-- ==== Sys2Proof/Laws/Configured.lean ====
section
/-!
SUPPORT. Which NUMERICS a block can have, and what every one of them gives.
-/

namespace Sys2Proof.Laws

open Sys2Proof.Machine

theorem numerics_eq : numerics = binary64 defaultOps := rfl

theorem numericsOf_binary64 {c : Caps} (h : c.numerics = .binary64) : numericsOf c = ⟨Num64, numerics⟩ := by
  unfold numericsOf
  rw [h]

/-- A block has the default NUMERICS, or one that is what the rules require. -/
theorem numericsOf_cases (c : Caps) :
    numericsOf c = ⟨Num64, numerics⟩ ∨ ∃ n : LawfulNumerics, numericsOf c = ⟨n.Num, n.ops⟩ := by
  unfold numericsOf
  split
  · exact .inl rfl
  · split
    · exact .inr ⟨_, rfl⟩
    · exact .inl rfl

/-- What holds of the default and of every NUMERICS that is what the rules require holds of every block's. -/
theorem numericsOf_ind {motive : {Num : Type} → Numerics Num → Prop} (h0 : motive numerics)
    (h1 : ∀ n : LawfulNumerics, motive n.ops) (c : Caps) : motive (numericsOf c).ops := by
  obtain he | ⟨n, he⟩ := numericsOf_cases c
  · rw [he]; exact h0
  · rw [he]; exact h1 n

/-- The open operations of the default are plain ones, or lawful ones. -/
theorem defaultOps_cases : defaultOps = plainOps ∨ ∃ o : LawfulOps, defaultOps = o.ops := by
  unfold defaultOps
  split
  · exact .inr ⟨_, rfl⟩
  · exact .inl rfl

/-- A snapshot that passes has a sample count within the sample memory (41_render.md rule R146). -/
theorem sampleCount_le {c : Caps} {p : Params} (h : validate c p = none) :
    sampleCount (numericsOf c).ops p ≤ c.maxSamples.toNat := by
  have hc := c.maxSamples.isLt
  revert h
  unfold validate
  refine numericsOf_ind (motive := fun nx => validateIn nx c p = none → sampleCount nx p ≤ c.maxSamples.toNat) ?_ ?_ c
  · intro h
    exact Int.toNat_le.2 (numToInt_le (by omega) (validateIn_iff.1 h).2.2.2)
  · intro n h
    exact countOf_floor_le n.exact hc (validateIn_iff.1 h).2.2.2

end Sys2Proof.Laws
end

