-- ==== Sys2Proof/Laws/Memory.lean ====
section
/-!
SUPPORT. The sample memory: every operation that makes one makes it in canonical form, and what it reads as.
-/

namespace Sys2Proof.Laws

open Sys2Proof.Machine

theorem memWf_nil : memWf [] = true := rfl

/-- The first offset of a sample memory that starts at entry i. -/
theorem memOfSamples_head {i : Nat} {ws : List (BitVec 32)} {c : Host.Cell} {rest : List Host.Cell}
    (h : memOfSamples i ws = c :: rest) : c.1 = sampleOffset i := by
  cases ws with
  | nil => simp [memOfSamples] at h
  | cons w ws => simp only [memOfSamples, cellsOfSample, List.cons_append, List.cons.injEq] at h; rw [← h.1]

/-- Writeback makes a memory in canonical form. -/
theorem memWf_memOfSamples (ws : List (BitVec 32)) (i : Nat) : memWf (memOfSamples i ws) = true := by
  induction ws generalizing i with
  | nil => rfl
  | cons w ws ih =>
    simp only [memOfSamples, cellsOfSample, List.cons_append, List.nil_append, memWf, Bool.and_eq_true,
      decide_eq_true_eq]
    refine ⟨by omega, by omega, by omega, ?_⟩
    have hi := ih (i + 1)
    cases hm : memOfSamples (i + 1) ws with
    | nil => rfl
    | cons c rest =>
      have hc := memOfSamples_head hm
      obtain ⟨a, b⟩ := c
      rw [hm] at hi
      simp only [memWf, Bool.and_eq_true, decide_eq_true_eq]
      refine ⟨?_, hi⟩
      simp only [sampleOffset] at hc ⊢
      omega

theorem readByte_append_ne {cells rest : List Host.Cell} {addr : Nat} (h : ∀ c ∈ cells, c.1 ≠ addr) :
    readByte (cells ++ rest) addr = readByte rest addr := by
  induction cells with
  | nil => rfl
  | cons c cells ih =>
    obtain ⟨a, b⟩ := c
    have ha : a ≠ addr := h (a, b) (by simp)
    simp only [List.cons_append, readByte, if_neg ha]
    exact ih fun c hc => h c (by simp [hc])

/-- Byte b of entry j of a sample memory that starts at entry i. -/
theorem readByte_memOfSamples (ws : List (BitVec 32)) (i j b : Nat) (hb : b < 4) (hij : i ≤ j) :
    readByte (memOfSamples i ws) (sampleOffset j + b) = (ws[j - i]?).map (byteOf · b) := by
  induction ws generalizing i with
  | nil => simp [memOfSamples, readByte, unlistedByte]
  | cons w ws ih =>
    rcases Nat.eq_or_lt_of_le hij with rfl | hlt
    · have h4 : b = 0 ∨ b = 1 ∨ b = 2 ∨ b = 3 := by omega
      obtain rfl | rfl | rfl | rfl := h4 <;> simp [memOfSamples, cellsOfSample, readByte]
    · simp only [memOfSamples]
      rw [readByte_append_ne, ih (i + 1) hlt]
      · obtain ⟨k, rfl⟩ : ∃ k, j = i + 1 + k := ⟨j - (i + 1), by omega⟩
        have e1 : i + 1 + k - (i + 1) = k := by omega
        have e2 : i + 1 + k - i = k + 1 := by omega
        rw [e1, e2, List.getElem?_cons_succ]
      · intro c hc
        simp only [cellsOfSample, List.mem_cons, List.not_mem_nil, or_false] at hc
        obtain rfl | rfl | rfl | rfl := hc <;> simp only [sampleOffset, ne_eq] <;> omega

theorem bytes_of_word (w : BitVec 32) : byteOf w 3 ++ byteOf w 2 ++ byteOf w 1 ++ byteOf w 0 = w := by
  apply BitVec.eq_of_getLsbD_eq
  intro k hk
  simp only [byteOf, BitVec.getLsbD_append, BitVec.getLsbD_extractLsb']
  by_cases h0 : k < 8
  · simp [h0]
  · by_cases h1 : k < 16
    · simp [h0, show k - 8 < 8 by omega, show 8 + (k - 8) = k by omega]
    · by_cases h2 : k < 24
      · simp [h0, show ¬ k - 8 < 8 by omega, show k - 8 - 8 < 8 by omega, show 16 + (k - 8 - 8) = k by omega]
      · simp [h0, show ¬ k - 8 < 8 by omega, show ¬ k - 8 - 8 < 8 by omega, show k - 8 - 8 - 8 < 8 by omega,
          show 24 + (k - 8 - 8 - 8) = k by omega]

/-- A completed render's memory holds its words in order, and no other entry. -/
theorem readSample_memOfSamples (ws : List (BitVec 32)) (i : Nat) : readSample (memOfSamples 0 ws) i = ws[i]? := by
  have h := fun b hb => readByte_memOfSamples ws 0 i b hb (Nat.zero_le i)
  have h0 := h 0 (by norm_num)
  have h1 := h 1 (by norm_num)
  have h2 := h 2 (by norm_num)
  have h3 := h 3 (by norm_num)
  simp only [Nat.add_zero, Nat.sub_zero] at h0 h1 h2 h3
  unfold readSample
  rw [h0, h1, h2, h3]
  cases ws[i]? with
  | none => rfl
  | some w => simp only [Option.map_some, bytes_of_word]

@[simp] theorem readSample_nil (i : Nat) : readSample [] i = none := rfl

end Sys2Proof.Laws
end

