-- ==== Sys2Proof/Laws/PerInstr.lean ====
section
/-!
SUPPORT. The per-instruction family `Admitted`: the write that carries an instruction is an access the register window
admits, and its word is well-formed (20_memory.md rule R64, 30_encoding.md rules R90, R94-R100).
-/

namespace Sys2Proof.Laws.Admitted

/-- The instruction is well-formed, and the write that encodes it is admitted by the register window. -/
def Statement (i : Instr) : Prop :=
  i.wellFormed = true ∧ regAdmitted (encode i).off (encode i).width = true

theorem nop : Statement .nop :=
  ⟨rfl, show regAdmitted offCmd .eight = true by decide⟩

theorem render : Statement .render :=
  ⟨rfl, show regAdmitted offCmd .eight = true by decide⟩

theorem clearStatus : Statement .clearStatus :=
  ⟨rfl, show regAdmitted offCmd .eight = true by decide⟩

theorem softReset : Statement .softReset :=
  ⟨rfl, show regAdmitted offCmd .eight = true by decide⟩

theorem waveformSine (ignored : BitVec 32) : Statement (.waveformSine ignored) :=
  ⟨rfl, show regAdmitted offWaveform .eight = true by decide⟩

theorem waveformTriangle (ignored : BitVec 32) : Statement (.waveformTriangle ignored) :=
  ⟨rfl, show regAdmitted offWaveform .eight = true by decide⟩

theorem waveformSawtooth (ignored : BitVec 32) : Statement (.waveformSawtooth ignored) :=
  ⟨rfl, show regAdmitted offWaveform .eight = true by decide⟩

theorem waveformSquare (ignored : BitVec 32) : Statement (.waveformSquare ignored) :=
  ⟨rfl, show regAdmitted offWaveform .eight = true by decide⟩

theorem waveformNoiseWhite (ignored : BitVec 32) : Statement (.waveformNoiseWhite ignored) :=
  ⟨rfl, show regAdmitted offWaveform .eight = true by decide⟩

theorem waveformNoisePink (ignored : BitVec 32) : Statement (.waveformNoisePink ignored) :=
  ⟨rfl, show regAdmitted offWaveform .eight = true by decide⟩

theorem waveformNoiseBrown (ignored : BitVec 32) : Statement (.waveformNoiseBrown ignored) :=
  ⟨rfl, show regAdmitted offWaveform .eight = true by decide⟩

theorem noiseTypeNone (ignored : BitVec 32) : Statement (.noiseTypeNone ignored) :=
  ⟨rfl, show regAdmitted offNoiseType .eight = true by decide⟩

theorem noiseTypeWhite (ignored : BitVec 32) : Statement (.noiseTypeWhite ignored) :=
  ⟨rfl, show regAdmitted offNoiseType .eight = true by decide⟩

theorem noiseTypePink (ignored : BitVec 32) : Statement (.noiseTypePink ignored) :=
  ⟨rfl, show regAdmitted offNoiseType .eight = true by decide⟩

theorem noiseTypeBrown (ignored : BitVec 32) : Statement (.noiseTypeBrown ignored) :=
  ⟨rfl, show regAdmitted offNoiseType .eight = true by decide⟩

theorem bitDepth16 (ignored : BitVec 32) : Statement (.bitDepth16 ignored) :=
  ⟨rfl, show regAdmitted offBitDepth .eight = true by decide⟩

theorem bitDepth24 (ignored : BitVec 32) : Statement (.bitDepth24 ignored) :=
  ⟨rfl, show regAdmitted offBitDepth .eight = true by decide⟩

theorem pitchStep (irqEn : Bool) (ignored : BitVec 62) : Statement (.pitchStep irqEn ignored) :=
  ⟨rfl, show regAdmitted offCtrl .eight = true by decide⟩

theorem pitchSmooth (irqEn : Bool) (ignored : BitVec 62) : Statement (.pitchSmooth irqEn ignored) :=
  ⟨rfl, show regAdmitted offCtrl .eight = true by decide⟩

end Sys2Proof.Laws.Admitted
end

