-- ==== Sys2Proof/Laws/Rounding.lean ====
section
/-!
SUPPORT. What rounding gives: of any exact NUMERICS, a result that rounds lies between the values its exact result lies
between; and the `+ - * /` of binary64 round, its product and quotient changing sign with their first operand.
-/

namespace Sys2Proof.Laws

open Sys2Proof.Machine Sys2Proof.Safety

section Exact

variable {Num : Type} {nx : Numerics Num}

/-- The order of two finite values is that of the numbers they stand for. -/
theorem le_iff_of_finite (h : ExactLaws nx) {x y : Num} {a b : ℝ} (hx : nx.standsFor x (.finite a))
    (hy : nx.standsFor y (.finite b)) : nx.le x y = true ↔ a ≤ b := by
  rw [(h.2.1 _ _ _ _ hx hy).2.1]
  simp [valueLt, valueEq, le_iff_lt_or_eq]

/-- A result that rounds is finite, and lies between any two values its exact result lies between. -/
theorem roundsTo_between (h : ExactLaws nx) {e a b : ℝ} {r x y : Num} (hr : RoundsTo nx e r)
    (hx : nx.standsFor x (.finite a)) (hy : nx.standsFor y (.finite b)) (hae : a ≤ e) (heb : e ≤ b) :
    ∃ c, nx.standsFor r (.finite c) ∧ a ≤ c ∧ c ≤ b := by
  obtain ⟨v, hv, -⟩ := h.1 r
  have h1 := (hr.2 x a hx).1 hae
  have h2 := (hr.2 y b hy).2 heb
  rw [(h.2.1 _ _ _ _ hx hv).2.1] at h1
  rw [(h.2.1 _ _ _ _ hv hy).2.1] at h2
  cases v with
  | nan => exact absurd hv hr.1
  | inf c => cases c <;> simp [valueLt, valueEq] at h1 h2
  | finite c =>
    rw [← (h.2.1 _ _ _ _ hx hv).2.1, le_iff_of_finite h hx hv] at h1
    rw [← (h.2.1 _ _ _ _ hv hy).2.1, le_iff_of_finite h hv hy] at h2
    exact ⟨c, hv, h1, h2⟩

/-- A result that rounds lies within an integer bound if its exact result does. -/
theorem roundsTo_within (h : ExactLaws nx) {m : Nat} (hm : m < 2 ^ 32) {e : ℝ} {r : Num} (hr : RoundsTo nx e r)
    (h1 : -(m : ℝ) ≤ e) (h2 : e ≤ m) : Within nx m r := by
  have hm' := h.2.2.2.2.2.1 m hm
  obtain ⟨c, hc, hc1, hc2⟩ := roundsTo_between h hr (h.2.2.1 _ _ hm').2.1 hm' h1 h2
  exact (within_iff h hm).2 ⟨c, hc, hc1, hc2⟩

end Exact

/-! ### binary64 -/

theorem unitOne_pos_real : (0 : ℝ) < (unitOne : ℝ) := by exact_mod_cast unitOne_pos

/-- A finite `Num64` stands for its magnitude and sign in the unit 2^-1074. -/
theorem numStandsFor_finite {x : Num64} {a : ℝ} :
    numStandsFor x (.finite a) ↔
      numIsFinite x = true ∧ a = (if numSign x then -(numMag x : ℝ) else numMag x) / unitOne := by
  have hu := unitOne_pos_real
  have : (numScaled x : ℝ) = if numSign x then -(numMag x : ℝ) else numMag x := by
    unfold numScaled
    split <;> simp
  rw [numStandsFor, this, eq_div_iff hu.ne']

/-- `numRound` rounds the number it is given. -/
theorem roundsTo_numRound (o : OpenOps Num64) (neg : Bool) {n d : Nat} (hd : 0 < d) :
    RoundsTo (binary64 o) ((if neg then -(n : ℝ) else n) / (d * unitOne)) (numRound neg n d) := by
  obtain ⟨hs, hl⟩ := numRound_parts neg n d
  have hnan : numIsNaN (numRound neg n d) = false := (notNaN_iff _).2 (by rw [hl]; exact roundPattern_le_inf n d)
  refine ⟨by simp [numStandsFor, hnan], fun z b hz => ?_⟩
  obtain ⟨hf, rfl⟩ := numStandsFor_finite.1 hz
  have hu := unitOne_pos_real
  have hd' : (0 : ℝ) < d := by exact_mod_cast hd
  have up : (numMag z : ℝ) * d ≤ n → lowBits z ≤ roundPattern n d := fun h =>
    le_roundPattern hd ((numIsFinite_iff z).1 hf).le (by rw [← numMag_eq]; exact_mod_cast h)
  have down : (n : ℝ) ≤ numMag z * d → roundPattern n d ≤ lowBits z := fun h =>
    roundPattern_le hd (by rw [← numMag_eq]; exact_mod_cast h)
  have hz0 : (numMag z : ℝ) * d ≤ 0 → lowBits z = 0 := fun h => by
    have h' : numMag z * d ≤ 0 := by exact_mod_cast h
    have h0 : numMag z = 0 := (Nat.mul_eq_zero.1 (Nat.le_zero.1 h')).resolve_right hd.ne'
    exact (numIsZero_iff z).1 ((numMag_eq_zero_iff z).1 h0)
  have hn0 : (n : ℝ) ≤ 0 → roundPattern n d = 0 := fun h => by
    have h' : n ≤ 0 := by exact_mod_cast h
    exact Nat.le_zero.1 (roundPattern_le (p := 0) hd (by omega))
  have n0 : (0 : ℝ) ≤ n := by positivity
  have m0 : (0 : ℝ) ≤ (numMag z : ℝ) * d := by positivity
  have e1 : ∀ p q : ℝ, p / unitOne ≤ q / (d * unitOne) ↔ p * d ≤ q := fun p q => by
    rw [← div_div, div_le_div_iff_of_pos_right hu, le_div_iff₀ hd']
  have e2 : ∀ p q : ℝ, q / (d * unitOne) ≤ p / unitOne ↔ q ≤ p * d := fun p q => by
    rw [← div_div, div_le_div_iff_of_pos_right hu, div_le_iff₀ hd']
  simp only [binary64_le, numLe, finite_not_nan hf, hnan, Bool.not_false, Bool.true_and, decide_eq_true_eq, numKey_eq,
    hs, hl, e1, e2]
  cases neg <;> cases numSign z <;> simp only [if_true, if_false, Bool.false_eq_true] <;> constructor <;> intro h
  · have := up h; omega
  · have := down h; omega
  · omega
  · have := hn0 (by nlinarith); have := hz0 (by nlinarith); omega
  · have := hn0 (by nlinarith); have := hz0 (by nlinarith); omega
  · omega
  · have := down (by nlinarith); omega
  · have := up (by nlinarith); omega

/-- The sum of finite values rounds the exact sum. -/
theorem roundsTo_numAdd (o : OpenOps Num64) {x y : Num64} (hx : numIsFinite x = true) (hy : numIsFinite y = true) :
    RoundsTo (binary64 o) (((numScaled x + numScaled y : Int) : ℝ) / unitOne) (numAdd x y) := by
  by_cases h0 : numScaled x + numScaled y = 0
  · have hz := roundsTo_numRound o (numSign x && numSign y) (n := 0) (d := 1) (by norm_num)
    have e : numRound (numSign x && numSign y) 0 1 = numZero (numSign x && numSign y) := by
      cases numSign x && numSign y <;> decide +kernel
    rw [numAdd_cancel hx hy h0, h0, ← e]
    convert hz using 1
    simp
  · rw [numAdd_finite hx hy h0]
    convert roundsTo_numRound o _ (by norm_num : 0 < 1) using 1
    rw [Nat.cast_natAbs, Nat.cast_one, one_mul]
    by_cases h : numScaled x + numScaled y < 0
    · simp [h, abs_of_neg h]
    · simp [h, abs_of_nonneg (not_lt.1 h)]

/-- `+ - * /` of binary64 round (00_scope.md rule R9). -/
theorem arithmeticRounds_binary64 (o : OpenOps Num64) : ArithmeticRounds (binary64 o) := by
  intro x y a b ha hb
  have hsum := fun w hw => roundsTo_numAdd o (y := w) ha.1 hw
  have hu := unitOne_pos_real
  have hsx : (numScaled x : ℝ) = a * unitOne := ha.2.symm
  have hsy : (numScaled y : ℝ) = b * unitOne := hb.2.symm
  obtain ⟨hx, ea⟩ := numStandsFor_finite.1 ha
  obtain ⟨hy, eb⟩ := numStandsFor_finite.1 hb
  refine ⟨?_, ?_, ?_, fun hne => ?_⟩
  · rw [binary64_add]
    convert hsum y hy using 1
    push_cast
    rw [hsx, hsy]
    field_simp
  · rw [binary64_sub, numSub]
    convert hsum (numNeg y) (by rw [numIsFinite_numNeg, hy]) using 1
    have : numScaled (numNeg y) = -numScaled y := by
      unfold numScaled
      rw [numSign_numNeg, numMag_numNeg]
      cases numSign y <;> simp
    rw [this]
    push_cast
    rw [hsx, hsy]
    field_simp
    ring
  · rw [binary64_mul, numMul_finite hx hy]
    convert roundsTo_numRound o _ unitOne_pos using 1
    rw [ea, eb, div_mul_div_comm]
    congr 1
    push_cast
    cases numSign x <;> cases numSign y <;> simp
  · have hz : numIsZero y = false := by
      rw [Bool.eq_false_iff, ne_eq, ← numMag_eq_zero_iff]
      exact fun h => hne (by rw [eb, h]; simp)
    have hm : 0 < numMag y := Nat.pos_of_ne_zero fun h => by rw [(numMag_eq_zero_iff y).1 h] at hz; cases hz
    have hm' : (0 : ℝ) < numMag y := by exact_mod_cast hm
    rw [binary64_div, numDiv_finite hx hy hz]
    convert roundsTo_numRound o _ hm using 1
    rw [ea, eb]
    push_cast
    cases numSign x <;> cases numSign y <;> simp <;> field_simp

/-! ### Signs -/

/-- Two values of opposite sign: both NaN, or the same bits below the sign, and the other sign unless they are zero. -/
def Opposite (x y : Num64) : Prop :=
  (numIsNaN x = true ∧ numIsNaN y = true) ∨
  (lowBits y = lowBits x ∧ lowBits x ≤ infPattern ∧ (numSign y = !numSign x ∨ lowBits x = 0))

/-- A value that stands for the opposite of another is opposite to it. -/
theorem opposite_of_standsFor {x y : Num64} {v : NumValue} (hx : numStandsFor x v)
    (hy : numStandsFor y (valueMap (fun a => -a) not v)) : Opposite x y := by
  cases v with
  | nan => exact .inl ⟨hx, hy⟩
  | inf b =>
    obtain ⟨h1, h2⟩ := hx
    obtain ⟨h3, h4⟩ := hy
    rw [numIsInf_iff] at h1 h3
    exact .inr ⟨by rw [h1, h3], h1.le, .inl (by rw [h2, h4])⟩
  | finite a =>
    obtain ⟨h1, h2⟩ := hx
    obtain ⟨h3, h4⟩ := hy
    have hs : numScaled y = -numScaled x := by
      have : (numScaled y : ℝ) = -numScaled x := by rw [← h4, ← h2]; ring
      exact_mod_cast this
    have hm : numMag y = numMag x := by rw [← natAbs_numScaled, hs, Int.natAbs_neg, natAbs_numScaled]
    rw [numMag_eq, numMag_eq] at hm
    have hl := patMag_strictMono.injective hm
    refine .inr ⟨hl, ((numIsFinite_iff x).1 h1).le, ?_⟩
    by_cases h0 : lowBits x = 0
    · exact .inr h0
    · have : numMag x ≠ 0 := fun h => h0 ((numIsZero_iff x).1 ((numMag_eq_zero_iff x).1 h))
      unfold numScaled at hs
      rw [numMag_eq y, hm, ← numMag_eq x] at hs
      cases hx' : numSign x <;> cases hy' : numSign y <;> simp only [hx', hy'] at hs <;> simp at hs ⊢ <;> omega

/-- What is opposite to a value stands for its opposite. -/
theorem Opposite.standsFor {x y : Num64} {v : NumValue} (h : Opposite x y) (hx : numStandsFor x v) :
    numStandsFor y (valueMap (fun a => -a) not v) := by
  cases v with
  | nan =>
    rcases h with h | ⟨h1, h2, -⟩
    · exact h.2
    · have := (numIsNaN_iff x).1 hx
      omega
  | inf b =>
    have hi := (numIsInf_iff x).1 hx.1
    rcases h with h | ⟨h1, -, h3⟩
    · have := (numIsNaN_iff x).1 h.1
      omega
    · refine ⟨(numIsInf_iff y).2 (by rw [h1, hi]), ?_⟩
      rcases h3 with h3 | h3
      · rw [h3, hx.2]
      · rw [hi] at h3
        cases h3
  | finite a =>
    obtain ⟨hf, ha⟩ := hx
    rcases h with h | ⟨h1, -, h3⟩
    · rw [finite_not_nan hf] at h
      cases h.1
    · refine ⟨by rw [numIsFinite_iff, h1]; exact (numIsFinite_iff x).1 hf, ?_⟩
      have hm : numMag y = numMag x := by rw [numMag_eq, h1, ← numMag_eq]
      have hs : numScaled y = -numScaled x := by
        unfold numScaled
        rw [hm]
        rcases h3 with h3 | h3
        · rw [h3]
          cases numSign x <;> simp
        · rw [show numMag x = 0 by rw [numMag_eq, h3]; rfl]
          simp
      rw [hs]
      push_cast
      rw [← ha]
      ring

theorem opposite_nan : Opposite numNaN numNaN := .inl (by decide)

theorem opposite_inf (b : Bool) : Opposite (numInf b) (numInf !b) := by
  refine .inr ?_
  cases b <;> decide

theorem opposite_zero (b b' : Bool) : Opposite (numZero b) (numZero b') := by
  refine .inr ?_
  cases b <;> cases b' <;> decide

/-- Rounding with the other sign, or rounding zero, gives the opposite. -/
theorem opposite_numRound {neg neg' : Bool} {n d : Nat} (hd : 0 < d) (h : neg' = !neg ∨ n = 0) :
    Opposite (numRound neg n d) (numRound neg' n d) := by
  refine .inr ⟨by rw [(numRound_parts _ _ _).2, (numRound_parts _ _ _).2], ?_, ?_⟩
  · rw [(numRound_parts _ _ _).2]
    exact roundPattern_le_inf n d
  · rw [(numRound_parts _ _ _).1, (numRound_parts _ _ _).1, (numRound_parts _ _ _).2]
    exact h.imp id fun h0 => Nat.le_zero.1 (roundPattern_le (p := 0) hd (by omega))

/-- Product and quotient of binary64 change sign with their first operand. -/
theorem signsFollow_binary64 (o : OpenOps Num64) : SignsFollow (binary64 o) := by
  intro x x' y v w hx hx'
  have hxx := opposite_of_standsFor hx hx'
  simp only [binary64_standsFor, binary64_mul, binary64_div]
  suffices Opposite (numMul x y) (numMul x' y) ∧ Opposite (numDiv x y) (numDiv x' y) from
    ⟨fun h => this.1.standsFor h, fun h => this.2.standsFor h⟩
  rcases hxx with ⟨h, h'⟩ | ⟨hl, hle, hs⟩
  · simp [numMul, numDiv, h, h', opposite_nan]
  · have n : numIsNaN x = false ∧ numIsNaN x' = false := ⟨(notNaN_iff x).2 hle, (notNaN_iff x').2 (by omega)⟩
    have i : numIsInf x' = numIsInf x := by rw [Bool.eq_iff_iff, numIsInf_iff, numIsInf_iff, hl]
    have z : numIsZero x' = numIsZero x := by rw [Bool.eq_iff_iff, numIsZero_iff, numIsZero_iff, hl]
    have m : numMag x' = numMag x := by rw [numMag_eq, numMag_eq, hl]
    have hneg : (numSign x' != numSign y) = (!(numSign x != numSign y)) ∨ numIsZero x = true := by
      rcases hs with hs | hs
      · left
        rw [hs]
        cases numSign x <;> cases numSign y <;> rfl
      · exact .inr ((numIsZero_iff x).2 hs)
    have hzi : numIsZero x = true → numIsInf x = false := fun h => by
      rw [numIsZero_iff] at h
      rw [Bool.eq_false_iff, ne_eq, numIsInf_iff, h]
      decide
    have hzm : (numSign x' != numSign y) = (!(numSign x != numSign y)) ∨ numMag x = 0 :=
      hneg.imp_right (numMag_eq_zero_iff x).2
    unfold numMul numDiv
    simp only [n, i, z, m]
    generalize (numSign x' != numSign y) = s' at *
    generalize (numSign x != numSign y) = s at *
    constructor
    · repeat' split
      all_goals first | with_reducible exact opposite_nan | skip
      · rcases hneg with rfl | h
        · exact opposite_inf _
        · simp_all
      · rcases hneg with rfl | h
        · exact opposite_inf _
        · simp_all
      · exact opposite_numRound unitOne_pos (hzm.imp_right fun h => by rw [h, Nat.zero_mul])
    · repeat' split
      all_goals first | with_reducible exact opposite_nan | with_reducible exact opposite_zero _ _ | skip
      · rcases hneg with rfl | h
        · exact opposite_inf _
        · simp_all
      · rcases hneg with rfl | h
        · exact opposite_inf _
        · simp_all
      · rename_i hy
        have hm : 0 < numMag y := Nat.pos_of_ne_zero fun h => hy ((numMag_eq_zero_iff y).1 h)
        exact opposite_numRound hm (hzm.imp_right fun h => by rw [h, Nat.mul_zero])

end Sys2Proof.Laws
end

