-- ==== Sys2Proof/Laws/State.lean ====
section
/-!
SUPPORT. One lemma per field of `State` per shared update, each true by unfolding, so that no later proof unfolds a
record update.
-/

namespace Sys2Proof.Laws

open Sys2Proof.Machine

/-! ### `setOverrun` -/

@[simp] theorem setOverrun_params (s : State) : (setOverrun s).params = s.params := rfl
@[simp] theorem setOverrun_irqEn (s : State) : (setOverrun s).irqEn = s.irqEn := rfl
@[simp] theorem setOverrun_status (s : State) : (setOverrun s).status = { s.status with overrun := true } := rfl
@[simp] theorem setOverrun_engine (s : State) : (setOverrun s).engine = s.engine := rfl
@[simp] theorem setOverrun_mem (s : State) : (setOverrun s).mem = s.mem := rfl
@[simp] theorem setOverrun_caps (s : State) : (setOverrun s).caps = s.caps := rfl
@[simp] theorem setOverrun_inbox (s : State) : (setOverrun s).inbox = s.inbox := rfl
@[simp] theorem setOverrun_lastRead (s : State) : (setOverrun s).lastRead = s.lastRead := rfl
@[simp] theorem setOverrun_freeCount (s : State) : (setOverrun s).freeCount = s.freeCount := rfl

/-! ### `raiseErr` -/

@[simp] theorem raiseErr_params (code : ErrCode) (detail : Byte) (s : State) :
    (raiseErr code detail s).params =
    s.params := rfl
@[simp] theorem raiseErr_irqEn (code : ErrCode) (detail : Byte) (s : State) :
    (raiseErr code detail s).irqEn =
    s.irqEn := rfl
@[simp] theorem raiseErr_status (code : ErrCode) (detail : Byte) (s : State) :
    (raiseErr code detail s).status =
    { s.status with err := true, errCode := errByte code, errDetail := detail } := rfl
@[simp] theorem raiseErr_engine (code : ErrCode) (detail : Byte) (s : State) :
    (raiseErr code detail s).engine =
    s.engine := rfl
@[simp] theorem raiseErr_mem (code : ErrCode) (detail : Byte) (s : State) :
    (raiseErr code detail s).mem =
    s.mem := rfl
@[simp] theorem raiseErr_caps (code : ErrCode) (detail : Byte) (s : State) :
    (raiseErr code detail s).caps =
    s.caps := rfl
@[simp] theorem raiseErr_inbox (code : ErrCode) (detail : Byte) (s : State) :
    (raiseErr code detail s).inbox =
    s.inbox := rfl
@[simp] theorem raiseErr_lastRead (code : ErrCode) (detail : Byte) (s : State) :
    (raiseErr code detail s).lastRead =
    s.lastRead := rfl
@[simp] theorem raiseErr_freeCount (code : ErrCode) (detail : Byte) (s : State) :
    (raiseErr code detail s).freeCount =
    s.freeCount := rfl

/-! ### `clearStatus` -/

@[simp] theorem clearStatus_params (s : State) : (clearStatus s).params = s.params := rfl
@[simp] theorem clearStatus_irqEn (s : State) : (clearStatus s).irqEn = s.irqEn := rfl
@[simp] theorem clearStatus_status (s : State) :
    (clearStatus s).status =
    { s.status with done := false, err := false, overrun := false, errCode := 0#8, errDetail := 0#8 } := rfl
@[simp] theorem clearStatus_engine (s : State) : (clearStatus s).engine = s.engine := rfl
@[simp] theorem clearStatus_mem (s : State) : (clearStatus s).mem = s.mem := rfl
@[simp] theorem clearStatus_caps (s : State) : (clearStatus s).caps = s.caps := rfl
@[simp] theorem clearStatus_inbox (s : State) : (clearStatus s).inbox = s.inbox := rfl
@[simp] theorem clearStatus_lastRead (s : State) : (clearStatus s).lastRead = s.lastRead := rfl
@[simp] theorem clearStatus_freeCount (s : State) : (clearStatus s).freeCount = s.freeCount := rfl

/-! ### `abortNonfinite` -/

@[simp] theorem abortNonfinite_params (s : State) : (abortNonfinite s).params = s.params := rfl
@[simp] theorem abortNonfinite_irqEn (s : State) : (abortNonfinite s).irqEn = s.irqEn := rfl
@[simp] theorem abortNonfinite_status (s : State) :
    (abortNonfinite s).status =
    { s.status with
      busy := false, done := false, err := true, errCode := errByte .nonfinite, errDetail := 0#8, bps := 0#4,
      samples := 0#32 } := rfl
@[simp] theorem abortNonfinite_engine (s : State) : (abortNonfinite s).engine = .idle := rfl
@[simp] theorem abortNonfinite_mem (s : State) : (abortNonfinite s).mem = [] := rfl
@[simp] theorem abortNonfinite_caps (s : State) : (abortNonfinite s).caps = s.caps := rfl
@[simp] theorem abortNonfinite_inbox (s : State) : (abortNonfinite s).inbox = s.inbox := rfl
@[simp] theorem abortNonfinite_lastRead (s : State) : (abortNonfinite s).lastRead = s.lastRead := rfl
@[simp] theorem abortNonfinite_freeCount (s : State) : (abortNonfinite s).freeCount = s.freeCount := rfl

/-! ### `accept` -/

@[simp] theorem accept_params (p : Params) (s : State) : (accept p s).params = s.params := rfl
@[simp] theorem accept_irqEn (p : Params) (s : State) : (accept p s).irqEn = s.irqEn := rfl
@[simp] theorem accept_status (p : Params) (s : State) :
    (accept p s).status =
    { s.status with
      busy := true, done := false, err := false, errCode := 0#8, errDetail := 0#8,
      bps := BitVec.ofNat 4 (asU32 p.bitDepth / 8)
      samples := BitVec.ofNat 32 (sampleCount (numericsOf s.caps).ops p) } := rfl
@[simp] theorem accept_engine (p : Params) (s : State) :
    (accept p s).engine =
    .running p (Config.renderLatency s.freeCount) := rfl
@[simp] theorem accept_mem (p : Params) (s : State) : (accept p s).mem = [] := rfl
@[simp] theorem accept_caps (p : Params) (s : State) : (accept p s).caps = s.caps := rfl
@[simp] theorem accept_inbox (p : Params) (s : State) : (accept p s).inbox = s.inbox := rfl
@[simp] theorem accept_lastRead (p : Params) (s : State) : (accept p s).lastRead = s.lastRead := rfl
@[simp] theorem accept_freeCount (p : Params) (s : State) : (accept p s).freeCount = s.freeCount + 1 := rfl

/-! ### `complete` -/

@[simp] theorem complete_params (ws : List (BitVec 32)) (s : State) : (complete ws s).params = s.params := rfl
@[simp] theorem complete_irqEn (ws : List (BitVec 32)) (s : State) : (complete ws s).irqEn = s.irqEn := rfl
@[simp] theorem complete_status (ws : List (BitVec 32)) (s : State) :
    (complete ws s).status =
    { s.status with busy := false, done := true } := rfl
@[simp] theorem complete_engine (ws : List (BitVec 32)) (s : State) : (complete ws s).engine = .idle := rfl
@[simp] theorem complete_mem (ws : List (BitVec 32)) (s : State) : (complete ws s).mem = memOfSamples 0 ws := rfl
@[simp] theorem complete_caps (ws : List (BitVec 32)) (s : State) : (complete ws s).caps = s.caps := rfl
@[simp] theorem complete_inbox (ws : List (BitVec 32)) (s : State) : (complete ws s).inbox = s.inbox := rfl
@[simp] theorem complete_lastRead (ws : List (BitVec 32)) (s : State) : (complete ws s).lastRead = s.lastRead := rfl
@[simp] theorem complete_freeCount (ws : List (BitVec 32)) (s : State) :
    (complete ws s).freeCount =
    s.freeCount := rfl

/-! ### `resetBlock` -/

@[simp] theorem resetBlock_params (s : State) : (resetBlock s).params = Params.reset s.caps.maxOsc.toNat := rfl
@[simp] theorem resetBlock_irqEn (s : State) : (resetBlock s).irqEn = false := rfl
@[simp] theorem resetBlock_status (s : State) : (resetBlock s).status = Status.reset := rfl
@[simp] theorem resetBlock_engine (s : State) : (resetBlock s).engine = .idle := rfl
@[simp] theorem resetBlock_mem (s : State) : (resetBlock s).mem = [] := rfl
@[simp] theorem resetBlock_caps (s : State) : (resetBlock s).caps = s.caps := rfl
@[simp] theorem resetBlock_inbox (s : State) : (resetBlock s).inbox = s.inbox := rfl
@[simp] theorem resetBlock_lastRead (s : State) : (resetBlock s).lastRead = s.lastRead := rfl
@[simp] theorem resetBlock_freeCount (s : State) : (resetBlock s).freeCount = s.freeCount := rfl

/-! ### `storeU32` -/

@[simp] theorem storeU32_params (r : U32Reg) (v : Word) (s : State) :
    (storeU32 r v s).params =
    setU32 r (v.extractLsb' 0 32) s.params := rfl
@[simp] theorem storeU32_irqEn (r : U32Reg) (v : Word) (s : State) : (storeU32 r v s).irqEn = s.irqEn := rfl
@[simp] theorem storeU32_status (r : U32Reg) (v : Word) (s : State) : (storeU32 r v s).status = s.status := rfl
@[simp] theorem storeU32_engine (r : U32Reg) (v : Word) (s : State) : (storeU32 r v s).engine = s.engine := rfl
@[simp] theorem storeU32_mem (r : U32Reg) (v : Word) (s : State) : (storeU32 r v s).mem = s.mem := rfl
@[simp] theorem storeU32_caps (r : U32Reg) (v : Word) (s : State) : (storeU32 r v s).caps = s.caps := rfl
@[simp] theorem storeU32_inbox (r : U32Reg) (v : Word) (s : State) : (storeU32 r v s).inbox = s.inbox := rfl
@[simp] theorem storeU32_lastRead (r : U32Reg) (v : Word) (s : State) : (storeU32 r v s).lastRead = s.lastRead := rfl
@[simp] theorem storeU32_freeCount (r : U32Reg) (v : Word) (s : State) :
    (storeU32 r v s).freeCount =
    s.freeCount := rfl

/-! ### `storeF64` -/

@[simp] theorem storeF64_params (r : F64Reg) (v : Word) (s : State) :
    (storeF64 r v s).params =
    setF64 r v s.params := rfl
@[simp] theorem storeF64_irqEn (r : F64Reg) (v : Word) (s : State) : (storeF64 r v s).irqEn = s.irqEn := rfl
@[simp] theorem storeF64_status (r : F64Reg) (v : Word) (s : State) : (storeF64 r v s).status = s.status := rfl
@[simp] theorem storeF64_engine (r : F64Reg) (v : Word) (s : State) : (storeF64 r v s).engine = s.engine := rfl
@[simp] theorem storeF64_mem (r : F64Reg) (v : Word) (s : State) : (storeF64 r v s).mem = s.mem := rfl
@[simp] theorem storeF64_caps (r : F64Reg) (v : Word) (s : State) : (storeF64 r v s).caps = s.caps := rfl
@[simp] theorem storeF64_inbox (r : F64Reg) (v : Word) (s : State) : (storeF64 r v s).inbox = s.inbox := rfl
@[simp] theorem storeF64_lastRead (r : F64Reg) (v : Word) (s : State) : (storeF64 r v s).lastRead = s.lastRead := rfl
@[simp] theorem storeF64_freeCount (r : F64Reg) (v : Word) (s : State) :
    (storeF64 r v s).freeCount =
    s.freeCount := rfl

/-! ### `storeLevel` -/

@[simp] theorem storeLevel_params (k : Nat) (v : Word) (s : State) :
    (storeLevel k v s).params =
    setLevel k v s.params := rfl
@[simp] theorem storeLevel_irqEn (k : Nat) (v : Word) (s : State) : (storeLevel k v s).irqEn = s.irqEn := rfl
@[simp] theorem storeLevel_status (k : Nat) (v : Word) (s : State) : (storeLevel k v s).status = s.status := rfl
@[simp] theorem storeLevel_engine (k : Nat) (v : Word) (s : State) : (storeLevel k v s).engine = s.engine := rfl
@[simp] theorem storeLevel_mem (k : Nat) (v : Word) (s : State) : (storeLevel k v s).mem = s.mem := rfl
@[simp] theorem storeLevel_caps (k : Nat) (v : Word) (s : State) : (storeLevel k v s).caps = s.caps := rfl
@[simp] theorem storeLevel_inbox (k : Nat) (v : Word) (s : State) : (storeLevel k v s).inbox = s.inbox := rfl
@[simp] theorem storeLevel_lastRead (k : Nat) (v : Word) (s : State) : (storeLevel k v s).lastRead = s.lastRead := rfl
@[simp] theorem storeLevel_freeCount (k : Nat) (v : Word) (s : State) :
    (storeLevel k v s).freeCount =
    s.freeCount := rfl

/-! ### `storeSeed` -/

@[simp] theorem storeSeed_params (v : Word) (s : State) : (storeSeed v s).params = { s.params with seed := v } := rfl
@[simp] theorem storeSeed_irqEn (v : Word) (s : State) : (storeSeed v s).irqEn = s.irqEn := rfl
@[simp] theorem storeSeed_status (v : Word) (s : State) : (storeSeed v s).status = s.status := rfl
@[simp] theorem storeSeed_engine (v : Word) (s : State) : (storeSeed v s).engine = s.engine := rfl
@[simp] theorem storeSeed_mem (v : Word) (s : State) : (storeSeed v s).mem = s.mem := rfl
@[simp] theorem storeSeed_caps (v : Word) (s : State) : (storeSeed v s).caps = s.caps := rfl
@[simp] theorem storeSeed_inbox (v : Word) (s : State) : (storeSeed v s).inbox = s.inbox := rfl
@[simp] theorem storeSeed_lastRead (v : Word) (s : State) : (storeSeed v s).lastRead = s.lastRead := rfl
@[simp] theorem storeSeed_freeCount (v : Word) (s : State) : (storeSeed v s).freeCount = s.freeCount := rfl

/-! ### `storeCtrl` -/

@[simp] theorem storeCtrl_params (v : Word) (s : State) :
    (storeCtrl v s).params =
    { s.params with smooth := v.getLsbD 0 } := rfl
@[simp] theorem storeCtrl_irqEn (v : Word) (s : State) : (storeCtrl v s).irqEn = v.getLsbD 1 := rfl
@[simp] theorem storeCtrl_status (v : Word) (s : State) : (storeCtrl v s).status = s.status := rfl
@[simp] theorem storeCtrl_engine (v : Word) (s : State) : (storeCtrl v s).engine = s.engine := rfl
@[simp] theorem storeCtrl_mem (v : Word) (s : State) : (storeCtrl v s).mem = s.mem := rfl
@[simp] theorem storeCtrl_caps (v : Word) (s : State) : (storeCtrl v s).caps = s.caps := rfl
@[simp] theorem storeCtrl_inbox (v : Word) (s : State) : (storeCtrl v s).inbox = s.inbox := rfl
@[simp] theorem storeCtrl_lastRead (v : Word) (s : State) : (storeCtrl v s).lastRead = s.lastRead := rfl
@[simp] theorem storeCtrl_freeCount (v : Word) (s : State) : (storeCtrl v s).freeCount = s.freeCount := rfl

/-! ### `answerRead` -/

@[simp] theorem answerRead_params (v : Word) (s : State) : (answerRead v s).params = s.params := rfl
@[simp] theorem answerRead_irqEn (v : Word) (s : State) : (answerRead v s).irqEn = s.irqEn := rfl
@[simp] theorem answerRead_status (v : Word) (s : State) : (answerRead v s).status = s.status := rfl
@[simp] theorem answerRead_engine (v : Word) (s : State) : (answerRead v s).engine = s.engine := rfl
@[simp] theorem answerRead_mem (v : Word) (s : State) : (answerRead v s).mem = s.mem := rfl
@[simp] theorem answerRead_caps (v : Word) (s : State) : (answerRead v s).caps = s.caps := rfl
@[simp] theorem answerRead_inbox (v : Word) (s : State) : (answerRead v s).inbox = s.inbox := rfl
@[simp] theorem answerRead_lastRead (v : Word) (s : State) : (answerRead v s).lastRead = some v := rfl
@[simp] theorem answerRead_freeCount (v : Word) (s : State) : (answerRead v s).freeCount = s.freeCount := rfl

/-! ### `takeDraw` -/

@[simp] theorem takeDraw_params (s : State) : (takeDraw s).2.params = s.params := rfl
@[simp] theorem takeDraw_irqEn (s : State) : (takeDraw s).2.irqEn = s.irqEn := rfl
@[simp] theorem takeDraw_status (s : State) : (takeDraw s).2.status = s.status := rfl
@[simp] theorem takeDraw_engine (s : State) : (takeDraw s).2.engine = s.engine := rfl
@[simp] theorem takeDraw_mem (s : State) : (takeDraw s).2.mem = s.mem := rfl
@[simp] theorem takeDraw_caps (s : State) : (takeDraw s).2.caps = s.caps := rfl
@[simp] theorem takeDraw_inbox (s : State) : (takeDraw s).2.inbox = s.inbox := rfl
@[simp] theorem takeDraw_lastRead (s : State) : (takeDraw s).2.lastRead = s.lastRead := rfl
@[simp] theorem takeDraw_freeCount (s : State) : (takeDraw s).2.freeCount = s.freeCount + 1 := rfl

/-! ### `tickEngine`, `storeReg` and `deferEngine` -/

@[simp] theorem tickEngine_params (s : State) : (tickEngine s).params = s.params := by
  unfold tickEngine; split <;> rfl
@[simp] theorem tickEngine_irqEn (s : State) : (tickEngine s).irqEn = s.irqEn := by
  unfold tickEngine; split <;> rfl
@[simp] theorem tickEngine_status (s : State) : (tickEngine s).status = s.status := by
  unfold tickEngine; split <;> rfl
@[simp] theorem tickEngine_mem (s : State) : (tickEngine s).mem = s.mem := by
  unfold tickEngine; split <;> rfl
@[simp] theorem tickEngine_caps (s : State) : (tickEngine s).caps = s.caps := by
  unfold tickEngine; split <;> rfl
@[simp] theorem tickEngine_inbox (s : State) : (tickEngine s).inbox = s.inbox := by
  unfold tickEngine; split <;> rfl
@[simp] theorem tickEngine_lastRead (s : State) : (tickEngine s).lastRead = s.lastRead := by
  unfold tickEngine; split <;> rfl
@[simp] theorem tickEngine_freeCount (s : State) : (tickEngine s).freeCount = s.freeCount := by
  unfold tickEngine; split <;> rfl

theorem tickEngine_idle {s : State} (h : s.engine = .idle) : tickEngine s = s := by
  unfold tickEngine; rw [h]

theorem tickEngine_running {s : State} {p : Params} {left : Nat} (h : s.engine = .running p (left + 1)) :
    tickEngine s = { s with engine := .running p left } := by
  unfold tickEngine; rw [h]

theorem engineDue_eq_some {s : State} {p : Params} : engineDue s = some p ↔ s.engine = .running p 0 := by
  unfold engineDue
  split <;> rename_i h <;> rw [h] <;> simp

theorem engineDue_eq_none {s : State} : engineDue s = none ↔ ∀ p, s.engine ≠ .running p 0 := by
  unfold engineDue
  split <;> rename_i h <;> rw [h] <;> simp

@[simp] theorem storeReg_status (r : Reg) (v : Word) (s : State) : (storeReg r v s).status = s.status := by
  cases r <;> rfl
@[simp] theorem storeReg_engine (r : Reg) (v : Word) (s : State) : (storeReg r v s).engine = s.engine := by
  cases r <;> rfl
@[simp] theorem storeReg_mem (r : Reg) (v : Word) (s : State) : (storeReg r v s).mem = s.mem := by
  cases r <;> rfl
@[simp] theorem storeReg_caps (r : Reg) (v : Word) (s : State) : (storeReg r v s).caps = s.caps := by
  cases r <;> rfl
@[simp] theorem storeReg_inbox (r : Reg) (v : Word) (s : State) : (storeReg r v s).inbox = s.inbox := by
  cases r <;> rfl
@[simp] theorem storeReg_lastRead (r : Reg) (v : Word) (s : State) : (storeReg r v s).lastRead = s.lastRead := by
  cases r <;> rfl
@[simp] theorem storeReg_freeCount (r : Reg) (v : Word) (s : State) : (storeReg r v s).freeCount = s.freeCount := by
  cases r <;> rfl

end Sys2Proof.Laws
end

