-- ==== Sys2Proof/Laws/Words.lean ====
section
/-!
SUPPORT. Words put together and taken apart: a 32-bit code under 32 ignored bits, and the word of CTRL.
-/

namespace Sys2Proof.Laws

theorem code_of_append (hi code : BitVec 32) : (hi ++ code).extractLsb' 0 32 = code := by
  apply BitVec.eq_of_getLsbD_eq
  intro j hj
  rw [BitVec.getLsbD_extractLsb', BitVec.getLsbD_append]
  simp [hj]

theorem ignored_of_append (hi code : BitVec 32) : (hi ++ code).extractLsb' 32 32 = hi := by
  apply BitVec.eq_of_getLsbD_eq
  intro j hj
  rw [BitVec.getLsbD_extractLsb', BitVec.getLsbD_append]
  simp [hj]

theorem append_of_halves (v : Word) : v.extractLsb' 32 32 ++ v.extractLsb' 0 32 = v := by
  apply BitVec.eq_of_getLsbD_eq
  intro j hj
  rw [BitVec.getLsbD_append]
  split <;> simp_all
  intro
  omega

theorem append_of_ctrl_fields (v : Word) :
    v.extractLsb' 2 62 ++ BitVec.ofBool (v.getLsbD 1) ++ BitVec.ofBool (v.getLsbD 0) = v := by
  apply BitVec.eq_of_getLsbD_eq
  intro j hj
  rw [BitVec.getLsbD_append, BitVec.getLsbD_append]
  rcases j with _ | _ | j
  · simp
  · simp
  · have h : j < 62 := by omega
    simp only [show ¬ (j + 1 + 1 < 1) by omega, if_false, show ¬ (j + 1 + 1 - 1 < 1) by omega]
    rw [BitVec.getLsbD_extractLsb']
    simp [h]
    congr 1
    omega

theorem smooth_of_ctrl (irqEn smooth : Bool) (hi : BitVec 62) :
    (hi ++ BitVec.ofBool irqEn ++ BitVec.ofBool smooth).getLsbD 0 = smooth := by
  rw [BitVec.getLsbD_append]
  simp

theorem irqEn_of_ctrl (irqEn smooth : Bool) (hi : BitVec 62) :
    (hi ++ BitVec.ofBool irqEn ++ BitVec.ofBool smooth).getLsbD 1 = irqEn := by
  rw [BitVec.getLsbD_append, BitVec.getLsbD_append]
  simp

theorem ignored_of_ctrl (irqEn smooth : Bool) (hi : BitVec 62) :
    (hi ++ BitVec.ofBool irqEn ++ BitVec.ofBool smooth).extractLsb' 2 62 = hi := by
  apply BitVec.eq_of_getLsbD_eq
  intro j hj
  rw [BitVec.getLsbD_extractLsb', BitVec.getLsbD_append, BitVec.getLsbD_append]
  simp [hj]

/-- A 64-bit word with nothing above bit 31 is its low half. -/
theorem widen_low (v : Word) : 0#32 ++ v.extractLsb' 0 32 = v &&& 0x00000000FFFFFFFF#64 := by
  apply BitVec.eq_of_toNat_eq
  have h := Nat.and_two_pow_sub_one_eq_mod v.toNat 32
  rw [BitVec.toNat_append, BitVec.toNat_and]
  simp at h ⊢
  exact h.symm

/-- The admitted accesses of the register window, in numbers (20_memory.md rules R60, R64). -/
theorem regAdmitted_iff (off : Offset) (width : Width) :
    regAdmitted off width = true ↔ off.toNat < 0x1000 ∧ width = .eight ∧ off.toNat % 8 = 0 := by
  have h : off.extractLsb' 0 3 = 0#3 ↔ off.toNat % 8 = 0 := by
    rw [← BitVec.toNat_inj]
    simp
  simp only [regAdmitted, Bool.and_eq_true, beq_iff_eq, decide_eq_true_eq, h, BitVec.lt_def, and_assoc]
  simp

end Sys2Proof.Laws
end

