-- ==== Sys2Proof/Laws/Step.lean ====
section
/-!
SUPPORT. What a step can do, said once: the effects an instruction, a host access and a step can have.
-/

namespace Sys2Proof.Laws

open Sys2Proof.Machine

/-- The effects a command has on the block (40_commands.md). -/
def CommandEffect (i : Instr) (s t : State) : Prop :=
  (i = .nop ∧ t = s) ∨
  (s.status.busy = true ∧ (i = .render ∨ i = .clearStatus) ∧ t = setOverrun s) ∨
  (s.status.busy = false ∧ i = .render ∧
    ∃ code detail, validate s.caps s.params = some (code, detail) ∧ t = raiseErr code detail s) ∨
  (s.status.busy = false ∧ i = .render ∧ validate s.caps s.params = none ∧ t = accept s.params s) ∨
  (s.status.busy = false ∧ i = .clearStatus ∧ t = clearStatus s) ∨
  (i = .softReset ∧ t = resetBlock s)

/-- Everything an instruction can do: a command's effect, or the write of a selector register. -/
theorem exec_effect {i : Instr} {s t : State} (h : exec i s = .next t) :
    CommandEffect i s t ∨
    ((encode i).off ≠ offCmd ∧ ((∃ r v, t = storeU32 r v s) ∨ ∃ v, t = storeCtrl v s)) := by
  cases i
  case nop => cases h; exact .inl (.inl ⟨rfl, rfl⟩)
  case render =>
    left
    simp only [exec, execRender, snapshot] at h
    split at h
    · cases h; exact .inr (.inl ⟨‹_›, .inl rfl, rfl⟩)
    · rename_i hn
      have hb : s.status.busy = false := Bool.eq_false_iff.2 hn
      split at h
      · cases h; exact .inr (.inr (.inl ⟨hb, rfl, _, _, ‹_›, rfl⟩))
      · cases h; exact .inr (.inr (.inr (.inl ⟨hb, rfl, ‹_›, rfl⟩)))
  case clearStatus =>
    left
    simp only [exec, execClearStatus] at h
    split at h
    · cases h; exact .inr (.inl ⟨‹_›, .inr rfl, rfl⟩)
    · rename_i hn
      have hb : s.status.busy = false := Bool.eq_false_iff.2 hn
      cases h; exact .inr (.inr (.inr (.inr (.inl ⟨hb, rfl, rfl⟩))))
  case softReset => cases h; exact .inl (.inr (.inr (.inr (.inr (.inr ⟨rfl, rfl⟩)))))
  case pitchStep => cases h; exact .inr ⟨by simp only [encode, encodeCtrl]; decide, .inr ⟨_, rfl⟩⟩
  case pitchSmooth => cases h; exact .inr ⟨by simp only [encode, encodeCtrl]; decide, .inr ⟨_, rfl⟩⟩
  all_goals
    cases h
    exact .inr ⟨by simp only [encode, encodeU32]; decide, .inl ⟨_, _, rfl⟩⟩

/-- A PCM read changes nothing but the count of free values. -/
theorem takePcmBytes_state (n j : Nat) (s : State) : ∃ c, (takePcmBytes n j s).2 = { s with freeCount := c } := by
  induction n generalizing j s with
  | zero => exact ⟨s.freeCount, rfl⟩
  | succ n ih =>
    simp only [takePcmBytes, takePcmByte]
    split
    · exact ih _ _
    · obtain ⟨c, hc⟩ := ih (j + 1) (takeDraw s).2
      exact ⟨c, hc⟩

/-- A read that answers changes nothing but the data returned and the count of free values. -/
theorem busRead_effect {off : Offset} {width : Width} {s t : State} (h : busRead off width s = .next t) :
    ∃ v c, t = { s with lastRead := v, freeCount := c } := by
  simp only [busRead] at h
  split at h
  · cases h; exact ⟨_, s.freeCount, rfl⟩
  split at h
  · cases h
    simp only [readSampleWindow]
    split
    · exact ⟨_, s.freeCount, rfl⟩
    · exact ⟨_, s.freeCount + 1, rfl⟩
  split at h
  · cases h
    obtain ⟨c, hc⟩ := takePcmBytes_state width.bytes (off.toNat - pcmBase) s
    refine ⟨some (takePcmBytes width.bytes (off.toNat - pcmBase) s).1, c, ?_⟩
    simp only [readPcmWindow, answerRead, hc]
  · cases h

/-- The effects of a host write that answers. -/
def WriteEffect (a : BusWrite) (s t : State) : Prop :=
  regAdmitted a.off a.width = true ∧
  ((∃ i, decode a = .instr i ∧ CommandEffect i s t) ∨
    (s.status.busy = true ∧ t = setOverrun s) ∨
    (s.status.busy = false ∧ ∃ detail, t = raiseErr .illegalCmd detail s) ∨
    ∃ r v, t = storeReg r v s)

/-- A decoded instruction is an admitted write. -/
theorem regAdmitted_of_decode {a : BusWrite} (h : decode a ≠ .reject .notAdmitted) :
    regAdmitted a.off a.width = true := by
  by_contra hn
  apply h
  simp only [decode]
  rw [if_neg hn]

/-- Everything a host write can do. -/
theorem write_effect {a : BusWrite} {s t : State} (h : performEvent (.write a) s = .next t) : WriteEffect a s t := by
  unfold performEvent at h
  dsimp only at h
  split at h
  · rename_i i hd
    refine ⟨regAdmitted_of_decode (by rw [hd]; simp), ?_⟩
    obtain hc | ⟨-, ⟨r, v, rfl⟩ | ⟨v, rfl⟩⟩ := exec_effect h
    · exact .inl ⟨i, hd, hc⟩
    · exact .inr (.inr (.inr ⟨.u32 r, v, rfl⟩))
    · exact .inr (.inr (.inr ⟨.ctrl, v, rfl⟩))
  · rename_i r hd
    have ha : regAdmitted a.off a.width = true := by
      apply regAdmitted_of_decode
      rw [hd]
      rintro hr
      cases hr
      cases h
    refine ⟨ha, .inr ?_⟩
    cases r
    case notAdmitted => cases h
    case illegalCommand =>
      simp only [writeRejected, illegalCommand] at h
      split at h
      · cases h; exact .inl ⟨‹_›, rfl⟩
      · rename_i hn
        cases h; exact .inr (.inl ⟨Bool.eq_false_iff.2 hn, _, rfl⟩)
    case reservedWaveform => cases h; exact .inr (.inr ⟨.u32 .waveform, _, rfl⟩)
    case reservedNoiseType => cases h; exact .inr (.inr ⟨.u32 .noiseType, _, rfl⟩)
    case reservedBitDepth => cases h; exact .inr (.inr ⟨.u32 .bitDepth, _, rfl⟩)
    case plainRegister => cases h; exact .inr (.inr ⟨_, _, rfl⟩)

/-- Everything one host interaction can do. -/
theorem performEvent_effect {e : BusEvent} {s t : State} (h : performEvent e s = .next t) :
    (∃ a, e = .write a ∧ WriteEffect a s t) ∨
    (∃ off width v c, e = .read off width ∧ t = { s with lastRead := v, freeCount := c }) ∨
    (e = .reset ∧ t = resetBlock s) := by
  cases e with
  | write a => exact .inl ⟨a, rfl, write_effect h⟩
  | read off width =>
    obtain ⟨v, c, rfl⟩ := busRead_effect h
    exact .inr (.inl ⟨off, width, v, c, rfl, rfl⟩)
  | reset => cases h; exact .inr (.inr ⟨rfl, rfl⟩)

/-- Everything a step that answers can be: the engine's update when it is due, the passing of a host-visible step, or
one host interaction after it. -/
theorem step_effect {s t : State} (h : step s = .next t) :
    (∃ p, s.engine = .running p 0 ∧ t = engineUpdate p s) ∨
    (engineDue s = none ∧ s.inbox = [] ∧ t = tickEngine s) ∨
    (∃ e rest, engineDue s = none ∧ s.inbox = e :: rest ∧
      performEvent e { (tickEngine s) with inbox := rest } = .next t) := by
  unfold step at h
  split at h
  · rename_i p hp
    cases h
    exact .inl ⟨p, engineDue_eq_some.1 hp, rfl⟩
  · split at h
    · cases h; exact .inr (.inl ⟨‹_›, ‹_›, rfl⟩)
    · exact .inr (.inr ⟨_, _, ‹_›, ‹_›, h⟩)

end Sys2Proof.Laws
end

