-- ==== Sys2Proof/Tests/Slice0.lean ====
section
/-!
SUPPORT. Tests of the model. Expected values come from the encoding tables and the vectors of spec/ (named beside each
test), never from the model. Real constants are written as the binary64 patterns of the decimals the vectors give.
-/

namespace Sys2Proof.Tests

-- One test at a time: each kernel evaluation that waits for the tests before it would hold a thread and its stack.
set_option Elab.async false

open Sys2Proof Sys2Proof.Machine Sys2Proof.Safety

/-! ### Helpers -/

/-- The reset state with other parameter values. -/
def resetWith (f : Params → Params) : State := { State.reset with params := f State.reset.params }

/-- The reset state with another STATUS. -/
def withStatus (busy done err overrun : Bool) (code detail : Byte) (bps : BitVec 4) (samples : Word32) : State :=
  { State.reset with status := ⟨busy, done, err, overrun, code, detail, bps, samples⟩ }

/-- The reset state while the default record is rendered, with the engine's update `left` steps away. -/
def running (left : Nat) : State :=
  { withStatus true false false false 0#8 0#8 2#4 96000#32 with engine := .running State.reset.params left }

/-- The state that holds a completed render of the given words. -/
def holding (bps : BitVec 4) (ws : List (BitVec 32)) : State :=
  { withStatus false true false false 0#8 0#8 bps (BitVec.ofNat 32 ws.length) with mem := memOfSamples 0 ws }

/-- A property of the next state an outcome answers. -/
def onNext (o : Host.Outcome State Fault Refusal) (f : State → Bool) : Bool :=
  match o with
  | .next t => f t
  | .fault _ => false
  | .refused _ => false

/-- The outcome is a next state whose STATUS reads as the given word. -/
def leavesStatus (o : Host.Outcome State Fault Refusal) (v : Word) : Bool :=
  onNext o fun t => statusWord t.status == v

/-- The outcome is a next state whose last read returned the given word. -/
def answers (o : Host.Outcome State Fault Refusal) (v : Word) : Bool := onNext o fun t => t.lastRead == some v

/-- The outcome is a bus fault. -/
def faults (o : Host.Outcome State Fault Refusal) : Bool :=
  match o with
  | .next _ => false
  | .fault _ => true
  | .refused _ => false

/-- The outcome of an 8-byte write. -/
def wr64 (off : Offset) (v : Word) (s : State) : Host.Outcome State Fault Refusal :=
  performEvent (.write ⟨off, .eight, v⟩) s

/-- The outcome of a read. -/
def rd (off : Offset) (width : Width) (s : State) : Host.Outcome State Fault Refusal := performEvent (.read off width) s

/-- RENDER from a changed reset state leaves this STATUS. -/
def renderLeaves (f : Params → Params) (v : Word) : Bool := leavesStatus (exec .render (resetWith f)) v

/-- Simple operations with the properties of rules R10 and R11, under which every draw is u. -/
def constNumerics (u : Num64) : Numerics Num64 :=
  binary64 { plainOps with rngNext := fun st => (st + 1, u) }

/-! ### Well-formedness -/

/-- 30_encoding.md rules R94, R97-R99: ill-formed words. -/
theorem test_ill_formed_words :
    cmdWellFormed 0x101#64 = false ∧ cmdWellFormed 0x100#64 = false ∧ cmdWellFormed 0x7#64 = false ∧
    cmdWellFormed 0x4#64 = false ∧ waveformLegal 7#32 = false ∧ noiseTypeLegal 4#32 = false ∧
    bitDepthLegal 8#32 = false ∧ bitDepthLegal 0#32 = false ∧ bitDepthLegal 32#32 = false := by decide

/-- The highest legal codes. -/
theorem test_well_formed_words :
    cmdWellFormed 0x3#64 = true ∧ waveformLegal 6#32 = true ∧ noiseTypeLegal 3#32 = true ∧
    bitDepthLegal 16#32 = true ∧ bitDepthLegal 24#32 = true := by decide

/-! ### Decoding: each constructor's word, written out from 30_encoding.md rules R92, R93, R95, R97-R100 -/

theorem test_decode_commands :
    decode ⟨0x018#24, .eight, 0x0000000000000000#64⟩ = .instr .nop ∧
    decode ⟨0x018#24, .eight, 0x0000000000000001#64⟩ = .instr .render ∧
    decode ⟨0x018#24, .eight, 0x0000000000000002#64⟩ = .instr .clearStatus ∧
    decode ⟨0x018#24, .eight, 0x0000000000000003#64⟩ = .instr .softReset := by decide

theorem test_decode_waveforms :
    decode ⟨0x040#24, .eight, 0x8000000100000000#64⟩ = .instr (.waveformSine 0x80000001#32) ∧
    decode ⟨0x040#24, .eight, 0x0000000000000001#64⟩ = .instr (.waveformTriangle 0#32) ∧
    decode ⟨0x040#24, .eight, 0x0000000000000002#64⟩ = .instr (.waveformSawtooth 0#32) ∧
    decode ⟨0x040#24, .eight, 0x0000000000000003#64⟩ = .instr (.waveformSquare 0#32) ∧
    decode ⟨0x040#24, .eight, 0x0000000000000004#64⟩ = .instr (.waveformNoiseWhite 0#32) ∧
    decode ⟨0x040#24, .eight, 0x0000000000000005#64⟩ = .instr (.waveformNoisePink 0#32) ∧
    decode ⟨0x040#24, .eight, 0x0000000000000006#64⟩ = .instr (.waveformNoiseBrown 0#32) := by decide

theorem test_decode_noise_types :
    decode ⟨0x048#24, .eight, 0x0000000000000000#64⟩ = .instr (.noiseTypeNone 0#32) ∧
    decode ⟨0x048#24, .eight, 0x1234567800000001#64⟩ = .instr (.noiseTypeWhite 0x12345678#32) ∧
    decode ⟨0x048#24, .eight, 0x0000000000000002#64⟩ = .instr (.noiseTypePink 0#32) ∧
    decode ⟨0x048#24, .eight, 0x0000000000000003#64⟩ = .instr (.noiseTypeBrown 0#32) := by decide

theorem test_decode_bit_depths_and_pitch :
    decode ⟨0x038#24, .eight, 0x0000000000000010#64⟩ = .instr (.bitDepth16 0#32) ∧
    decode ⟨0x038#24, .eight, 0xFFFFFFFF00000018#64⟩ = .instr (.bitDepth24 0xFFFFFFFF#32) ∧
    decode ⟨0x010#24, .eight, 0x0000000000000002#64⟩ = .instr (.pitchStep true 0#62) ∧
    decode ⟨0x010#24, .eight, 0x8000000000000005#64⟩ = .instr (.pitchSmooth false 0x2000000000000001#62) := by
  decide

/-- 30_encoding.md rule R101 and 20_memory.md rules R61, R64: what is no instruction. -/
theorem test_decode_rejects :
    decode ⟨0x018#24, .eight, 0x8000000000000001#64⟩ = .reject .illegalCommand ∧
    decode ⟨0x038#24, .eight, 0x0000000000000011#64⟩ = .reject .reservedBitDepth ∧
    decode ⟨0x060#24, .eight, 0x0000000000000001#64⟩ = .reject .plainRegister ∧
    decode ⟨0x01C#24, .eight, 0x0000000000000001#64⟩ = .reject .notAdmitted ∧
    decode ⟨0x400000#24, .four, 0x0000000000000000#64⟩ = .reject .notAdmitted := by decide

theorem test_table_words :
    decodeTableWord 64 1 = some .render ∧ decodeTableWord 32 3 = some (.waveformSquare 0#32) ∧
    decodeTableWord 32 24 = some (.bitDepth24 0#32) ∧ decodeTableWord 8 1 = some (.pitchSmooth false 0#62) ∧
    decodeTableWord 64 4 = none := by decide

/-! ### Commands and registers: vectors V-BUS and V-CMD of 95_test_vectors.md -/

/-- V-BUS-1, V-BUS-2, V-BUS-5, V-BUS-6. -/
theorem test_register_reads :
    answers (rd 0x000#24 .eight State.reset) 0x000000074B43494B#64 = true ∧
    answers (rd 0x008#24 .eight State.reset) 0x0000001000100000#64 = true ∧
    answers (rd 0x060#24 .eight State.reset) 0x4062C00000000000#64 = true ∧
    answers (rd 0x018#24 .eight State.reset) 0#64 = true := by decide

/-- V-BUS-7, V-BUS-17, V-BUS-18, V-BUS-19. -/
theorem test_register_writes :
    (onNext (wr64 0x0F0#24 0x1234#64 State.reset) fun t => answers (rd 0x0F0#24 .eight t) 0#64) = true ∧
    (onNext (wr64 0x030#24 0xFFFFFFFF00000010#64 State.reset) fun t =>
      answers (rd 0x030#24 .eight t) 0x10#64) = true ∧
    (onNext (wr64 0x010#24 0xFFFFFFFFFFFFFFFE#64 State.reset) fun t => answers (rd 0x010#24 .eight t) 0x2#64) = true ∧
    (onNext (wr64 0x088#24 0x7FF8000000000001#64 State.reset) fun t =>
      answers (rd 0x088#24 .eight t) 0x7FF8000000000001#64) = true := by decide

/-- V-BUS-8 to V-BUS-14 and V-BUS-16 fault; V-BUS-15 does not. -/
theorem test_bus_faults :
    faults (rd 0x020#24 .four State.reset) = true ∧ faults (rd 0x024#24 .eight State.reset) = true ∧
    faults (performEvent (.write ⟨0x018#24, .four, 1#64⟩) State.reset) = true ∧
    faults (rd 0x400002#24 .four State.reset) = true ∧ faults (rd 0x400000#24 .eight State.reset) = true ∧
    faults (performEvent (.write ⟨0x400000#24, .four, 0#64⟩) State.reset) = true ∧
    faults (rd 0x800002#24 .four State.reset) = true ∧ faults (rd 0xB00000#24 .one State.reset) = true ∧
    faults (rd 0xAFFFF8#24 .eight State.reset) = false := by decide

/-- V-CMD-1, V-CMD-10. -/
theorem test_nop :
    leavesStatus (exec .nop (withStatus false true false false 0#8 0#8 2#4 0x6000#32)) 0x0000600002000002#64 = true ∧
    leavesStatus (wr64 0x018#24 0#64 (running 5)) 0x0001770002000001#64 = true := by decide

/-- V-CMD-7, and the acceptance V-CMD-2 begins with. -/
theorem test_render :
    leavesStatus (exec .render (running 5)) 0x0001770002000009#64 = true ∧
    leavesStatus (exec .render State.reset) 0x0001770002000001#64 = true := by decide +kernel

/-- V-CMD-3, V-CMD-8. -/
theorem test_clear_status :
    leavesStatus (exec .clearStatus (withStatus false true false false 0#8 0#8 2#4 96000#32)) 0x0001770002000000#64 =
      true ∧
    leavesStatus (exec .clearStatus (running 5)) 0x0001770002000009#64 = true := by decide

/-- V-CMD-11. -/
theorem test_soft_reset :
    (onNext (exec .softReset (setOverrun (running 5))) fun t =>
      statusWord t.status == 0#64 && getF64 .startFreq t.params == 0x4062C00000000000#64) = true := by decide

/-- V-CMD-4, V-CMD-5, V-CMD-6, V-CMD-9, V-CMD-12. -/
theorem test_illegal_commands :
    leavesStatus (wr64 0x018#24 0x7#64 State.reset) 0x0000000000070504#64 = true ∧
    leavesStatus (wr64 0x018#24 0x101#64 State.reset) 0x0000000000010504#64 = true ∧
    leavesStatus (wr64 0x018#24 0x100#64 State.reset) 0x0000000000000504#64 = true ∧
    leavesStatus (wr64 0x018#24 0x7#64 (running 5)) 0x0001770002000009#64 = true ∧
    leavesStatus (wr64 0x018#24 0x5#64 (withStatus false false true false 5#8 7#8 0#4 0#32)) 0x0000000000050504#64 =
      true := by decide

/-- V-CMD-13: a write of START_FREQ reaches the register, not the running snapshot. -/
theorem test_snapshot_isolation :
    (onNext (wr64 0x060#24 0x3FF0000000000000#64 (running 5)) fun t =>
      getF64 .startFreq t.params == 0x3FF0000000000000#64 &&
      t.engine == .running State.reset.params 5) = true := by decide

/-- The irq sequence below V-CMD-13, and Program 1's end. -/
theorem test_irq :
    irq { running 5 with irqEn := true } = false ∧ irq { holding 2#4 [] with irqEn := true } = true ∧
    irq (clearStatus { holding 2#4 [] with irqEn := true }) = false ∧ irq (holding 2#4 []) = false := by decide

/-! ### Validation: vectors V-VAL -/

/-- V-VAL-1 to 7. -/
theorem test_validation_invalid :
    renderLeaves (fun p => { p with sampleRate := 0#32 }) 0x0000000000010104#64 = true ∧
    renderLeaves (fun p => { p with duration := 0#64 }) 0x0000000000020104#64 = true ∧
    renderLeaves (fun p => { p with duration := 0x8000000000000000#64 }) 0x0000000000020104#64 = true ∧
    renderLeaves (fun p => { p with duration := 0x7FF0000000000000#64 }) 0x0000000000030204#64 = true ∧
    renderLeaves (fun p => { p with numOsc := 2#32 }) 0x0000000000030104#64 = true ∧
    renderLeaves (fun p => { p with band1 := 0x4069000000000000#64 }) 0x0000000000040104#64 = true ∧
    renderLeaves (fun p => { p with bitDepth := 8#32 }) 0x0000000000050104#64 = true := by
  decide +kernel

/-- V-VAL-8 to 14. -/
theorem test_validation_domain :
    renderLeaves (fun p => { p with startFreq := 0#64 }) 0x0000000000010204#64 = true ∧
    renderLeaves (fun p => { p with sustain := 0x7FF8000000000000#64 }) 0x0000000000060204#64 = true ∧
    renderLeaves (fun p => { p with drive := 0x3FF8000000000000#64 }) 0x0000000000080204#64 = true ∧
    renderLeaves (fun p => { p with filterCutoff := 0#64 }) 0x0000000000090204#64 = true ∧
    renderLeaves (fun p => { p with waveform := 7#32 }) 0x00000000000D0204#64 = true ∧
    renderLeaves (fun p => { p with noiseType := 4#32 }) 0x00000000000E0204#64 = true ∧
    renderLeaves (fun p => { p with numOsc := 0#32, levelCount := 0#32 }) 0x0000000000100204#64 = true := by
  decide +kernel

/-- V-VAL-15 to 19, 21 and 22. -/
theorem test_validation_capacity :
    renderLeaves (fun p => { p with oscLevels := [0xFFF0000000000000#64] }) 0x0000000000110204#64 = true ∧
    renderLeaves (fun p => { p with fadeDuration := 0xBF50624DD2F1A9FC#64 }) 0x0000000000130204#64 = true ∧
    renderLeaves (fun p => { p with numOsc := 17#32, levelCount := 17#32 }) 0x0000000000010304#64 = true ∧
    renderLeaves (fun p => { p with duration := 0x4026000000000000#64 }) 0x0000000000020304#64 = true ∧
    renderLeaves (fun p => { p with sampleRate := 0#32, startFreq := 0#64 }) 0x0000000000010104#64 = true ∧
    renderLeaves (fun p => { p with attack := 0x8000000000000000#64 }) 0x0001770002000001#64 = true ∧
    renderLeaves (fun p => { p with sampleRate := 7#32 }) 0x0000000702000001#64 = true := by
  decide +kernel

/-- V-VAL-20 and V-REN-2 to V-REN-5. -/
theorem test_validation_geometry :
    renderLeaves (fun p => { p with
      attack := 0x3FE0000000000000#64, decay := 0x3FE0000000000000#64, release := 0x3FE0000000000000#64 })
      0x0001770002000001#64 = true ∧
    renderLeaves (fun p => { p with
      sampleRate := 8#32, duration := 0x3FEFAE147AE147AE#64 })
      0x0000000702000001#64 = true ∧
    renderLeaves (fun p => { p with
      sampleRate := 8#32, duration := 0x3FB999999999999A#64 })
      0x0000000002000001#64 = true ∧
    renderLeaves (fun p => { p with
      sampleRate := 44100#32, duration := 0x3FE0000000000000#64 })
      0x0000562202000001#64 = true ∧
    renderLeaves (fun p => { p with bitDepth := 24#32 }) 0x0001770003000001#64 = true := by
  decide +kernel

/-- The STATUS of Program 2 in 95_test_vectors.md: a failed RENDER keeps DONE, BPS and SAMPLES. -/
theorem test_failed_render_keeps_result :
    leavesStatus (exec .render
      { withStatus false true false false 0#8 0#8 2#4 96000#32 with
        params := { State.reset.params with band1 := 0x4062C00000000000#64 } }) 0x0001770002040106#64 = true := by
  decide +kernel

/-! ### Arithmetic and oscillators: vectors V-OSC -/

/-- V-OSC-4, V-OSC-5, V-OSC-6, V-OSC-8. -/
theorem test_triangle :
    oscTriangle numerics numOne 0x3FB999999999999A#64 = 0xBFE3333333333333#64 ∧
    oscTriangle numerics numOne 0x3FD3333333333333#64 = 0x3FC9999999999998#64 ∧
    oscTriangle numerics 0x4059000000000000#64 0x3F747AE147AE147B#64 = numOne ∧
    oscTriangle numerics 0x4059000000000000#64 0#64 = numNeg numOne := by decide +kernel

/-- V-OSC-9, V-OSC-10, V-OSC-11. -/
theorem test_sawtooth :
    oscSawtooth numerics numOne 0x3FB999999999999A#64 = 0x3FC999999999999A#64 ∧
    oscSawtooth numerics numOne 0x3FE3333333333333#64 = 0xBFE999999999999A#64 ∧
    oscSawtooth numerics 0x4059000000000000#64 0x3F747AE147AE147B#64 = numNeg numOne := by decide +kernel

/-- V-OSC-2 and V-OSC-14: at t = 0 the phase is 0, so Sine and Square are 0. -/
theorem test_sine_and_square_at_zero :
    oscSine (constNumerics 0#64) 0x4062C00000000000#64 0#64 = 0#64 ∧
    oscSquare (constNumerics 0#64) 0x4062C00000000000#64 0#64 = 0#64 := by
  decide +kernel

/-- V-OSC-12, V-OSC-13: Square is the sign of the sine. -/
theorem test_square_is_the_sign :
    numSignum 0x3CA1A62633145C07#64 = numOne ∧ numSignum 0xBFF0000000000000#64 = 0xBFF0000000000000#64 ∧
    numSignum 0x8000000000000000#64 = 0#64 := by decide

/-- V-OSC-15, V-OSC-16, V-OSC-17 (whose 1.7 is printed short: the binary64 sum 0.9 + 0.8 is the next value above). -/
theorem test_white_and_pink :
    (noiseWhite (constNumerics 0xBFD0000000000000#64) ⟨0, 0#64, 0#64⟩).1 = 0xBFD0000000000000#64 ∧
    (noisePink (constNumerics 0x3FE0000000000000#64) 0 ⟨0, 0#64, 0#64⟩).1 = 0x3FE0000000000000#64 ∧
    (noisePink (constNumerics 0xBFB999999999999A#64) 1 ⟨0, 0x3FE0000000000000#64, 0#64⟩).1 = 0x3FC999999999999A#64 ∧
    (noisePink (constNumerics 0x3FE999999999999A#64) 0 ⟨0, 0x3FECCCCCCCCCCCCD#64, 0#64⟩).1 =
      0x3FFB333333333334#64 := by decide +kernel

/-- V-OSC-18, V-OSC-19. -/
theorem test_brown :
    (noiseBrown (constNumerics numOne) ⟨0, 0#64, 0#64⟩).1 = 0x3FB999999999999A#64 ∧
    (noiseBrown (constNumerics numOne) ⟨0, 0#64, 0x3FB999999999999A#64⟩).1 = 0x3FC999999999999A#64 ∧
    (noiseBrown (constNumerics numOne) ⟨0, 0#64, 0x3FEE666666666666#64⟩).1 = numOne := by decide +kernel

/-! ### Pitch, envelope, mix and post chain: vectors V-PIT, V-ENV, V-MIX, V-SAT, V-BND, V-NOI, V-FAD -/

/-- V-PIT-1 (EXP(0) = POW(b, 0) = 1), V-PIT-6, V-PIT-7. -/
theorem test_pitch :
    pitch (constNumerics 0#64) State.reset.params 0#64 = 0x4064A00000000000#64 ∧
    pitchStep numerics State.reset.params 0x3FD0000000000000#64 = 0x4062C00000000000#64 ∧
    pitchStep numerics State.reset.params 0x3FE0000000000000#64 = 0x4044000000000000#64 := by decide +kernel

/-- V-ENV-1 to V-ENV-5, V-ENV-8. -/
theorem test_envelope :
    env numerics State.reset.params 0#64 = 0#64 ∧ env numerics State.reset.params 0x3F589374BC6A7EFA#64 = 0x3FE0000000000000#64 ∧
    env numerics State.reset.params 0x3F689374BC6A7EFA#64 = numOne ∧
    env numerics State.reset.params 0x3FC0000000000000#64 = 0x3FE449BA5E353F7D#64 ∧
    env numerics State.reset.params 0x3FD0000000000000#64 = 0x3FD09374BC6A7EFA#64 ∧
    env numerics State.reset.params 0x3FEC000000000000#64 = 0x3FB5555555555554#64 := by decide +kernel

/-- V-ENV-6, V-ENV-7: the 808 record, whose sustain is skipped. -/
theorem test_envelope_808 :
    env numerics { State.reset.params with
      attack := 0x3F847AE147AE147B#64, decay := 0x3FE999999999999A#64, sustain := 0x3FC999999999999A#64
      release := 0x3FE3333333333333#64 }
      0x3FE9E353F7CED917#64 = 0x3FC9BA5E353F7CEC#64 ∧
    env numerics { State.reset.params with
      attack := 0x3F847AE147AE147B#64, decay := 0x3FE999999999999A#64, sustain := 0x3FC999999999999A#64
      release := 0x3FE3333333333333#64 }
      0x3FE9EB851EB851EC#64 = 0x3FB0369D0369D035#64 := by decide +kernel

/-- V-MIX-1 to V-MIX-5. -/
theorem test_drive :
    drive numerics 0x3FB999999999999A#64 0x3FE0000000000000#64 = 0x3FE0C30C30C30C31#64 ∧
    drive numerics 0x3FB999999999999A#64 0xBFF0000000000000#64 = 0xBFF0000000000000#64 ∧
    drive numerics 0x3FD999999999999A#64 0x3FE0000000000000#64 = 0x3FE2AAAAAAAAAAAB#64 ∧
    drive numerics 0#64 0x3FD7AE147AE147AE#64 = 0x3FD7AE147AE147AE#64 ∧
    drive numerics 0x3FB999999999999A#64 0xBFD6AB235B1BEA16#64 = 0xBFD815165BB643C6#64 := by decide +kernel

/-- V-MIX-8 to V-MIX-13, V-MIX-15. -/
theorem test_quantize :
    (quantize numerics 0x3FE0000000000000#64 0x40EFFFE000000000#64).map numToInt = some 32767 ∧
    (quantize numerics 0xBFE0000000000000#64 0x40EFFFE000000000#64).map numToInt = some (-32768) ∧
    (quantize numerics 0x3FE0000000000000#64 0x416FFFFFE0000000#64).map numToInt = some 8388607 ∧
    (quantize numerics 0x3FF0000000000000#64 0x40EFFFE000000000#64).map numToInt = some 65535 ∧
    (quantize numerics 0xBE112E0BE826D695#64 0x40EFFFE000000000#64).map numToInt = some (-1) ∧
    (quantize numerics 0xBF589374BC6A7EFA#64 0x416FFFFFE0000000#64).map numToInt = some (-25166) ∧
    quantize numerics numNaN 0x40EFFFE000000000#64 = none ∧
    quantize numerics 0x7FE1CCF385EBC8A0#64 0x40EFFFE000000000#64 = none := by decide +kernel

/-- V-SAT-6, with TANH at its bound, and V-BND-1, V-BND-2, V-BND-5 (fp = 440). -/
theorem test_saturate_and_band :
    saturate (constNumerics 0#64) 0x416FFFFFE0000000#64 0x3FD3333333333333#64 = 0x40E0000000000000#64 ∧
    bandGain (constNumerics 0#64) State.reset.params 0x40DFA60000000000#64 0#64 = 0x40D9518000000000#64 ∧
    bandGain (constNumerics 0#64) State.reset.params 0xC0E0000000000000#64 0#64 = 0xC0D9998000000000#64 ∧
    bandGain (constNumerics 0#64) { State.reset.params with band0 := 0x407F400000000000#64 }
      0x40E0000000000000#64 0#64 = 0x40DCCCC000000000#64 := by decide +kernel

/-- V-NOI-1, V-NOI-2, V-NOI-3, V-NOI-4, V-NOI-5. -/
theorem test_noise_mix :
    mixNoise numerics 0x40D9528000000000#64 0x3FD0000000000000#64 numOne 0x40E0000000000000#64 = 0x40DFFFC000000000#64 ∧
    mixNoise numerics 0x40D9528000000000#64 0xBFF0000000000000#64 numOne 0x40E0000000000000#64 = 0xC0BAB60000000000#64 ∧
    mixNoise numerics 0xC0D9528000000000#64 0xBFD0000000000000#64 0x3FE0000000000000#64 0x40E0000000000000#64 = 0xC0DD528000000000#64 ∧
    mixNoise numerics 0x4059000000000000#64 0x3FE0000000000000#64 0x3FE0000000000000#64 0x4160000000000000#64 = 0x40DFFFC000000000#64 ∧
    mixNoise numerics 0xC0D0880000000000#64 0x3FE0000000000000#64 0#64 0x40E0000000000000#64 = 0xC0D0880000000000#64 := by decide +kernel

/-- V-FAD-1, V-FAD-2. -/
theorem test_fade :
    (mapStage (fadeSample numerics 7 3) 0 (List.replicate 7 0x408F400000000000#64)).map numToInt =
      [0, 333, 666, 1000, 666, 333, 0] ∧
    (mapStage (fadeSample numerics 8 2) 0 (List.replicate 8 0xC08F400000000000#64)).map numToInt =
      [0, -500, -1000, -1000, -1000, -1000, -500, 0] := by decide +kernel

/-- V-FAD-3, V-FAD-4, V-FAD-5. -/
theorem test_fade_length :
    fadeLength numerics { State.reset.params with sampleRate := 8#32 } 8 = 0 ∧
    fadeLength numerics { State.reset.params with sampleRate := 8#32, fadeDuration := 0x3FD0000000000000#64 } 8 = 2 ∧
    fadeLength numerics { State.reset.params with sampleRate := 8#32, fadeDuration := 0x4024000000000000#64 } 7 = 3 := by
  decide +kernel

/-! ### A whole render: Program 3 of 95_test_vectors.md -/

/-- The snapshot of Program 3. -/
def program3 : Params :=
  { State.reset.params with
    smooth := false, sampleRate := 8#32, bitDepth := 24#32, waveform := 1#32, noiseType := 1#32
    numOsc := 2#32, levelCount := 2#32, startFreq := 0x4008000000000000#64, endFreq := 0x4014000000000000#64
    attack := 0#64, decay := 0#64, sustain := 0x3FF0000000000000#64, release := 0#64, drive := 0#64
    saturatorAmount := 0#64, fadeDuration := 0#64
    oscLevels := [0x3F60624DD2F1A9FC#64, 0xBF40624DD2F1A9FC#64] ++ List.replicate 14 0#64 }

/-- TANH at the four nonzero operands of Program 3, from the math library the vectors name. -/
def program3Tanh (x : Num64) : Num64 :=
  if x = 0xBFE8938000000000#64 then 0xBFE4AA21E33F5F81#64
  else if x = 0x3FD8930000000000#64 then 0x3FD76F092C3B75F9#64
  else if x = 0xBFD8938000000000#64 then 0xBFD76F7802CBD359#64
  else if x = 0x3FE8934000000000#64 then 0x3FE4A9FC9374F7B9#64
  else 0#64

/-- The samples of Program 3, whatever the draw (here 0.5 each). -/
theorem test_program3 :
    (render { constNumerics 0x3FE0000000000000#64 with tanh := program3Tanh } program3).map (·.map BitVec.toInt) =
      some [-16928, 9598, 0, -9598, 16927, -9598, 0, 9598] := by decide +kernel

/-- The end of Program 3: the engine's update makes the samples the memory, and the PCM window packs them. -/
theorem test_program3_readout :
    let s := holding 3#4 ([-16928, 9598, 0, -9598, 16927, -9598, 0, 9598].map (BitVec.ofInt 32))
    statusWord s.status = 0x0000000803000002#64 ∧
    answers (rd 0x800000#24 .eight s) 0x000000257EFFBDE0#64 = true ∧
    answers (rd 0x800008#24 .eight s) 0x8200421FFFDA8200#64 = true ∧
    answers (rd 0x800014#24 .four s) 0x00257E00#64 = true ∧
    answers (rd 0x400000#24 .four s) 0xFFFFBDE0#64 = true := by decide

/-- V-PCM-1, V-PCM-2, V-PCM-3, V-PCM-4, V-PCM-5, V-PCM-9. -/
theorem test_pcm :
    answers (rd 0x40000C#24 .four (holding 2#4 [0#32, 0#32, 0#32, BitVec.ofInt 32 (-26214)])) 0xFFFF999A#64 = true ∧
    answers (rd 0x800000#24 .one (holding 2#4 [BitVec.ofInt 32 (-26214)])) 0x9A#64 = true ∧
    answers (rd 0x800001#24 .one (holding 2#4 [BitVec.ofInt 32 (-26214)])) 0x99#64 = true ∧
    answers (rd 0x800002#24 .one (holding 3#4 [BitVec.ofInt 32 (-26214), 25926#32])) 0xFF#64 = true ∧
    answers (rd 0x800004#24 .two (holding 3#4 [BitVec.ofInt 32 (-26214), 25926#32])) 0x0065#64 = true ∧
    answers (rd 0x800000#24 .eight
      (holding 2#4 ([0, 32767, -1, -32767].map (BitVec.ofInt 32)))) 0x8001FFFF7FFF0000#64 = true ∧
    (onNext (wr64 0x038#24 24#64 (holding 2#4 [0x1234#32])) fun t =>
      answers (rd 0x800000#24 .two t) 0x1234#64) = true := by decide

/-- V-PCM-6, V-PCM-7, V-PCM-8: a draw is taken. -/
theorem test_draws :
    (onNext (rd 0x400000#24 .four (running 5)) fun t => t.freeCount == 1) = true ∧
    (onNext (rd 0x800002#24 .one (holding 2#4 [0#32])) fun t => t.freeCount == 1) = true ∧
    (onNext (rd 0x800000#24 .eight State.reset) fun t => t.freeCount == 8) = true := by decide

/-- 10_state.md rule R34: validation reads a real register through the configured map from Bits64 to `Num`. The pattern of
-0.1 in DRIVE fails check 8 where it is read as it stands, and passes where the map drops its sign. -/
theorem test_reading_is_configured :
    validateIn numerics Caps.default { State.reset.params with drive := 0xBFB999999999999A#64 } =
      some (.domain, 8#8) ∧
    validateIn { numerics with asF64 := numAbs } Caps.default
      { State.reset.params with drive := 0xBFB999999999999A#64 } = none := by decide +kernel

/-! ### Selector instructions -/

theorem test_selector_instructions :
    (onNext (exec (.waveformNoiseBrown 0x80000000#32) State.reset) fun t =>
      readReg (.u32 .waveform) t == 6#64) = true ∧
    (onNext (exec (.noiseTypeBrown 0xFFFFFFFF#32) State.reset) fun t =>
      readReg (.u32 .noiseType) t == 3#64) = true ∧
    (onNext (exec (.bitDepth24 1#32) State.reset) fun t => readReg (.u32 .bitDepth) t == 24#64) = true ∧
    (onNext (exec (.pitchStep true 1#62) State.reset) fun t => readReg .ctrl t == 2#64) = true := by decide

/-! ### Witnesses: concrete states and operands that meet the hypotheses of each statement together -/
/-- 00_scope.md rule R10 has POW 0 on underflow; the formula of 43_pitch_envelope.md rule R200 then gives 0 (log 22). -/
theorem test_pitch_can_be_zero :
    pitch (binary64 { plainOps with pow := fun _ _ => 0#64 }) State.reset.params 0#64 = 0#64 := by decide +kernel

/-- At the phase 2^52 + 1 the sum with 0.5 ties to 2^52 + 2 (00_scope.md rule R9): by the formulas of 42_oscillators.md
rules R181 and R182 Triangle is 2 * 2 - 1 = 3 and Sawtooth 2 * -1 = -2 (log 22). -/
theorem test_range_at_a_large_phase :
    oscTriangle numerics 0x4330000000000001#64 numOne = 0x4008000000000000#64 ∧
    oscSawtooth numerics 0x4330000000000001#64 numOne = 0xC000000000000000#64 := by decide +kernel

/-- A triangle record that needs no transcendental function in its OSC stage: two samples at the step pitch. -/
def plainRecord : Params :=
  { State.reset.params with
    smooth := false, sampleRate := 2#32, waveform := 1#32, attack := 0#64, decay := 0#64
    sustain := 0x3FF0000000000000#64, release := 0#64 }

/-- The same record with a level whose product with the quantizer scale overflows. -/
def overflowRecord : Params := { plainRecord with oscLevels := 0x7FE1CCF385EBC8A0#64 :: List.replicate 15 0#64 }

/-- An integer is what its `Num64` stands for. -/
theorem stands_int {x : Num64} {z : Int} (h : numIsFinite x = true ∧ numScaled x = z * unitOne) :
    numerics.standsFor x (.finite z) := ⟨h.1, by rw [h.2]; push_cast; rfl⟩

theorem witness_CommandWordsFullyDecoded :
    cmdWellFormed 0x3#64 = true ∧ cmdWellFormed 0x4#64 = false ∧ cmdWellFormed 0x100#64 = false := by decide

theorem witness_StepRunsDecodedInstruction :
    engineDue (State.reset.withFetchWord 64 1) = none ∧
    (State.reset.withFetchWord 64 1).inbox = [.write ⟨0x018#24, .eight, 1#64⟩] ∧
    engineDue ((running 0).withFetchWord 64 3) = none ∧
    ((running 0).withFetchWord 64 3).inbox = [.write ⟨0x018#24, .eight, 3#64⟩] ∧
    decode ⟨0x018#24, .eight, 1#64⟩ = .instr .render ∧ decode ⟨0x018#24, .eight, 3#64⟩ = .instr .softReset := by
  decide

theorem witness_StepFollowsTheTotalOrder :
    (running 0).engine = .running State.reset.params 0 ∧ engineDue (running 1) = none ∧ (running 1).inbox = [] ∧
    engineDue { running 1 with inbox := [.reset] } = none ∧
    engineDue { State.reset with inbox := [.read 0x020#24 .eight] } = none ∧
    engineDue { State.reset with inbox := [.write ⟨0x018#24, .eight, 7#64⟩] } = none ∧
    decode ⟨0x018#24, .eight, 7#64⟩ = .reject .illegalCommand ∧
    decode ⟨0x040#24, .eight, 7#64⟩ = .reject .reservedWaveform ∧
    decode ⟨0x060#24, .eight, 7#64⟩ = .reject .plainRegister ∧
    decode ⟨0x018#24, .four, 1#64⟩ = .reject .notAdmitted := by decide

theorem witness_RenderIsAccepted :
    State.reset.status.busy = false ∧ validate State.reset.caps State.reset.params = none := by decide +kernel

theorem witness_FailedRenderRecordsItsCheck :
    State.reset.status.busy = false ∧
    validate Caps.default { State.reset.params with sampleRate := 0#32 } = some (.invalidParams, 1#8) ∧
    validate Caps.default { State.reset.params with fadeDuration := 0xBFF0000000000000#64 } = some (.domain, 19#8) ∧
    validate Caps.default { State.reset.params with numOsc := 17#32, levelCount := 17#32 } = some (.capacity, 1#8) := by
  decide +kernel

theorem witness_ClearStatusClearsTheRecord : State.reset.status.busy = false ∧ (running 1).status.busy = true := by
  decide

theorem witness_BusyDropsCommands :
    (running 1).status.busy = true ∧ 0x1#64 ≠ 0x0#64 ∧ 0x1#64 ≠ 0x3#64 ∧ 0x4#64 ≠ 0x0#64 ∧ 0x4#64 ≠ 0x3#64 := by
  decide

theorem witness_IllegalCommandIsRecorded :
    State.reset.status.busy = false ∧ (0x100#64).extractLsb' 8 56 ≠ 0#56 ∧
    4 ≤ ((0x4#64).extractLsb' 0 8).toNat := by decide

theorem witness_InstructionFrame :
    (onNext (exec (.waveformSquare 0#32) State.reset) fun t => t.params.waveform == 3#32) = true ∧
    Instr.waveformSquare 0#32 ≠ .softReset ∧ (encode (.waveformSquare 0#32)).off ≠ offCtrl ∧
    (encode (.waveformSquare 0#32)).off ≠ offBitDepth ∧ (encode (.waveformSquare 0#32)).off ≠ offNoiseType ∧
    (encode (.pitchStep true 0#62)).off ≠ offWaveform ∧ (encode (.pitchStep true 0#62)).off ≠ offCmd ∧
    Instr.clearStatus ≠ .render := by decide

/-- Both edges of each window, and an access just outside each. -/
theorem witness_AccessesFaultExactlyWhenNotAdmitted :
    ReadAdmitted State.reset 0x000000#24 .eight ∧ ReadAdmitted State.reset 0x000FF8#24 .eight ∧
    ReadAdmitted State.reset 0x400000#24 .four ∧ ReadAdmitted State.reset 0x7FFFFC#24 .four ∧
    ReadAdmitted State.reset 0x800000#24 .one ∧ ReadAdmitted State.reset 0xAFFFF8#24 .eight ∧
    ¬ ReadAdmitted State.reset 0x001000#24 .eight ∧ ¬ ReadAdmitted State.reset 0x3FFFFC#24 .four ∧
    ¬ ReadAdmitted State.reset 0xB00000#24 .one ∧ ¬ ReadAdmitted State.reset 0xAFFFFC#24 .eight := by
  refine ⟨?_, ?_, ?_, ?_, ?_, ?_, ?_, ?_, ?_, ?_⟩ <;> unfold ReadAdmitted <;> decide

theorem witness_RegisterAccesses :
    (0x000FF8#24).toNat < 0x1000 ∧ (0x000FF8#24).toNat % 8 = 0 ∧ (0x000FF8#24 : Offset) ≠ offCmd ∧
    (0x000000#24).toNat % 8 = 0 ∧ 479 < 480 ∧ 15 < State.reset.params.oscLevels.length := by decide

theorem witness_RegisterWriteThenRead :
    15 < State.reset.params.oscLevels.length ∧ Reg.f64 .band0 ≠ .f64 .band1 ∧ Reg.oscLevel 0 ≠ .oscLevel 15 := by
  decide

/-- The first and the last reserved offset of each kind; 0x178 holds OSC_LEVEL[15], the last level, and is none. -/
theorem witness_ReservedOffsetsReadZero :
    (0x0F0#24).toNat = 0x0F0 ∧ (0x0F8#24).toNat = 0x0F8 ∧ State.reset.caps.maxOsc.toNat = 16 ∧
    (0x180#24).toNat = 0x100 + 8 * 16 ∧ (0xFF8#24).toNat = 0x100 + 8 * 479 ∧ regAt 16 0x178 = .oscLevel 15 := by
  decide

theorem witness_ReadsHaveNoSideEffect :
    (∃ t, performEvent (.read 0x020#24 .eight) State.reset = .next t) ∧
    ∃ t, performEvent (.read 0x800000#24 .two) State.reset = .next t := ⟨⟨_, rfl⟩, ⟨_, rfl⟩⟩

theorem witness_SampleReads :
    0 < State.reset.caps.maxSamples.toNat ∧ 1048575 < State.reset.caps.maxSamples.toNat ∧
    (0x400000#24).toNat = 0x400000 + 4 * 0 ∧ (0x7FFFFC#24).toNat = 0x400000 + 4 * 1048575 ∧
    (holding 2#4 [7#32]).status.busy = false ∧ readSample (holding 2#4 [7#32]).mem 0 = some 7#32 ∧
    readSample State.reset.mem 1048575 = none ∧ (running 1).status.busy = true := by decide

/-- Positions 0, the last one, and the one after it. -/
theorem witness_PcmByteValue :
    (holding 3#4 [7#32]).status.busy = false ∧ (holding 3#4 [7#32]).status.bps ≠ 0#4 ∧
    (holding 3#4 [7#32]).status.samples.toNat * (holding 3#4 [7#32]).status.bps.toNat = 3 ∧
    readSample (holding 3#4 [7#32]).mem (0 / 3) = some 7#32 ∧ readSample (holding 3#4 [7#32]).mem (2 / 3) = some 7#32 ∧
    readSample (holding 3#4 [7#32]).mem (3 / 3) = none ∧ (running 1).status.busy = true ∧
    State.reset.status.bps = 0#4 := by decide

theorem witness_PcmReadsAreLittleEndian :
    (0x800000#24).toNat = 0x800000 + 0 ∧ (0xAFFFF8#24).toNat = 0x800000 + 3145720 ∧
    3145720 + Width.eight.bytes ≤ 3 * State.reset.caps.maxSamples.toNat ∧ 3145720 % Width.eight.bytes = 0 ∧
    State.reset.caps.maxSamples.toNat ≤ 2 ^ 20 ∧ pcmByte (0 + 1) (holding 2#4 [0x1234#32]) = some 0x12#8 ∧
    pcmByte (0 + 2) (holding 2#4 [0x1234#32]) = none := by
  decide

/-- The first and the last check of each class. -/
theorem witness_ValidationReportsTheFirstFailure :
    FirstFails (InvalidCheck numerics { State.reset.params with sampleRate := 0#32 }) 1 ∧
    FirstFails (InvalidCheck numerics { State.reset.params with bitDepth := 8#32 }) 5 ∧
    FirstFails (DomainCheck numerics Caps.default { State.reset.params with startFreq := 0#64 }) 1 ∧
    FirstFails (DomainCheck numerics Caps.default { State.reset.params with fadeDuration := 0xBFF0000000000000#64 }) 19 ∧
    FirstFails (CapacityCheck numerics Caps.default { State.reset.params with numOsc := 17#32, levelCount := 17#32 }) 1 ∧
    FirstFails (CapacityCheck numerics Caps.default { State.reset.params with duration := 0x4026000000000000#64 }) 2 := by
  refine ⟨⟨?_, ?_⟩, ⟨?_, ?_⟩, ⟨?_, ?_⟩, ⟨?_, ?_⟩, ⟨?_, ?_⟩, ⟨?_, ?_⟩⟩ <;>
    first
    | (intro m hm; interval_cases m <;> simp only [InvalidCheck, DomainCheck, CapacityCheck] <;> decide +kernel)
    | (simp only [InvalidCheck, DomainCheck, CapacityCheck]; decide +kernel)

theorem witness_ValidationChecksHold :
    (∀ n, InvalidCheck numerics { State.reset.params with duration := 0x4026000000000000#64 } n) ∧
    ∀ n, DomainCheck numerics Caps.default { State.reset.params with duration := 0x4026000000000000#64 } n := by
  constructor <;> intro n
  · unfold InvalidCheck; split <;> first | exact trivial | decide +kernel
  · unfold DomainCheck; split <;> first | exact trivial | decide +kernel

theorem witness_ValidSnapshotsFitTheBlock :
    validate Caps.default State.reset.params = none ∧ validate Caps.default plainRecord = none ∧
    validate Caps.default { State.reset.params with bitDepth := 24#32, waveform := 6#32, noiseType := 3#32 } = none := by
  decide +kernel

theorem witness_NanParametersAreNeverRendered :
    (numericsOf Caps.default).ops.standsFor ((numericsOf Caps.default).ops.asF64
      (getF64 .sustain { State.reset.params with sustain := 0x7FF8000000000000#64 })) .nan ∧
    (numericsOf Caps.default).ops.standsFor ((numericsOf Caps.default).ops.asF64
      (getF64 .band2 { State.reset.params with band2 := 0xFFF0000000000001#64 })) .nan := by
  refine ⟨show numIsNaN _ = true from ?_, show numIsNaN _ = true from ?_⟩ <;> decide

/-- The largest finite value, the least positive one, both zeros, both infinities, and the edges of NaN. -/
theorem witness_ComparisonsAreExact :
    numIsNaN 0x7FF0000000000001#64 = true ∧ numIsNaN 0xFFFFFFFFFFFFFFFF#64 = true ∧
    numIsFinite 0x7FEFFFFFFFFFFFFF#64 = true ∧ numIsFinite 0x0000000000000001#64 = true ∧
    numIsFinite 0x8000000000000000#64 = true ∧ numIsFinite 0#64 = true ∧ numIsNaN (numInf true) = false ∧
    numIsNaN 0xFFEFFFFFFFFFFFFF#64 = false ∧ (0xFFEFFFFFFFFFFFFF#64 : Num64) ≠ numInf true := by decide

/-- 2^53 + 1 units lie halfway between two values, both finite. -/
theorem witness_RoundingIsToNearest :
    0 < 10 ∧ numIsFinite (numRound false unitOne 10) = true ∧ numIsFinite (numRound true 1 3) = true ∧
    numIsFinite 0x3FB9999999999999#64 = true ∧
    (numIsFinite (numRound false 9007199254740993 1) = true ∧ numIsFinite 0x0020000000000001#64 = true ∧
      numMag 0x0020000000000001#64 ≠ numMag (numRound false 9007199254740993 1) ∧
      roundingError 9007199254740993 1 (numMag (numRound false 9007199254740993 1)) =
        roundingError 9007199254740993 1 (numMag 0x0020000000000001#64)) ∧
    numIsFinite (numRound false overflowMag 1) = false ∧ numIsFinite (numRound false (overflowMag - 1) 1) = true ∧
    numScaled numOne + numScaled (numNeg numOne) = 0 ∧ numScaled numOne + numScaled numOne ≠ 0 ∧
    numIsZero numOne = false := by decide +kernel

theorem witness_FloorAndTruncAreExact :
    numIsFinite 0xBFF8000000000000#64 = true ∧ numIsFinite 0x8000000000000001#64 = true ∧
    numIsZero (numTrunc 0xBFF8000000000000#64) = false ∧ numScaled 0xBFF8000000000000#64 < 0 ∧
    0 < numScaled 0x0000000000000001#64 ∧ numIsFinite 0x0000000000000001#64 = true ∧
    numScaled 0x8000000000000000#64 = 0 ∧ numIsFinite 0x8000000000000000#64 = true ∧
    numIsFinite (numInf true) = false ∧ numIsFinite 0x7FF0000000000001#64 = false ∧
    numIsNaN 0x7FF0000000000001#64 = true ∧ numIsNaN (numInf true) = false ∧ numIsNaN 0#64 = false := by
  decide +kernel

theorem witness_OpenOperationsHaveTheirProperties :
    Caps.default.numerics = .binary64 ∧ numerics.standsFor 0x8000000000000000#64 (.finite (0 : Int)) ∧
    numerics.standsFor (numInf true) (.inf true) ∧ numerics.standsFor numNaN .nan := by
  refine ⟨rfl, stands_int (by decide +kernel), ⟨?_, ?_⟩, show numIsNaN _ = true from ?_⟩ <;> decide

/-- A sum that is no NaN; both ends of the range of each accumulator, and the start of a render; the last counts of the
clause on pink noise; and arithmetic that rounds. -/
theorem witness_NoiseStaysInRange :
    (let d := dspStart numerics State.reset.params;
      ¬ numerics.standsFor (numerics.add d.accBrown (numerics.mul (numerics.tenths 1) (numerics.rngNext d.rng).2)) .nan) ∧
    (Caps.default.numerics = .binary64 ∧ numericsOf Caps.default = ⟨Num64, numerics⟩ ∧ ArithmeticRounds numerics) ∧
    (Within numerics 1 numOne ∧ Within numerics 1 (numNeg numOne) ∧
      Within numerics 1 (dspStart numerics State.reset.params).accBrown) ∧
    Within numerics 0 (dspStart numerics State.reset.params).accPink ∧
    (4294967294 + 1 < 2 ^ 32 ∧ Within numerics 4294967294 (numOfNat 4294967294) ∧
      Within numerics 4294967294 (numNeg (numOfNat 4294967294))) := by
  refine ⟨?_, ⟨rfl, rfl, Laws.arithmeticRounds_binary64 _⟩, ?_, ?_, ?_⟩
  · have hd : ∀ st, Within numerics 1 (numerics.rngNext st).2 := by
      rw [Laws.numerics_eq]
      rcases Laws.defaultOps_cases with h | ⟨o, h⟩ <;> rw [h]
      · intro st
        exact show Within (binary64 plainOps) 1 (numZero false) by decide +kernel
      · exact o.draws
    have h1 : Laws.AtMost (numerics.rngNext (dspStart numerics State.reset.params).rng).2 1 := by
      rw [Laws.atMost_one_iff, ← Laws.numOfNat_one]
      exact hd _
    have h2 : Laws.AtMost (numTenths 1) 1 := Laws.atMost_numRound (by norm_num) (by norm_num) (by omega)
    have h3 := (Laws.atMost_numOfNat (m := 0) (by norm_num)).add (h2.mul h1 (by norm_num)) (by norm_num)
    exact fun h => Bool.false_ne_true (h3.notNaN.symm.trans h)
  all_goals decide +kernel

theorem witness_NoiseTypeSelectsTheSource :
    State.reset.params.noiseType = 0#32 ∧ { State.reset.params with noiseType := 1#32 }.noiseType = 1#32 ∧
    { State.reset.params with noiseType := 2#32 }.noiseType = 2#32 ∧
    { State.reset.params with noiseType := 3#32 }.noiseType = 3#32 := by decide

/-- Sums beyond the upper limit and below the lower one, and one that is infinite. -/
theorem witness_NoiseMixIsClamped :
    numericsOf Caps.default = ⟨Num64, numerics⟩ ∧
    ¬ numerics.standsFor
      (numerics.add (numOfNat 29491) (numerics.mul (numerics.mul numOne numOne) (numOfNat 32768))) .nan ∧
    ¬ numerics.standsFor
      (numerics.add (numOfNat 29491) (numerics.mul (numerics.mul (numNeg numOne) numOne) (numOfNat 8388608))) .nan ∧
    ¬ numerics.standsFor (numerics.add numOne (numerics.mul (numerics.mul (numInf true) numOne) numOne)) .nan := by
  refine ⟨rfl, show ¬ numIsNaN _ = true from ?_, show ¬ numIsNaN _ = true from ?_, show ¬ numIsNaN _ = true from ?_⟩
  all_goals decide +kernel

theorem witness_BitDepthSelectsTheScales :
    State.reset.params.bitDepth = 16#32 ∧ { State.reset.params with bitDepth := 24#32 }.bitDepth = 24#32 := by
  decide

/-- Just below and at D / 2. -/
theorem witness_PitchFollowsItsLaw :
    State.reset.params.smooth = true ∧ plainRecord.smooth = false ∧
    numerics.lt 0x3FDFFFFFFFFFFFFF#64
      (numerics.div (numerics.asF64 plainRecord.duration) (numerics.ofNat 2)) = true ∧
    numerics.lt 0x3FE0000000000000#64
      (numerics.div (numerics.asF64 plainRecord.duration) (numerics.ofNat 2)) = false := by decide +kernel

/-- A time in each branch of the reset envelope: 0; ATTACK itself; 0.5; 0.875; D itself. -/
theorem witness_EnvelopeBranches :
    let p := State.reset.params
    let nx := numerics
    let attack := nx.asF64 p.attack
    let peak := nx.add attack (nx.asF64 p.decay)
    let duration := nx.asF64 p.duration
    let held := nx.sub duration (nx.asF64 p.release)
    nx.lt 0#64 attack = true ∧
    (nx.lt attack attack = false ∧ nx.lt attack peak = true) ∧
    (nx.lt 0x3FE0000000000000#64 attack = false ∧ nx.lt 0x3FE0000000000000#64 peak = false ∧
      nx.lt 0x3FE0000000000000#64 held = true) ∧
    (nx.lt 0x3FEC000000000000#64 attack = false ∧ nx.lt 0x3FEC000000000000#64 peak = false ∧
      nx.lt 0x3FEC000000000000#64 held = false ∧ nx.lt 0x3FEC000000000000#64 duration = true) ∧
    (nx.lt duration attack = false ∧ nx.lt duration peak = false ∧ nx.lt duration held = false ∧
      nx.lt duration duration = false) := by
  decide +kernel

theorem witness_DriveFixesFullScale :
    inUnit numerics 0#64 = true ∧ inUnit numerics numOne = true ∧ inUnit numerics State.reset.params.drive = true ∧
    numerics.lt (numerics.ofNat 0) State.reset.params.drive = true ∧ numerics.lt (numerics.ofNat 0) 0#64 = false := by
  decide +kernel

theorem witness_QuantizerFloorsOrFails :
    numerics.isFinite (numerics.mul 0x7FE1CCF385EBC8A0#64 (quantScale numerics State.reset.params)) = false ∧
    numerics.isFinite (numerics.mul 0x3FE0000000000000#64 (quantScale numerics State.reset.params)) = true ∧
    numericsOf Caps.default = ⟨Num64, numerics⟩ ∧
    numerics.standsFor (numerics.mul 0xC000000000000000#64 (numOfNat 65535)) (.finite (-131070 : Int)) := by
  refine ⟨?_, ?_, rfl, stands_int ?_⟩ <;> decide +kernel

theorem witness_SaturatorIsBoundedAndOdd :
    numIsFinite 0x7FEFFFFFFFFFFFFF#64 = true ∧ numIsFinite 0#64 = true ∧
    finiteNonneg numerics 0x7FEFFFFFFFFFFFFF#64 = true ∧ finiteNonneg numerics 0#64 = true ∧
    (Caps.default.numerics = .binary64 ∧ numericsOf Caps.default = ⟨Num64, numerics⟩ ∧ SignsFollow numerics) ∧
    (numerics.standsFor (numNeg (numOfNat 65535)) (.finite (-65535 : Int)) ∧
      numerics.standsFor (numOfNat 16777215) (.finite (16777215 : Int)) ∧ numerics.isFinite 0#64 = true ∧
      numerics.le (numerics.ofNat 0) 0#64 = true) := by
  refine ⟨?_, ?_, ?_, ?_, ⟨rfl, rfl, Laws.signsFollow_binary64 _⟩, stands_int ?_, stands_int ?_, ?_, ?_⟩
  all_goals decide +kernel

/-- Bands around the proxy frequency 440, one record for each gain. -/
theorem witness_BandGainAttenuates :
    let nx := constNumerics 0#64
    let f := nx.mul (nx.ofNat 440) (nx.pow (nx.ofNat 2) 0#64)
    let p := State.reset.params
    numLe (numNeg (numOfNat 32768)) (numOfNat 32768) = true ∧ numLe (numOfNat 32768) (numOfNat 32768) = true ∧
    numLe (numNeg (numOfNat 32768)) (numNeg (numOfNat 32768)) = true ∧
    nx.lt f (nx.asF64 0x407F400000000000#64) = true ∧
    (nx.lt f (nx.asF64 p.band0) = false ∧ nx.lt f (nx.asF64 p.band1) = true) ∧
    (nx.lt f (nx.asF64 p.band0) = false ∧ nx.lt f (nx.ofNat 440) = false ∧ nx.lt f (nx.asF64 p.band2) = true) ∧
    (nx.lt f (nx.asF64 p.band0) = false ∧ nx.lt f (nx.ofNat 400) = false ∧ nx.lt f (nx.ofNat 440) = false) := by
  decide +kernel

/-- Arithmetic that rounds, and integers on both sides of 0. -/
theorem witness_BandGainOfAnInteger :
    (Caps.default.numerics = .binary64 ∧ numericsOf Caps.default = ⟨Num64, numerics⟩ ∧ ArithmeticRounds numerics) ∧
    numerics.standsFor (numOfNat 32768) (.finite (32768 : Int)) ∧
    numerics.standsFor (numNeg (numOfNat 32768)) (.finite (-32768 : Int)) := by
  refine ⟨⟨rfl, rfl, Laws.arithmeticRounds_binary64 _⟩, stands_int ?_, stands_int ?_⟩ <;> decide +kernel

/-- Both ends of each ramp of N = 8, k = 2, and the middle; and N / 2 for N = 4. -/
theorem witness_FadeEndsAtZero :
    (LegalCaps Caps.default ∧ validate Caps.default State.reset.params = none) ∧
    (Caps.default.numerics = .binary64 ∧ numericsOf Caps.default = ⟨Num64, numerics⟩ ∧ ArithmeticRounds numerics ∧
      ∃ h, numerics.standsFor h (.finite ((4 : Nat) / 2))) ∧
    (numerics.standsFor (numOfNat 32767) (.finite (32767 : Int)) ∧
      numerics.standsFor (numNeg (numOfNat 32767)) (.finite (-32767 : Int))) ∧
    (1 ≤ 1 ∧ 1 ≤ 2 / 2 ∧ 2 ≤ 2 ^ 20) ∧
    (1 ≤ 524288 ∧ 524288 ≤ 2 ^ 20 / 2 ∧ 2 ^ 20 ≤ 2 ^ 20) ∧ numIsFinite (numOfNat 32768) = true ∧
    (2 ≤ 8 / 2 ∧ 0 < 2 ∧ 1 < 2 ∧ ¬ 2 < 2 ∧ ¬ 8 - 2 ≤ 5 ∧ 8 - 2 ≤ 6 ∧ 8 - 2 ≤ 7 ∧ 7 < 8) ∧
    numerics.lt (numerics.ofNat 0) (numerics.asF64 State.reset.params.fadeDuration) = true ∧
    (∃ v, { State.reset.params with fadeDuration := 0#64 } = { State.reset.params with fadeDuration := v } ∧
      numerics.lt (numerics.ofNat 0) (numerics.asF64 v) = false) := by
  have half : ((4 : Nat) : ℝ) / 2 = ((2 : Int) : ℝ) := by norm_num
  refine ⟨⟨?_, ?_⟩, ⟨rfl, rfl, Laws.arithmeticRounds_binary64 _, numOfNat 2, half ▸ stands_int ?_⟩,
    ⟨stands_int ?_, stands_int ?_⟩, ?_, ?_, ?_, ?_, ?_, 0#64, rfl, ?_⟩
  · unfold LegalCaps; decide
  all_goals decide +kernel

/-- A render without noise and one with it, at either bit depth; the first is the record of `plainRecord`. -/
theorem witness_RenderWritesBackItsBuffer :
    let noisy := { plainRecord with bitDepth := 24#32, noiseType := 3#32, noiseAmount := numOne }
    LegalCaps Caps.default ∧ validate Caps.default plainRecord = none ∧ validate Caps.default noisy = none ∧
    (∃ w, renderBuffer (numericsOf Caps.default).ops plainRecord = some w) ∧
    (∃ w, renderBuffer (numericsOf Caps.default).ops noisy = some w) ∧
    (∃ ws, render (constNumerics 0#64) plainRecord = some ws) ∧
    ∃ ws, render (constNumerics 0#64) { plainRecord with duration := 0x3FB999999999999A#64 } = some ws := by
  simp only [← Option.isSome_iff_exists]
  refine ⟨by unfold LegalCaps; decide, ?_, ?_, ?_, ?_, ?_, ?_⟩ <;> decide +kernel

theorem witness_UnreadRegistersNeverMatter :
    AgreeOnWhatIsRead State.reset.params
      { State.reset.params with
        filterCutoff := 0#64, filterResonance := numOne, pitchDecay := numOne, levelCount := 9#32
        noiseAmount := numOne, oscLevels := [numOne, numOne] } := by
  unfold AgreeOnWhatIsRead; decide

theorem witness_StagesFusePerSample :
    plainRecord.waveform.toNat ≤ 3 ∧ { plainRecord with waveform := 3#32 }.waveform.toNat ≤ 3 ∧
    plainRecord.noiseType = 0#32 := by decide

/-- A render that draws in both stages; one whose quantizer overflows; and the limits of the noise codes. -/
theorem witness_NoiseFollowsItsOrder :
    (∃ r, oscStage (constNumerics 0#64) plainRecord 2 0 (dspStart (constNumerics 0#64) plainRecord) = some r) ∧
    (∃ r, oscStage (constNumerics 0#64) { plainRecord with waveform := 6#32 } 2 0
      (dspStart (constNumerics 0#64) { plainRecord with waveform := 6#32 }) = some r) ∧
    oscStage (constNumerics 0#64) overflowRecord 2 0 (dspStart (constNumerics 0#64) overflowRecord) = none ∧
    (4 ≤ { plainRecord with waveform := 4#32 }.waveform.toNat ∧
      { plainRecord with waveform := 6#32 }.waveform.toNat ≤ 6) ∧
    numerics.lt (numerics.ofNat 0) (numerics.asF64 { plainRecord with fadeDuration := 0#64 }.fadeDuration) = false ∧
    [numOne][0]? = some numOne ∧ 1 ≤ { plainRecord with noiseType := 1#32 }.noiseType.toNat ∧
    { plainRecord with noiseType := 3#32 }.noiseType.toNat ≤ 3 := by
  simp only [← Option.isSome_iff_exists]; decide +kernel

theorem witness_EngineCompletesTheRender :
    ∃ ws, { running 0 with engine := .running plainRecord 0 }.engine = .running plainRecord 0 ∧
      render (numericsOf (running 0).caps).ops plainRecord = some ws := by
  have h : (render (numericsOf (running 0).caps).ops plainRecord).isSome = true := by decide +kernel
  obtain ⟨ws, hw⟩ := Option.isSome_iff_exists.1 h
  exact ⟨ws, rfl, hw⟩

theorem witness_EngineAbortsOnNonfinite :
    { running 0 with engine := .running overflowRecord 0 }.engine = .running overflowRecord 0 ∧
    validate Caps.default overflowRecord = none ∧ render (numericsOf (running 0).caps).ops overflowRecord = none := by
  have h : (render (numericsOf (running 0).caps).ops overflowRecord).isNone = true := by decide +kernel
  have h2 : validate Caps.default overflowRecord = none := by decide +kernel
  exact ⟨rfl, h2, Option.isNone_iff_eq_none.1 h⟩

theorem witness_SpecialValuesPropagate :
    numIsNaN 0x7FF0000000000001#64 = true ∧ numIsInf (numInf true) = true ∧ numIsInf (numInf false) = true ∧
    numSign (numInf true) ≠ numSign (numInf false) ∧ numIsFinite numOne = true ∧ numIsNaN numOne = false ∧
    numIsZero 0x8000000000000000#64 = true ∧ numIsFinite 0x8000000000000000#64 = true ∧ numIsZero numOne = false := by
  decide

/-- A running state that meets the invariant. -/
theorem inv_running (left : Nat) : Inv (running left) where
  capsLegal := show CapsLegal (running 0) by unfold CapsLegal LegalCaps; decide
  levelsMatch := by
    refine ⟨rfl, ?_⟩
    rintro p ⟨rfl⟩
    rfl
  busyMatches := rfl
  runningLegal := by
    rintro p ⟨rfl⟩
    have h : validate (running 0).caps State.reset.params = none ∧
        96000#32 = BitVec.ofNat 32 (sampleCount (numericsOf (running 0).caps).ops State.reset.params) := by
      decide +kernel
    exact ⟨h.1, rfl, rfl, rfl, h.2, rfl⟩
  memCanonical := rfl
  definedEntries := .inl rfl
  doneMeansHeld := by rintro ⟨⟩
  bpsLegal := .inl rfl
  errorRecordLegal := ⟨fun _ => ⟨rfl, rfl⟩, by rintro ⟨⟩⟩

theorem witness_RunningRenderEnds :
    Inv (running 3) ∧ (running 3).engine = .running State.reset.params 3 ∧ (∃ t, step (running 3) = .next t) ∧
    Inv (running 0) ∧ (running 0).engine = .running State.reset.params 0 ∧ ∃ t, step (running 0) = .next t :=
  ⟨inv_running 3, rfl, ⟨_, rfl⟩, inv_running 0, rfl, ⟨_, rfl⟩⟩

theorem witness_RunningSnapshotIsIsolated :
    (running 1).status.busy = true ∧
    (∃ t, performEvent (.write ⟨0x060#24, .eight, 1#64⟩) (running 1) = .next t) ∧
    BusEvent.write ⟨0x060#24, .eight, 1#64⟩ ≠ .reset ∧
    BusEvent.write ⟨0x060#24, .eight, 1#64⟩ ≠ .write (encode .softReset) := ⟨rfl, ⟨_, rfl⟩, by decide, by decide⟩

theorem witness_OverrunIsSticky :
    (setOverrun (running 1)).status.overrun = true ∧ (∃ t, step (setOverrun (running 1)) = .next t) ∧
    ∃ t, step { setOverrun State.reset with inbox := [.write (encode .clearStatus)] } = .next t :=
  ⟨rfl, ⟨_, rfl⟩, ⟨_, rfl⟩⟩

theorem witness_OnlyTheHostWritesRegisters :
    (onNext (step (State.reset.withFetchWord 32 3)) fun t => t.params != State.reset.params) = true ∧
    (onNext (step (State.reset.withFetchWord 8 0)) fun t => t.params != State.reset.params) = true := by decide

theorem witness_StepKeepsTheInvariant : Inv (running 0) ∧ ∃ t, step (running 0) = .next t :=
  ⟨inv_running 0, ⟨_, rfl⟩⟩

/-- A state that holds a render of two full-scale samples meets both invariants. -/
theorem witness_StepKeepsSamplesBounded :
    Inv (holding 2#4 [0x00007FFF#32, 0xFFFF8001#32]) ∧
    SamplesBounded (holding 2#4 [0x00007FFF#32, 0xFFFF8001#32]) ∧
    ∃ t, step (holding 2#4 [0x00007FFF#32, 0xFFFF8001#32]) = .next t := by
  have entries : ∀ i, readSample (holding 2#4 [0x00007FFF#32, 0xFFFF8001#32]).mem i =
      [0x00007FFF#32, 0xFFFF8001#32][i]? := fun i => Laws.readSample_memOfSamples _ i
  have defined : ∀ i, (readSample (holding 2#4 [0x00007FFF#32, 0xFFFF8001#32]).mem i).isSome =
      decide (i < (holding 2#4 [0x00007FFF#32, 0xFFFF8001#32]).status.samples.toNat) := by
    intro i
    rw [entries i]
    rcases i with _ | _ | i <;> simp [holding, withStatus]
  refine ⟨⟨by unfold CapsLegal LegalCaps; decide, ⟨rfl, by rintro p ⟨⟩⟩, rfl, by rintro p ⟨⟩, Laws.memWf_memOfSamples _ _,
    .inr defined, fun _ => ⟨rfl, by decide, defined⟩, .inl rfl, ⟨fun _ => ⟨rfl, rfl⟩, by rintro ⟨⟩⟩⟩, ?_, ⟨_, rfl⟩⟩
  intro i w h
  rw [entries i] at h
  rcases i with _ | _ | i <;> simp at h <;> subst h <;> decide

end Sys2Proof.Tests
end

/-! ### A render writes back N words -/

section
namespace Sys2Proof.Proofs

open Sys2Proof.Machine Sys2Proof.Safety Sys2Proof.Laws

variable {Num : Type} {nx : Numerics Num}

/-- Stage OSC gives one value per sample. -/
theorem length_oscStage {p : Params} {n i : Nat} {d : Dsp Num} {r : List Num × Dsp Num}
    (h : oscStage nx p n i d = some r) : r.1.length = n := by
  induction n generalizing i d r with
  | zero => cases h; rfl
  | succ n ih =>
    simp only [oscStage] at h
    split at h
    · cases h
    · split at h
      · cases h
      next hrest => cases h; exact congrArg (· + 1) (ih hrest)

@[simp] theorem length_mapStage (g : Nat → Num → Num) (i : Nat) (w : List Num) :
    (mapStage g i w).length = w.length := by
  induction w generalizing i with
  | nil => rfl
  | cons x w ih => exact congrArg (· + 1) (ih (i + 1))

@[simp] theorem length_noiseStage (p : Params) (i : Nat) (w : List Num) (d : Dsp Num) :
    (noiseStage nx p i w d).length = w.length := by
  induction w generalizing i d with
  | nil => rfl
  | cons x w ih => exact congrArg (· + 1) (ih (i + 1) _)

@[simp] theorem length_postChain (p : Params) (n : Nat) (w : List Num) (d : Dsp Num) :
    (postChain nx p n w d).length = w.length := by
  simp only [postChain]
  split <;> split <;> simp

/-- A render that ends has N samples (41_render.md rule R146). -/
theorem length_render {p : Params} {ws : List (BitVec 32)} (h : render nx p = some ws) :
    ws.length = sampleCount nx p := by
  simp only [render, renderBuffer, Option.map_eq_some_iff] at h
  obtain ⟨w, ⟨r, hr, rfl⟩, rfl⟩ := h
  simp [length_oscStage hr]

end Sys2Proof.Proofs
end

/-! ### Every step keeps the invariant -/

section
namespace Sys2Proof.Proofs

open Sys2Proof.Machine Sys2Proof.Safety Sys2Proof.Laws

theorem runningSnapshot_of_running {s : State} {p : Params} {left : Nat} (h : s.engine = .running p left) :
    runningSnapshot s = some p := by
  unfold runningSnapshot
  rw [h]

@[simp] theorem runningSnapshot_tickEngine (s : State) : runningSnapshot (tickEngine s) = runningSnapshot s := by
  unfold tickEngine
  split
  next h => exact (runningSnapshot_of_running h).symm
  next h => exact (runningSnapshot_of_running h).symm
  next => rfl

@[simp] theorem length_oscLevels_setLevel (k : Nat) (v : Word) (p : Params) :
    (setLevel k v p).oscLevels.length = p.oscLevels.length := by
  simp [setLevel]

/-- A register write keeps the number of level registers. -/
@[simp] theorem length_oscLevels_storeReg (r : Reg) (v : Word) (s : State) :
    (storeReg r v s).params.oscLevels.length = s.params.oscLevels.length := by
  cases r with
  | u32 r => cases r <;> rfl
  | f64 r => cases r <;> rfl
  | oscLevel k => exact length_oscLevels_setLevel k v s.params
  | _ => rfl

/-- While BUSY is 0 no snapshot runs. -/
theorem runningSnapshot_eq_none {s : State} (h : Inv s) (hb : s.status.busy = false) : runningSnapshot s = none := by
  have hm := h.busyMatches
  unfold BusyMatches at hm
  rw [hb] at hm
  exact Option.isNone_iff_eq_none.1 (by simpa using hm.symm)

/-- With no snapshot running nothing is asked of one. -/
theorem runningLegal_of_none {s : State} (h : runningSnapshot s = none) : RunningLegal s :=
  fun _ hp => by cases h.symm.trans hp

/-- The invariant speaks of the capacities, STATUS, the running snapshot, the sample memory and the number of level
registers alone. -/
theorem inv_of_eq {s t : State} (h : Inv s) (hcaps : t.caps = s.caps) (hstatus : t.status = s.status)
    (hsnap : runningSnapshot t = runningSnapshot s) (hmem : t.mem = s.mem)
    (hlen : t.params.oscLevels.length = s.params.oscLevels.length) : Inv t where
  capsLegal := by unfold CapsLegal; rw [hcaps]; exact h.capsLegal
  levelsMatch := by unfold LevelsMatch; rw [hlen, hsnap, hcaps]; exact h.levelsMatch
  busyMatches := by unfold BusyMatches; rw [hstatus, hsnap]; exact h.busyMatches
  runningLegal := by unfold RunningLegal; rw [hstatus, hsnap, hmem, hcaps]; exact h.runningLegal
  memCanonical := by unfold MemCanonical; rw [hmem]; exact h.memCanonical
  definedEntries := by unfold DefinedEntries; rw [hmem, hstatus]; exact h.definedEntries
  doneMeansHeld := by unfold DoneMeansHeld; rw [hmem, hstatus]; exact h.doneMeansHeld
  bpsLegal := by unfold BpsLegal; rw [hmem, hstatus]; exact h.bpsLegal
  errorRecordLegal := by unfold ErrorRecordLegal; rw [hstatus]; exact h.errorRecordLegal

/-- Recording a dropped command keeps the invariant, which does not speak of OVERRUN. -/
theorem inv_setOverrun {s : State} (h : Inv s) : Inv (setOverrun s) where
  capsLegal := h.capsLegal
  levelsMatch := h.levelsMatch
  busyMatches := h.busyMatches
  runningLegal := h.runningLegal
  memCanonical := h.memCanonical
  definedEntries := h.definedEntries
  doneMeansHeld := h.doneMeansHeld
  bpsLegal := h.bpsLegal
  errorRecordLegal := h.errorRecordLegal

/-- Recording a legal error while idle keeps the invariant. -/
theorem inv_raiseErr {s : State} {code : ErrCode} {detail : Byte} (h : Inv s) (hb : s.status.busy = false)
    (hlegal : ErrorRecordLegal (raiseErr code detail s)) : Inv (raiseErr code detail s) where
  capsLegal := h.capsLegal
  levelsMatch := h.levelsMatch
  busyMatches := h.busyMatches
  runningLegal := runningLegal_of_none (show runningSnapshot s = none from runningSnapshot_eq_none h hb)
  memCanonical := h.memCanonical
  definedEntries := h.definedEntries
  doneMeansHeld := h.doneMeansHeld
  bpsLegal := h.bpsLegal
  errorRecordLegal := hlegal

/-- The record of a failing check is one of rule R300. -/
theorem errorRecordLegal_of_validate {c : Caps} {p : Params} {code : ErrCode} {detail : Byte} {s : State}
    (h : validate c p = some (code, detail)) : ErrorRecordLegal (raiseErr code detail s) := by
  refine ⟨by rintro ⟨⟩, fun _ => ?_⟩
  obtain ⟨rfl, hd⟩ | ⟨rfl, hd⟩ | ⟨rfl, hd⟩ := validateIn_eq_some h
  · exact .inl ⟨rfl, hd⟩
  · exact .inr (.inl ⟨rfl, hd⟩)
  · exact .inr (.inr (.inl ⟨rfl, hd⟩))

theorem errorRecordLegal_illegalCmd (detail : Byte) (s : State) : ErrorRecordLegal (raiseErr .illegalCmd detail s) :=
  ⟨by rintro ⟨⟩, fun _ => .inr (.inr (.inr (.inr rfl)))⟩

/-- Clearing the record while idle keeps the invariant. -/
theorem inv_clearStatus {s : State} (h : Inv s) (hb : s.status.busy = false) : Inv (clearStatus s) where
  capsLegal := h.capsLegal
  levelsMatch := h.levelsMatch
  busyMatches := h.busyMatches
  runningLegal := runningLegal_of_none (show runningSnapshot s = none from runningSnapshot_eq_none h hb)
  memCanonical := h.memCanonical
  definedEntries := h.definedEntries
  doneMeansHeld := by rintro ⟨⟩
  bpsLegal := h.bpsLegal
  errorRecordLegal := ⟨fun _ => ⟨rfl, rfl⟩, by rintro ⟨⟩⟩

/-- The BPS of a valid snapshot is 2 or 3 (41_render.md rule R142). -/
theorem bps_of_valid {c : Caps} {p : Params} (h : validate c p = none) :
    BitVec.ofNat 4 (asU32 p.bitDepth / 8) = 2#4 ∨ BitVec.ofNat 4 (asU32 p.bitDepth / 8) = 3#4 := by
  obtain ⟨⟨-, -, -, -, -, hbd⟩, -, -⟩ := validateIn_iff.1 h
  obtain hbd | hbd := hbd <;> rw [hbd]
  · exact .inl (by decide)
  · exact .inr (by decide)

/-- Acceptance of a valid snapshot meets the invariant. -/
theorem inv_accept {s : State} (h : Inv s) (hv : validate s.caps s.params = none) : Inv (accept s.params s) where
  capsLegal := h.capsLegal
  levelsMatch := by
    refine ⟨h.levelsMatch.1, ?_⟩
    rintro p ⟨⟩
    exact h.levelsMatch.1
  busyMatches := rfl
  runningLegal := by
    rintro p ⟨⟩
    exact ⟨hv, rfl, rfl, rfl, rfl, rfl⟩
  memCanonical := rfl
  definedEntries := .inl rfl
  doneMeansHeld := by rintro ⟨⟩
  bpsLegal := (bps_of_valid hv).imp id .inl
  errorRecordLegal := ⟨fun _ => ⟨rfl, rfl⟩, by rintro ⟨⟩⟩

/-- A reset meets the invariant, whatever the block held. -/
theorem inv_resetBlock {s : State} (h : Inv s) : Inv (resetBlock s) where
  capsLegal := h.capsLegal
  levelsMatch := by
    refine ⟨by simp [Params.reset, resetLevels], ?_⟩
    rintro p ⟨⟩
  busyMatches := rfl
  runningLegal := runningLegal_of_none rfl
  memCanonical := rfl
  definedEntries := .inl rfl
  doneMeansHeld := by rintro ⟨⟩
  bpsLegal := .inr (.inr ⟨rfl, rfl, rfl⟩)
  errorRecordLegal := ⟨fun _ => ⟨rfl, rfl⟩, by rintro ⟨⟩⟩

/-- The NONFINITE abort meets the invariant. -/
theorem inv_abortNonfinite {s : State} (h : Inv s) : Inv (abortNonfinite s) where
  capsLegal := h.capsLegal
  levelsMatch := by
    refine ⟨h.levelsMatch.1, ?_⟩
    rintro p ⟨⟩
  busyMatches := rfl
  runningLegal := runningLegal_of_none rfl
  memCanonical := rfl
  definedEntries := .inl rfl
  doneMeansHeld := by rintro ⟨⟩
  bpsLegal := .inr (.inr ⟨rfl, rfl, rfl⟩)
  errorRecordLegal := ⟨by rintro ⟨⟩, fun _ => .inr (.inr (.inr (.inl ⟨rfl, rfl⟩)))⟩

/-- Completion defines exactly the entries [0, SAMPLES) (41_render.md rule R160). -/
theorem isSome_readSample_complete {s : State} {p : Params} {ws : List (BitVec 32)} (h : Inv s)
    (hp : runningSnapshot s = some p) (hr : render (numericsOf s.caps).ops p = some ws) (i : Nat) :
    (readSample (complete ws s).mem i).isSome = decide (i < (complete ws s).status.samples.toNat) := by
  obtain ⟨hv, -, -, -, hsamples, -⟩ := h.runningLegal p hp
  have hle := sampleCount_le hv
  have hmax := s.caps.maxSamples.isLt
  have hcount : s.status.samples.toNat = ws.length := by
    rw [hsamples, length_render hr, BitVec.toNat_ofNat, Nat.mod_eq_of_lt (by omega)]
  rw [complete_mem, complete_status, readSample_memOfSamples, hcount]
  rw [Bool.eq_iff_iff, decide_eq_true_iff, Option.isSome_iff_ne_none, ne_eq, List.getElem?_eq_none_iff, not_le]

/-- The completion of the running render meets the invariant. -/
theorem inv_complete {s : State} {p : Params} {ws : List (BitVec 32)} (h : Inv s) (hp : runningSnapshot s = some p)
    (hr : render (numericsOf s.caps).ops p = some ws) : Inv (complete ws s) := by
  obtain ⟨hv, -, herr, hbps, -, -⟩ := h.runningLegal p hp
  have hdefined := isSome_readSample_complete h hp hr
  have hb : s.status.bps = 2#4 ∨ s.status.bps = 3#4 := by rw [hbps]; exact bps_of_valid hv
  exact {
    capsLegal := h.capsLegal
    levelsMatch := by
      refine ⟨h.levelsMatch.1, ?_⟩
      rintro p ⟨⟩
    busyMatches := rfl
    runningLegal := runningLegal_of_none rfl
    memCanonical := memWf_memOfSamples ws 0
    definedEntries := .inr hdefined
    doneMeansHeld := fun _ => ⟨rfl, by obtain e | e := hb <;> simp [e], hdefined⟩
    bpsLegal := hb.imp id .inl
    errorRecordLegal := h.errorRecordLegal }

/-- The engine's update keeps the invariant. -/
theorem inv_engineUpdate {s : State} {p : Params} (h : Inv s) (hp : runningSnapshot s = some p) :
    Inv (engineUpdate p s) := by
  unfold engineUpdate
  split
  next hr => exact inv_complete h hp hr
  next => exact inv_abortNonfinite h

/-- The passing of a host-visible step keeps the invariant, whatever accesses are left to perform. -/
theorem inv_tickEngine {s : State} (h : Inv s) (rest : List BusEvent) :
    Inv { tickEngine s with inbox := rest } :=
  inv_of_eq h (tickEngine_caps s) (tickEngine_status s) (runningSnapshot_tickEngine s) (tickEngine_mem s)
    (congrArg (·.oscLevels.length) (tickEngine_params s))

/-- A register write keeps the invariant. -/
theorem inv_storeReg {s : State} (h : Inv s) (r : Reg) (v : Word) : Inv (storeReg r v s) :=
  inv_of_eq h (storeReg_caps r v s) (storeReg_status r v s) (by simp only [runningSnapshot, storeReg_engine])
    (storeReg_mem r v s) (length_oscLevels_storeReg r v s)

/-- A command keeps the invariant. -/
theorem inv_of_commandEffect {i : Instr} {s t : State} (h : Inv s) (he : CommandEffect i s t) : Inv t := by
  obtain ⟨-, rfl⟩ | ⟨-, -, rfl⟩ | ⟨hb, -, code, detail, hv, rfl⟩ | ⟨-, -, hv, rfl⟩ | ⟨hb, -, rfl⟩ | ⟨-, rfl⟩ := he
  · exact h
  · exact inv_setOverrun h
  · exact inv_raiseErr h hb (errorRecordLegal_of_validate hv)
  · exact inv_accept h hv
  · exact inv_clearStatus h hb
  · exact inv_resetBlock h

/-- A host write keeps the invariant. -/
theorem inv_of_writeEffect {a : BusWrite} {s t : State} (h : Inv s) (he : WriteEffect a s t) : Inv t := by
  obtain ⟨-, ⟨i, -, hc⟩ | ⟨-, rfl⟩ | ⟨hb, detail, rfl⟩ | ⟨r, v, rfl⟩⟩ := he
  · exact inv_of_commandEffect h hc
  · exact inv_setOverrun h
  · exact inv_raiseErr h hb (errorRecordLegal_illegalCmd detail s)
  · exact inv_storeReg h r v

/-- A host interaction keeps the invariant. -/
theorem inv_performEvent {e : BusEvent} {s t : State} (h : Inv s) (he : performEvent e s = .next t) : Inv t := by
  obtain ⟨a, -, hw⟩ | ⟨off, width, v, c, -, rfl⟩ | ⟨-, rfl⟩ := performEvent_effect he
  · exact inv_of_writeEffect h hw
  · exact inv_of_eq h rfl rfl rfl rfl rfl
  · exact inv_resetBlock h

/-- Settles O57: the three things a step can be each keep the invariant. -/
theorem stepKeepsTheInvariant : Obligations.StepKeepsTheInvariant := by
  intro s t h hst
  obtain ⟨p, hp, rfl⟩ | ⟨-, -, rfl⟩ | ⟨e, rest, -, -, he⟩ := step_effect hst
  · exact inv_engineUpdate h (runningSnapshot_of_running hp)
  · exact inv_tickEngine h (tickEngine s).inbox
  · exact inv_performEvent (inv_tickEngine h rest) he

end Sys2Proof.Proofs
end

/-! ### The order of binary64 -/

section
namespace Sys2Proof.Proofs

open Sys2Proof.Machine Sys2Proof.Laws

/-- The exact value in terms of the bits below the sign. -/
theorem numScaled_eq (x : Num64) :
    numScaled x = if numSign x then -(patMag (lowBits x) : Int) else (patMag (lowBits x) : Int) := by
  rw [numScaled, numMag_eq]

/-- The key orders all values as their exact magnitudes and signs do: a magnitude grows with the bits below the sign. -/
theorem numKey_lt_iff (x y : Num64) : numKey x < numKey y ↔ numScaled x < numScaled y := by
  have hzero : patMag 0 = 0 := rfl
  have hx := patMag_strictMono.lt_iff_lt (a := 0) (b := lowBits x)
  have hy := patMag_strictMono.lt_iff_lt (a := 0) (b := lowBits y)
  have hxy := patMag_strictMono.lt_iff_lt (a := lowBits x) (b := lowBits y)
  have hyx := patMag_strictMono.lt_iff_lt (a := lowBits y) (b := lowBits x)
  rw [numKey_eq, numKey_eq, numScaled_eq, numScaled_eq]
  cases numSign x <;> cases numSign y <;> simp only [Bool.false_eq_true, if_true, if_false] <;> omega

theorem numKey_le_iff (x y : Num64) : numKey x ≤ numKey y ↔ numScaled x ≤ numScaled y := by
  rw [← not_lt, ← not_lt, numKey_lt_iff]

theorem numKey_eq_iff (x y : Num64) : numKey x = numKey y ↔ numScaled x = numScaled y := by
  rw [le_antisymm_iff, le_antisymm_iff, numKey_le_iff, numKey_le_iff]

theorem numLt_iff {x y : Num64} (hx : numIsNaN x = false) (hy : numIsNaN y = false) :
    numLt x y = true ↔ numKey x < numKey y := by
  simp [numLt, hx, hy]

theorem numLe_iff {x y : Num64} (hx : numIsNaN x = false) (hy : numIsNaN y = false) :
    numLe x y = true ↔ numKey x ≤ numKey y := by
  simp [numLe, hx, hy]

theorem numEq_iff {x y : Num64} (hx : numIsNaN x = false) (hy : numIsNaN y = false) :
    numEq x y = true ↔ numKey x = numKey y := by
  simp [numEq, hx, hy]

theorem numEq_comm (x y : Num64) : numEq x y = numEq y x := by
  rw [numEq, numEq, Bool.and_comm (!numIsNaN x)]
  simp only [eq_comm]

theorem numLt_false_of_nan {x y : Num64} (h : numIsNaN x = true ∨ numIsNaN y = true) : numLt x y = false := by
  obtain h | h := h <;> simp [numLt, h]

theorem numLe_false_of_nan {x y : Num64} (h : numIsNaN x = true ∨ numIsNaN y = true) : numLe x y = false := by
  obtain h | h := h <;> simp [numLe, h]

theorem numEq_false_of_nan {x y : Num64} (h : numIsNaN x = true ∨ numIsNaN y = true) : numEq x y = false := by
  obtain h | h := h <;> simp [numEq, h]

/-! ### Infinities, zeros and NaN -/

@[simp] theorem numSign_numInf (b : Bool) : numSign (numInf b) = b := by cases b <;> decide
@[simp] theorem lowBits_numInf (b : Bool) : lowBits (numInf b) = infPattern := by cases b <;> decide
@[simp] theorem numIsNaN_numInf (b : Bool) : numIsNaN (numInf b) = false := by cases b <;> decide
@[simp] theorem numIsInf_numInf (b : Bool) : numIsInf (numInf b) = true := by cases b <;> decide
@[simp] theorem numIsFinite_numInf (b : Bool) : numIsFinite (numInf b) = false := by cases b <;> decide
@[simp] theorem numIsNaN_numNaN : numIsNaN numNaN = true := by decide
@[simp] theorem numIsZero_numZero (b : Bool) : numIsZero (numZero b) = true := by cases b <;> decide
@[simp] theorem numIsFinite_numZero (b : Bool) : numIsFinite (numZero b) = true := by cases b <;> decide
@[simp] theorem numScaled_numZero (b : Bool) : numScaled (numZero b) = 0 := by cases b <;> decide
@[simp] theorem numIsNaN_numNeg (x : Num64) : numIsNaN (numNeg x) = numIsNaN x := by
  rw [Bool.eq_iff_iff, numIsNaN_iff, numIsNaN_iff, lowBits_numNeg]
@[simp] theorem numIsInf_numNeg (x : Num64) : numIsInf (numNeg x) = numIsInf x := by
  rw [Bool.eq_iff_iff, numIsInf_iff, numIsInf_iff, lowBits_numNeg]
@[simp] theorem numNeg_numInf (b : Bool) : numNeg (numInf b) = numInf !b := by cases b <;> decide

/-- An infinity is that of its sign. -/
theorem eq_numInf_of_isInf {x : Num64} (h : numIsInf x = true) : x = numInf (numSign x) := by
  rw [numInf, ← (numIsInf_iff x).1 h]
  exact eq_numOfParts x

theorem numIsInf_iff_eq (x : Num64) : numIsInf x = true ↔ x = numInf false ∨ x = numInf true := by
  constructor
  · intro h
    have he := eq_numInf_of_isInf h
    cases hs : numSign x <;> rw [hs] at he
    · exact .inl he
    · exact .inr he
  · rintro (rfl | rfl) <;> rfl

theorem not_nan_of_isInf {x : Num64} (h : numIsInf x = true) : numIsNaN x = false := by
  rw [eq_numInf_of_isInf h]
  exact numIsNaN_numInf _

theorem not_zero_of_isInf {x : Num64} (h : numIsInf x = true) : numIsZero x = false := by
  rw [eq_numInf_of_isInf h]
  cases numSign x <;> decide

/-- A value is finite, an infinity or a NaN. -/
theorem finite_or_inf_or_nan (x : Num64) : numIsFinite x = true ∨ numIsInf x = true ∨ numIsNaN x = true := by
  rw [numIsFinite_iff, numIsInf_iff, numIsNaN_iff]
  exact lt_trichotomy _ _

theorem not_finite_of_nan {x : Num64} (h : numIsNaN x = true) : numIsFinite x = false :=
  Bool.eq_false_iff.2 fun hf => Bool.eq_false_iff.1 (finite_not_nan hf) h

theorem not_inf_of_nan {x : Num64} (h : numIsNaN x = true) : numIsInf x = false :=
  Bool.eq_false_iff.2 fun hi => Bool.eq_false_iff.1 (not_nan_of_isInf hi) h

/-- The keys of the values that are no NaN run from that of minus infinity to that of plus infinity. -/
theorem numKey_range {x : Num64} (h : numIsNaN x = false) :
    -(infPattern : Int) ≤ numKey x ∧ numKey x ≤ (infPattern : Int) := by
  have hle := (notNaN_iff x).1 h
  rw [numKey_eq]
  split <;> omega

@[simp] theorem numKey_numInf (b : Bool) :
    numKey (numInf b) = if b then -(infPattern : Int) else (infPattern : Int) := by
  rw [numKey_eq, numSign_numInf, lowBits_numInf]

/-- The key of an infinity is its alone. -/
theorem numKey_eq_numInf_iff (x : Num64) (b : Bool) : numKey x = numKey (numInf b) ↔ x = numInf b := by
  refine ⟨fun h => ?_, fun h => by rw [h]⟩
  have hpos : 0 < infPattern := by decide
  rw [numKey_numInf, numKey_eq] at h
  have hparts : numSign x = b ∧ lowBits x = infPattern := by
    cases hs : numSign x <;> cases b <;> simp [hs] at h ⊢ <;> omega
  rw [eq_numOfParts x, hparts.1, hparts.2, numInf]

/-- The infinities bound the values that are no NaN, and each is equal to itself alone. -/
theorem compare_numInf {y : Num64} (h : numIsNaN y = false) :
    numLe y (numInf false) = true ∧ numLt (numInf false) y = false ∧
    numLe (numInf true) y = true ∧ numLt y (numInf true) = false ∧
    (numLt y (numInf false) = true ↔ y ≠ numInf false) ∧ (numLe (numInf false) y = true ↔ y = numInf false) ∧
    (numLt (numInf true) y = true ↔ y ≠ numInf true) ∧ (numLe y (numInf true) = true ↔ y = numInf true) ∧
    (numEq y (numInf false) = true ↔ y = numInf false) ∧ (numEq (numInf false) y = true ↔ y = numInf false) ∧
    (numEq y (numInf true) = true ↔ y = numInf true) ∧ (numEq (numInf true) y = true ↔ y = numInf true) := by
  obtain ⟨hlo, hhi⟩ := numKey_range h
  have hi := fun b => numIsNaN_numInf b
  have hp : numKey (numInf false) = infPattern := numKey_numInf false
  have hn : numKey (numInf true) = -infPattern := numKey_numInf true
  rw [numEq_comm (numInf false), numEq_comm (numInf true)]
  simp only [← Bool.not_eq_true, numLt_iff h (hi _), numLt_iff (hi _) h, numLe_iff h (hi _), numLe_iff (hi _) h,
    numEq_iff h (hi _), ne_eq, ← numKey_eq_numInf_iff y, hp, hn, and_true]
  refine ⟨?_, ?_, ?_, ?_, ?_, ?_, ?_, ?_⟩ <;> omega

/-- Settles O31: the key orders the values as their exact values, and the infinities hold its two ends. -/
theorem comparisonsAreExact : Obligations.ComparisonsAreExact := by
  refine ⟨fun x y h => ?_, fun x y hx hy => ?_, fun y h => compare_numInf h, numIsInf_iff_eq⟩
  · exact ⟨numLt_false_of_nan (.inl h), numLt_false_of_nan (.inr h), numLe_false_of_nan (.inl h),
      numLe_false_of_nan (.inr h), numEq_false_of_nan (.inl h), numEq_false_of_nan (.inr h)⟩
  · have hx' := finite_not_nan hx
    have hy' := finite_not_nan hy
    rw [numLt_iff hx' hy', numLe_iff hx' hy', numEq_iff hx' hy']
    exact ⟨numKey_lt_iff x y, numKey_le_iff x y, numKey_eq_iff x y⟩

/-! ### Special values in the arithmetic -/

theorem arithmetic_of_nan {x y : Num64} (h : numIsNaN x = true ∨ numIsNaN y = true) :
    numAdd x y = numNaN ∧ numSub x y = numNaN ∧ numMul x y = numNaN ∧ numDiv x y = numNaN := by
  obtain h | h := h <;> simp [numAdd, numSub, numMul, numDiv, h]

theorem numAdd_inf_finite {x y : Num64} (hx : numIsInf x = true) (hy : numIsFinite y = true) : numAdd x y = x := by
  simp [numAdd, not_nan_of_isInf hx, finite_not_nan hy, hx, finite_not_inf hy]

theorem numAdd_finite_inf {x y : Num64} (hx : numIsFinite x = true) (hy : numIsInf y = true) : numAdd x y = y := by
  simp [numAdd, not_nan_of_isInf hy, finite_not_nan hx, hy, finite_not_inf hx]

theorem numAdd_inf_inf {x y : Num64} (hx : numIsInf x = true) (hy : numIsInf y = true) :
    numAdd x y = if numSign x = numSign y then x else numNaN := by
  by_cases h : numSign x = numSign y <;> simp [numAdd, not_nan_of_isInf hx, not_nan_of_isInf hy, hx, hy, h]

theorem numMul_inf_left {x y : Num64} (hx : numIsInf x = true) (hy : numIsNaN y = false) :
    numMul x y = if numIsZero y then numNaN else numInf (numSign x != numSign y) := by
  simp [numMul, not_nan_of_isInf hx, hx, hy]

theorem numMul_inf_right {x y : Num64} (hx : numIsNaN x = false) (hy : numIsInf y = true) :
    numMul x y = if numIsZero x then numNaN else numInf (numSign x != numSign y) := by
  by_cases hi : numIsInf x = true
  · simp [numMul_inf_left hi (not_nan_of_isInf hy), not_zero_of_isInf hi, not_zero_of_isInf hy]
  · simp [numMul, not_nan_of_isInf hy, hx, hy, hi]

theorem numDiv_inf_left {x y : Num64} (hx : numIsInf x = true) (hy : numIsNaN y = false) :
    numDiv x y = if numIsInf y then numNaN else numInf (numSign x != numSign y) := by
  simp [numDiv, not_nan_of_isInf hx, hx, hy]

theorem numDiv_finite_inf {x y : Num64} (hx : numIsFinite x = true) (hy : numIsInf y = true) :
    numDiv x y = numZero (numSign x != numSign y) := by
  simp [numDiv, not_nan_of_isInf hy, finite_not_nan hx, finite_not_inf hx, hy]

theorem numIsFinite_of_isZero {x : Num64} (h : numIsZero x = true) : numIsFinite x = true := by
  rw [numIsFinite_iff, (numIsZero_iff x).1 h]
  decide

theorem numDiv_by_zero {x y : Num64} (hx : numIsFinite x = true) (hy : numIsZero y = true) :
    numDiv x y = if numIsZero x then numNaN else numInf (numSign x != numSign y) := by
  have hy' := numIsFinite_of_isZero hy
  simp [numDiv, finite_not_nan hx, finite_not_inf hx, finite_not_nan hy', finite_not_inf hy', hy]

/-- Settles O60, case by case: a NaN operand, an infinity and a finite value, two infinities, the products and quotients
with infinities and zeros. -/
theorem specialValuesPropagate : Obligations.SpecialValuesPropagate := by
  refine ⟨fun x y h => ?_, fun x y hx hy => ?_, fun x y hx hy => ?_, fun x y hx hy => ?_, fun x y hx hy => ?_⟩
  · obtain ⟨ha, hs, hm, hd⟩ := arithmetic_of_nan h
    rw [ha, hs, hm, hd]
    simp
  · have hneg : numIsFinite (numNeg y) = true := by rw [numIsFinite_numNeg, hy]
    refine ⟨numAdd_inf_finite hx hy, numAdd_finite_inf hy hx, numAdd_inf_finite hx hneg,
      numAdd_finite_inf hy (by rw [numIsInf_numNeg, hx]), ?_, ?_⟩
    · rw [numDiv_inf_left hx (finite_not_nan hy), finite_not_inf hy]
      rfl
    · rw [numDiv_finite_inf hy hx, numIsZero_numZero]
  · have hsub : numSub x y = if numSign x = !numSign y then x else numNaN := by
      rw [numSub, numAdd_inf_inf hx (by rw [numIsInf_numNeg, hy]), numSign_numNeg]
    rw [numAdd_inf_inf hx hy, hsub, numDiv_inf_left hx (not_nan_of_isInf hy), hy]
    refine ⟨fun h => ?_, fun h => ?_, numIsNaN_numNaN⟩
    · simp [h]
    · simp [h]
  · rw [numMul_inf_left hx hy, numMul_inf_right hy hx, bne_comm (a := numSign y)]
    exact ⟨fun h => by simp [h], fun h => by simp [h]⟩
  · rw [numDiv_by_zero hx hy]
    exact ⟨fun h => by simp [h], fun h => by simp [h]⟩

end Sys2Proof.Proofs
end

/-! ### Rounding is to nearest, ties to even -/

section
namespace Sys2Proof.Proofs

open Sys2Proof.Machine Sys2Proof.Laws Sys2Proof.Safety

/-- The pattern of an m of at most 53 bits under a shift k: the exponent field counts the shift. -/
theorem patMag_of_shift {k m : Nat} (hm : m ≤ 2 ^ 53) (hk : k = 0 ∨ 2 ^ 52 ≤ m) :
    patMag (2 ^ 52 * k + m) = m * 2 ^ k := by
  obtain rfl | hlo := hk
  · rw [Nat.mul_zero, Nat.zero_add, patMag_of_le hm, pow_zero, Nat.mul_one]
  · obtain rfl | hlt := hm.eq_or_lt
    · have h := patMag_mk (k + 1) 0 (by norm_num)
      rw [show 2 ^ 52 * k + 2 ^ 53 = (k + 1 + 1) * 2 ^ 52 + 0 by omega, h, Nat.add_zero, pow_succ' 2 k, ← Nat.mul_assoc,
        ← pow_succ]
    · have h := patMag_mk k (m - 2 ^ 52) (by omega)
      rw [show 2 ^ 52 * k + m = (k + 1) * 2 ^ 52 + (m - 2 ^ 52) by omega, h, Nat.add_sub_of_le hlo]

/-- Under the shift of n / d the quotient has at most 53 bits, and exactly 53 unless the shift is 0. -/
theorem shifted_quotient (n d : Nat) :
    n / (d * 2 ^ roundShift (n / d)) < 2 ^ 53 ∧
    (roundShift (n / d) = 0 ∨ 2 ^ 52 ≤ n / (d * 2 ^ roundShift (n / d))) := by
  rw [← Nat.div_div_eq_div_mul]
  obtain ⟨hk, hlt⟩ | ⟨-, hlo, hhi⟩ := roundShift_cases (n / d)
  · rw [hk, pow_zero, Nat.div_one]
    exact ⟨hlt, .inl rfl⟩
  · rw [pow_add] at hlo hhi
    exact ⟨(Nat.div_lt_iff_lt_mul (by positivity)).2 hhi, .inr ((Nat.le_div_iff_mul_le (by positivity)).2 hlo)⟩

/-- What `roundEven` picks: the quotient below, or the one above when that is nearer, or as near and even. -/
theorem roundEven_cases (n D : Nat) :
    (roundEven n D = n / D ∧ 2 * (n % D) ≤ D ∧ (2 * (n % D) = D → n / D % 2 = 0)) ∨
    (roundEven n D = n / D + 1 ∧ D ≤ 2 * (n % D) ∧ (2 * (n % D) = D → n / D % 2 = 1)) := by
  unfold roundEven
  dsimp only
  split
  next h => exact .inr ⟨rfl, by omega, by omega⟩
  next h => exact .inl ⟨rfl, by omega, by omega⟩

/-- A rounded value that stays finite is the pattern of the rounded quotient under its shift. -/
theorem roundPattern_of_lt {n d : Nat} (h : roundPattern n d < infPattern) :
    roundPattern n d = 2 ^ 52 * roundShift (n / d) + roundEven n (d * 2 ^ roundShift (n / d)) := by
  unfold roundPattern at h ⊢
  dsimp only at h ⊢
  omega

/-- The exact value n / d lies between the pattern of its quotient and the next one, and rounding picks one of the two: so
it gives a pattern as near as any p, and an even one where a pattern of another magnitude is as near. -/
theorem roundPattern_nearest {n d : Nat} (hd : 0 < d) (h : roundPattern n d < infPattern) (p : Nat) :
    roundingError n d (patMag (roundPattern n d)) ≤ roundingError n d (patMag p) ∧
    (patMag p ≠ patMag (roundPattern n d) →
      roundingError n d (patMag (roundPattern n d)) = roundingError n d (patMag p) →
      roundPattern n d % 2 = 0) := by
  rw [roundPattern_of_lt h]
  obtain ⟨hq, hk⟩ := shifted_quotient n d
  set k := roundShift (n / d)
  set D := d * 2 ^ k with hD
  have hDpos : 0 < D := by positivity
  have hsplit := Nat.div_add_mod n D
  have hmod := Nat.mod_lt n hDpos
  have hlow : patMag (2 ^ 52 * k + n / D) * d = D * (n / D) := by
    rw [patMag_of_shift hq.le hk, Nat.mul_right_comm, Nat.mul_assoc, Nat.mul_comm]
  have hhigh : patMag (2 ^ 52 * k + (n / D + 1)) * d = D * (n / D) + D := by
    rw [patMag_of_shift hq (hk.imp id (by omega)), Nat.mul_right_comm, Nat.mul_assoc, Nat.mul_comm, Nat.mul_succ]
  have hother : patMag p = patMag (2 ^ 52 * k + n / D) ∨ patMag p = patMag (2 ^ 52 * k + (n / D + 1)) ∨
      patMag p * d < D * (n / D) ∨ D * (n / D) + D < patMag p * d := by
    rw [← hhigh, ← hlow, Nat.mul_lt_mul_right hd, Nat.mul_lt_mul_right hd, patMag_strictMono.lt_iff_lt,
      patMag_strictMono.lt_iff_lt, patMag_strictMono.injective.eq_iff, patMag_strictMono.injective.eq_iff]
    omega
  unfold roundingError
  obtain ⟨hr, hle, htie⟩ | ⟨hr, hle, htie⟩ := roundEven_cases n D <;> rw [hr]
  · rw [hlow]
    obtain hp | hp | hp | hp := hother
    · rw [hp, hlow]
      exact ⟨le_rfl, fun hne => absurd rfl hne⟩
    · rw [hp, hhigh]
      exact ⟨by omega, fun _ he => by omega⟩
    · exact ⟨by omega, fun _ he => by omega⟩
    · exact ⟨by omega, fun _ he => by omega⟩
  · rw [hhigh]
    obtain hp | hp | hp | hp := hother
    · rw [hp, hlow]
      exact ⟨by omega, fun _ he => by omega⟩
    · rw [hp, hhigh]
      exact ⟨le_rfl, fun hne => absurd rfl hne⟩
    · exact ⟨by omega, fun _ he => by omega⟩
    · exact ⟨by omega, fun _ he => by omega⟩

/-- `overflowMag` as a power whose exponent is a variable, so that nothing evaluates it. -/
theorem overflowMag_eq_pow {j : Nat} (h : j = 2044) : overflowMag = (2 ^ 54 - 1) * 2 ^ j := by
  unfold overflowMag
  rw [h]

/-- A magnitude rounds to infinity exactly from half a unit in the last place above the largest finite value on. -/
theorem roundPattern_eq_inf_iff {n d : Nat} (hd : 0 < d) : roundPattern n d = infPattern ↔ overflowMag * d ≤ n := by
  obtain ⟨j, hj⟩ : ∃ j, j = 2044 := ⟨_, rfl⟩
  have hpat : roundPattern n d = infPattern ↔
      infPattern ≤ 2 ^ 52 * roundShift (n / d) + roundEven n (d * 2 ^ roundShift (n / d)) := by
    unfold roundPattern
    dsimp only
    omega
  rw [hpat, overflowMag_eq_pow hj, show infPattern = 2 ^ 52 * (j + 1) + 2 ^ 53 by subst hj; decide]
  obtain ⟨hq, hk⟩ := shifted_quotient n d
  set k := roundShift (n / d)
  set D := d * 2 ^ k with hD
  have hDpos : 0 < D := by positivity
  have hsplit := Nat.div_add_mod n D
  have hmod := Nat.mod_lt n hDpos
  have hge := roundEven_ge n D
  have hle := roundEven_le_succ n D
  have hover : (2 ^ 54 - 1) * 2 ^ j * d = (2 ^ 54 - 1) * (d * 2 ^ j) := by rw [Nat.mul_assoc, Nat.mul_comm (2 ^ j)]
  rw [hover]
  obtain hlt | heq | hgt := lt_trichotomy k (j + 1)
  · have hDle : D ≤ d * 2 ^ j := Nat.mul_le_mul_left d (Nat.pow_le_pow_right (by norm_num) (by omega))
    have hn : n < 2 ^ 53 * D := (Nat.div_lt_iff_lt_mul hDpos).1 hq
    generalize d * 2 ^ j = E at *
    omega
  · have hDE : D = 2 * (d * 2 ^ j) := by rw [hD, heq, pow_succ]; ring
    generalize d * 2 ^ j = E at *
    obtain hQ | hQ := (Nat.succ_le_of_lt hq).eq_or_lt
    · rw [show n / D = 2 ^ 53 - 1 by omega] at hsplit
      obtain ⟨hr, hhalf, htie⟩ | ⟨hr, hhalf, -⟩ := roundEven_cases n D <;> rw [hr] <;> omega
    · have hDQ : D * (n / D) ≤ D * (2 ^ 53 - 2) := Nat.mul_le_mul_left D (by omega)
      omega
  · have hDge : d * 2 ^ j * 4 ≤ D := by
      rw [Nat.mul_assoc, show 2 ^ j * 4 = 2 ^ (j + 2) from (pow_add 2 j 2).symm]
      exact Nat.mul_le_mul_left d (Nat.pow_le_pow_right (by norm_num) hgt)
    have hQ : D * 2 ^ 52 ≤ D * (n / D) := Nat.mul_le_mul_left D (by omega)
    generalize d * 2 ^ j = E at *
    omega

/-! ### A rounded value -/

theorem numIsFinite_numRound_iff (neg : Bool) (n d : Nat) :
    numIsFinite (numRound neg n d) = true ↔ roundPattern n d < infPattern := by
  rw [numIsFinite_iff, (numRound_parts neg n d).2]

theorem numMag_numRound (neg : Bool) (n d : Nat) : numMag (numRound neg n d) = patMag (roundPattern n d) := by
  rw [numMag_eq, (numRound_parts neg n d).2]

/-- The parity of the fraction is that of the pattern. -/
theorem numFraction_mod_two (x : Num64) : numFraction x % 2 = lowBits x % 2 := by
  rw [numFraction_eq]
  omega

/-- A rounded magnitude that stays finite is at least as near as that of any other value. -/
theorem roundingError_numRound_le {n d : Nat} {neg : Bool} (hd : 0 < d) (h : numIsFinite (numRound neg n d) = true)
    (y : Num64) : roundingError n d (numMag (numRound neg n d)) ≤ roundingError n d (numMag y) := by
  rw [numMag_numRound, numMag_eq y]
  exact (roundPattern_nearest hd ((numIsFinite_numRound_iff neg n d).1 h) (lowBits y)).1

/-- Where a value of another magnitude is as near, the rounded value has an even fraction. -/
theorem numFraction_numRound_even {n d : Nat} {neg : Bool} (hd : 0 < d) (h : numIsFinite (numRound neg n d) = true)
    {y : Num64} (hne : numMag y ≠ numMag (numRound neg n d))
    (htie : roundingError n d (numMag (numRound neg n d)) = roundingError n d (numMag y)) :
    numFraction (numRound neg n d) % 2 = 0 := by
  rw [numMag_numRound, numMag_eq y] at hne htie
  rw [numFraction_mod_two, (numRound_parts neg n d).2]
  exact (roundPattern_nearest hd ((numIsFinite_numRound_iff neg n d).1 h) (lowBits y)).2 hne htie

/-- Rounding ends in infinity exactly from `overflowMag` on, with the sign of the exact value. -/
theorem numRound_overflow {n d : Nat} (neg : Bool) (hd : 0 < d) :
    (numIsFinite (numRound neg n d) = false ↔ overflowMag * d ≤ n) ∧
    (numIsFinite (numRound neg n d) = false → numRound neg n d = numInf neg) := by
  have hinf : numIsFinite (numRound neg n d) = false ↔ roundPattern n d = infPattern := by
    rw [Bool.eq_false_iff, ne_eq, numIsFinite_numRound_iff]
    have := roundPattern_le_inf n d
    omega
  exact ⟨hinf.trans (roundPattern_eq_inf_iff hd), fun h => by rw [numRound, hinf.1 h, numInf]⟩

@[simp] theorem numScaled_numNeg (x : Num64) : numScaled (numNeg x) = -numScaled x := by
  rw [numScaled, numScaled, numSign_numNeg, numMag_numNeg]
  cases numSign x <;> simp

/-- The difference of finite values is the rounding of the exact difference. -/
theorem numSub_finite {x y : Num64} (hx : numIsFinite x = true) (hy : numIsFinite y = true)
    (h0 : numScaled x - numScaled y ≠ 0) :
    numSub x y = numRound (decide (numScaled x - numScaled y < 0)) (numScaled x - numScaled y).natAbs 1 := by
  have hneg : numScaled x + numScaled (numNeg y) = numScaled x - numScaled y := by rw [numScaled_numNeg, sub_eq_add_neg]
  rw [numSub, numAdd_finite hx (by rw [numIsFinite_numNeg, hy]) (by rwa [hneg]), hneg]

theorem numSub_cancel {x y : Num64} (hx : numIsFinite x = true) (hy : numIsFinite y = true)
    (h0 : numScaled x - numScaled y = 0) : numSub x y = numZero (numSign x && !numSign y) := by
  rw [numSub, numAdd_cancel hx (by rw [numIsFinite_numNeg, hy]) (by rwa [numScaled_numNeg, ← sub_eq_add_neg]),
    numSign_numNeg]

/-- Settles O32: each operation is one rounding, and a rounding picks the nearer of the two neighbouring patterns. -/
theorem roundingIsToNearest : Obligations.RoundingIsToNearest := by
  refine ⟨fun x y hx hy => ?_, fun n d neg y hd hr _ => ?_, fun n d neg hd => numRound_overflow neg hd⟩
  · exact ⟨numAdd_finite hx hy, fun h0 => by rw [numAdd_cancel hx hy h0, numIsZero_numZero], numSub_finite hx hy,
      fun h0 => by rw [numSub_cancel hx hy h0, numIsZero_numZero], numMul_finite hx hy, numDiv_finite hx hy⟩
  · exact ⟨(numRound_parts neg n d).1, roundingError_numRound_le hd hr y, numFraction_numRound_even hd hr⟩

end Sys2Proof.Proofs
end

/-! ### The exact operations of binary64 -/

section
namespace Sys2Proof.Proofs

open Sys2Proof.Machine Sys2Proof.Laws

theorem numScaled_eq_zero_iff (x : Num64) : numScaled x = 0 ↔ numIsZero x = true := by
  rw [← Int.natAbs_eq_zero, natAbs_numScaled, numMag_eq_zero_iff]

/-- An integer whose magnitude some finite pattern has converts to that pattern. -/
theorem numOfMag_of_pattern (neg : Bool) {m p : Nat} (hp : p < infPattern) (h : patMag p = m * unitOne) :
    numSign (numOfMag neg m) = neg ∧ numMag (numOfMag neg m) = m * unitOne ∧
      numIsFinite (numOfMag neg m) = true := by
  have hround : roundPattern (unitOne * m) 1 = p := by
    rw [Nat.mul_comm, ← h]
    simpa using roundPattern_exact Nat.one_pos hp.le
  obtain ⟨hsign, hlow⟩ := numRound_parts neg (unitOne * m) 1
  rw [hround] at hlow
  exact ⟨hsign, by rw [numMag_eq, numOfMag, hlow, h], by rw [numIsFinite_iff, numOfMag, hlow]; exact hp⟩

/-- The magnitude of FLOOR of a finite value is that of a finite pattern. -/
theorem exists_pattern_natAbs_floor {x : Num64} (hx : numIsFinite x = true) :
    ∃ p, p < infPattern ∧ patMag p = (numScaled x / (unitOne : Int)).natAbs * unitOne := by
  have hlt := (numIsFinite_iff x).1 hx
  obtain ⟨⟨q, hq, hqe⟩, hup⟩ := exists_pattern_of_floor (lowBits x)
  rw [← numMag_eq] at hqe hup
  obtain h | ⟨hm, h⟩ := natAbs_floor x <;> rw [h]
  · exact ⟨q, by omega, hqe⟩
  · exact hup hm

/-- FLOOR of a finite value is the largest integer not above it. -/
theorem numScaled_numFloor {x : Num64} (hx : numIsFinite x = true) :
    numScaled (numFloor x) = (unitOne : Int) * (numScaled x / (unitOne : Int)) := by
  obtain ⟨p, hp, hmag⟩ := exists_pattern_natAbs_floor hx
  obtain ⟨hsign, hm, -⟩ := numOfMag_of_pattern (numSign x) hp hmag
  have hu : (0 : Int) < unitOne := by exact_mod_cast unitOne_pos
  rw [numFloor, if_pos hx, numScaled, hsign, hm, Nat.cast_mul]
  cases hs : numSign x
  · have hpos : 0 ≤ numScaled x / (unitOne : Int) := Int.ediv_nonneg (by simp [numScaled, hs]) hu.le
    rw [if_neg (by simp), Int.natAbs_of_nonneg hpos, Int.mul_comm]
  · have hneg : numScaled x / (unitOne : Int) ≤ 0 := by
      refine Int.ediv_le_of_le_mul hu ?_
      simp [numScaled, hs]
    rw [if_pos rfl, Int.ofNat_natAbs_of_nonpos hneg]
    ring

/-- TRUNC of a finite value keeps its sign and drops what is below the unit. -/
theorem numTrunc_finite {x : Num64} (hx : numIsFinite x = true) :
    numSign (numTrunc x) = numSign x ∧ numMag (numTrunc x) = unitOne * (numMag x / unitOne) ∧
      numIsFinite (numTrunc x) = true := by
  obtain ⟨⟨q, hq, hqe⟩, -⟩ := exists_pattern_of_floor (lowBits x)
  rw [← numMag_eq] at hqe
  have hlt := (numIsFinite_iff x).1 hx
  rw [numTrunc, if_pos hx, Nat.mul_comm]
  exact numOfMag_of_pattern _ (hq.trans_lt hlt) hqe

theorem numScaled_numTrunc {x : Num64} (hx : numIsFinite x = true) :
    numScaled (numTrunc x) = (unitOne : Int) *
      (if numSign x then -((numMag x / unitOne : Nat) : Int) else ((numMag x / unitOne : Nat) : Int)) := by
  obtain ⟨hsign, hmag, -⟩ := numTrunc_finite hx
  rw [numScaled, hsign, hmag, Nat.cast_mul]
  split <;> ring

theorem numFloor_of_not_finite {x : Num64} (hx : numIsFinite x = false) : numFloor x = x := by simp [numFloor, hx]

theorem numTrunc_of_not_finite {x : Num64} (hx : numIsFinite x = false) : numTrunc x = x := by simp [numTrunc, hx]

theorem toNat_numAbs (x : Num64) : (numAbs x).toNat = lowBits x := by
  rw [numAbs, BitVec.toNat_and, lowBits]
  exact Nat.and_two_pow_sub_one_eq_mod x.toNat 63

@[simp] theorem lowBits_numAbs (x : Num64) : lowBits (numAbs x) = lowBits x := by
  rw [lowBits, toNat_numAbs, Nat.mod_eq_of_lt (lowBits_lt x)]

@[simp] theorem numSign_numAbs (x : Num64) : numSign (numAbs x) = false := by
  have := lowBits_lt x
  rw [numSign, BitVec.msb_eq_decide, toNat_numAbs, decide_eq_false_iff_not]
  omega

@[simp] theorem numIsFinite_numAbs (x : Num64) : numIsFinite (numAbs x) = numIsFinite x := by
  rw [Bool.eq_iff_iff, numIsFinite_iff, numIsFinite_iff, lowBits_numAbs]

@[simp] theorem numIsNaN_numAbs (x : Num64) : numIsNaN (numAbs x) = numIsNaN x := by
  rw [Bool.eq_iff_iff, numIsNaN_iff, numIsNaN_iff, lowBits_numAbs]

@[simp] theorem numScaled_numAbs (x : Num64) : numScaled (numAbs x) = |numScaled x| := by
  rw [Int.abs_eq_natAbs, natAbs_numScaled, numScaled, numSign_numAbs, numMag_eq, lowBits_numAbs, ← numMag_eq]
  rfl

@[simp] theorem numAbs_numInf (b : Bool) : numAbs (numInf b) = numInf false := by cases b <;> decide

theorem numKey_pos_iff (x : Num64) : 0 < numKey x ↔ 0 < numScaled x := numKey_lt_iff (numZero false) x

theorem numKey_neg_iff (x : Num64) : numKey x < 0 ↔ numScaled x < 0 := numKey_lt_iff x (numZero false)

theorem numKey_zero_iff (x : Num64) : numKey x = 0 ↔ numScaled x = 0 := numKey_eq_iff x (numZero false)

/-- SIGN of a value that is no NaN is told by its key. -/
theorem numSignum_of_key {x : Num64} (h : numIsNaN x = false) :
    (0 < numKey x → numSignum x = numOne) ∧ (numKey x < 0 → numSignum x = numNeg numOne) ∧
      (numKey x = 0 → numSignum x = numZero false) := by
  have hzero : numIsZero x = true ↔ numKey x = 0 := by rw [numKey_zero_iff, numScaled_eq_zero_iff]
  have hsign : numKey x ≠ 0 → (numSign x = true ↔ numKey x < 0) := fun h0 => by
    rw [numKey_eq] at h0 ⊢
    cases hs : numSign x <;> simp [hs] at h0 ⊢
    omega
  refine ⟨fun hk => ?_, fun hk => ?_, fun hk => ?_⟩
  · simp [numSignum, h, hzero, hsign hk.ne', hk.ne', hk.le]
  · simp [numSignum, h, hzero, hsign hk.ne, hk.ne, hk]
  · simp [numSignum, h, hzero, hk]

/-- MIN and MAX of two values that are no NaN are one of them, and bound both. -/
theorem numMin_numMax_bound {x y : Num64} (hx : numIsNaN x = false) (hy : numIsNaN y = false) :
    (numMin x y = x ∨ numMin x y = y) ∧ numLe (numMin x y) x = true ∧ numLe (numMin x y) y = true ∧
    (numMax x y = x ∨ numMax x y = y) ∧ numLe x (numMax x y) = true ∧ numLe y (numMax x y) = true := by
  have hmin : numMin x y = if numKey y < numKey x then y else x := by simp only [numMin, numLt_iff hy hx]
  have hmax : numMax x y = if numKey x < numKey y then y else x := by simp only [numMax, numLt_iff hx hy]
  rw [hmin, hmax]
  obtain h | h | h := lt_trichotomy (numKey x) (numKey y)
  · simp [h, h.le, h.not_gt, numLe_iff, hx, hy]
  · simp [h, numLe_iff, hx, hy]
  · simp [h, h.le, h.not_gt, numLe_iff, hx, hy]

/-- Settles O33: the integer parts are representable, so rounding them changes nothing; the other operations only touch
the sign or choose an operand by its key. -/
theorem floorAndTruncAreExact : Obligations.FloorAndTruncAreExact := by
  refine ⟨fun x hx => ?_, fun x hx => ⟨numFloor_of_not_finite hx, numTrunc_of_not_finite hx⟩, fun b => ?_,
    fun x hx => ?_, fun x y hx hy => numMin_numMax_bound hx hy⟩
  · obtain ⟨hsign, hmag, hfin⟩ := numTrunc_finite hx
    obtain ⟨hpos, hneg, hzero⟩ := numSignum_of_key (finite_not_nan hx)
    rw [numKey_pos_iff] at hpos
    rw [numKey_neg_iff] at hneg
    rw [numKey_zero_iff] at hzero
    exact ⟨numScaled_numFloor hx, hmag, fun _ => hsign, numIsFinite_numFloor hx, hfin, by rw [numIsFinite_numNeg, hx],
      numScaled_numNeg x, by rw [numIsFinite_numAbs, hx], numScaled_numAbs x, hpos, hneg, hzero⟩
  · refine ⟨numNeg_numInf b, numAbs_numInf b, ?_⟩
    cases b <;> decide
  · rw [numIsNaN_numNeg, numIsNaN_numAbs, numSignum, if_pos hx]
    exact ⟨hx, hx, numIsNaN_numNaN⟩

end Sys2Proof.Proofs
end

/-! ### What a binary64 value stands for -/

section
namespace Sys2Proof.Proofs

open Sys2Proof.Machine Sys2Proof.Laws Sys2Proof.Safety

/-- The thing a `Num64` stands for (`numStandsFor_iff`). -/
noncomputable def numValue (x : Num64) : NumValue :=
  if numIsNaN x = true then .nan
  else if numIsInf x = true then .inf (numSign x)
  else .finite ((numScaled x : ℝ) / unitOne)

theorem numValue_of_nan {x : Num64} (h : numIsNaN x = true) : numValue x = .nan := if_pos h

@[simp] theorem numValue_numInf (b : Bool) : numValue (numInf b) = .inf b := by simp [numValue]

theorem numValue_of_finite {x : Num64} (h : numIsFinite x = true) :
    numValue x = .finite ((numScaled x : ℝ) / unitOne) := by
  simp [numValue, finite_not_nan h, finite_not_inf h]

@[simp] theorem numValue_numZero (b : Bool) : numValue (numZero b) = .finite 0 := by
  rw [numValue_of_finite (numIsFinite_numZero b), numScaled_numZero, Int.cast_zero, zero_div]

theorem numValue_numOne : numValue numOne = .finite 1 := by
  have hscaled : numScaled numOne = (unitOne : Int) := by rw [numScaled, numMag_one]; rfl
  rw [numValue_of_finite finite_one, hscaled, Int.cast_natCast, div_self unitOne_pos_real.ne']

/-- The number a finite value stands for is its exact value over the unit. -/
theorem standsFor_finite_iff (x : Num64) (a : ℝ) :
    numStandsFor x (.finite a) ↔ numIsFinite x = true ∧ a = (numScaled x : ℝ) / unitOne := by
  rw [numStandsFor, eq_div_iff unitOne_pos_real.ne']

theorem numStandsFor_iff (x : Num64) (v : NumValue) : numStandsFor x v ↔ numValue x = v := by
  obtain h | h | h := finite_or_inf_or_nan x
  · rw [numValue_of_finite h]
    cases v with
    | nan => simp [numStandsFor, finite_not_nan h]
    | inf b => simp [numStandsFor, finite_not_inf h]
    | finite a => simp [standsFor_finite_iff, h, eq_comm]
  · rw [eq_numInf_of_isInf h, numValue_numInf]
    cases v <;> simp [numStandsFor]
  · rw [numValue_of_nan h]
    cases v with
    | nan => simp [numStandsFor, h]
    | inf b => simp [numStandsFor, not_inf_of_nan h]
    | finite a => simp [numStandsFor, not_finite_of_nan h]

theorem standsFor_numValue (x : Num64) : numStandsFor x (numValue x) := (numStandsFor_iff x _).2 rfl

/-! ### Order -/

/-- A finite value lies strictly between the infinities. -/
theorem finite_between_numInf {x : Num64} (h : numIsFinite x = true) :
    numLt x (numInf false) = true ∧ numLt (numInf true) x = true ∧
    numLt (numInf false) x = false ∧ numLt x (numInf true) = false := by
  have hne : ∀ b, x ≠ numInf b := fun b he => by simp [he] at h
  obtain ⟨-, h2, -, h4, h5, -, h7, -⟩ := compare_numInf (finite_not_nan h)
  exact ⟨h5.2 (hne _), h7.2 (hne _), h2, h4⟩

/-- `<` of binary64 is that of the values stood for. -/
theorem numLt_iff_valueLt (x y : Num64) : numLt x y = true ↔ valueLt (numValue x) (numValue y) := by
  obtain hx | hx | hx := finite_or_inf_or_nan x
  · obtain ⟨hp, -, -, hn⟩ := finite_between_numInf hx
    obtain hy | hy | hy := finite_or_inf_or_nan y
    · rw [numLt_iff (finite_not_nan hx) (finite_not_nan hy), numKey_lt_iff, numValue_of_finite hx,
        numValue_of_finite hy, valueLt, div_lt_div_iff_of_pos_right unitOne_pos_real, Int.cast_lt]
    · rw [eq_numInf_of_isInf hy, numValue_numInf, numValue_of_finite hx]
      cases numSign y <;> simp [valueLt, hp, hn]
    · simp [numLt_false_of_nan (.inr hy), numValue_of_nan hy, numValue_of_finite hx, valueLt]
  · rw [eq_numInf_of_isInf hx, numValue_numInf]
    obtain hy | hy | hy := finite_or_inf_or_nan y
    · obtain ⟨-, hn, hp, -⟩ := finite_between_numInf hy
      rw [numValue_of_finite hy]
      cases numSign x <;> simp [valueLt, hp, hn]
    · rw [eq_numInf_of_isInf hy, numValue_numInf]
      cases numSign x <;> cases numSign y <;> simp [valueLt] <;> decide
    · simp [numLt_false_of_nan (.inr hy), numValue_of_nan hy, valueLt]
  · simp [numLt_false_of_nan (.inl hx), numValue_of_nan hx, valueLt]

/-- Equality of binary64 is that of the values stood for. -/
theorem numEq_iff_valueEq (x y : Num64) : numEq x y = true ↔ valueEq (numValue x) (numValue y) := by
  obtain hx | hx | hx := finite_or_inf_or_nan x
  · obtain hy | hy | hy := finite_or_inf_or_nan y
    · rw [numEq_iff (finite_not_nan hx) (finite_not_nan hy), numKey_eq_iff, numValue_of_finite hx,
        numValue_of_finite hy]
      simp [valueEq, div_left_inj' unitOne_pos_real.ne']
    · rw [eq_numInf_of_isInf hy, numEq_iff (finite_not_nan hx) (numIsNaN_numInf _), numKey_eq_numInf_iff,
        numValue_numInf, numValue_of_finite hx]
      simp only [valueEq, reduceCtorEq, and_false, iff_false]
      intro he
      simp [he] at hx
    · simp [numEq_false_of_nan (.inr hy), numValue_of_nan hy, numValue_of_finite hx, valueEq]
  · rw [eq_numInf_of_isInf hx, numValue_numInf]
    obtain hy | hy | hy := finite_or_inf_or_nan y
    · rw [numEq_comm, numEq_iff (finite_not_nan hy) (numIsNaN_numInf _), numKey_eq_numInf_iff, numValue_of_finite hy]
      simp only [valueEq, reduceCtorEq, and_false, iff_false]
      intro he
      simp [he] at hy
    · rw [eq_numInf_of_isInf hy, numValue_numInf]
      cases numSign x <;> cases numSign y <;> simp [valueEq] <;> decide
    · simp [numEq_false_of_nan (.inr hy), numValue_of_nan hy, valueEq]
  · simp [numEq_false_of_nan (.inl hx), numValue_of_nan hx, valueEq]

theorem numLe_iff_lt_or_eq (x y : Num64) : numLe x y = true ↔ numLt x y = true ∨ numEq x y = true := by
  cases hx : numIsNaN x <;> cases hy : numIsNaN y <;> simp [numLe, numLt, numEq, hx, hy, le_iff_lt_or_eq]

theorem valueLaw_binary64 (o : OpenOps Num64) : ValueLaw (binary64 o) := fun x =>
  ⟨numValue x, standsFor_numValue x, fun v hv => ((numStandsFor_iff x v).1 hv).symm⟩

theorem orderLaws_binary64 (o : OpenOps Num64) : OrderLaws (binary64 o) := by
  intro x y v w hx hy
  obtain rfl := (numStandsFor_iff x v).1 hx
  obtain rfl := (numStandsFor_iff y w).1 hy
  refine ⟨numLt_iff_valueLt x y, ?_, numEq_iff_valueEq x y, fun _ _ => ⟨?_, ?_⟩⟩
  · rw [← numLt_iff_valueLt, ← numEq_iff_valueEq]
    exact numLe_iff_lt_or_eq x y
  · rw [binary64_min, binary64_lt, numMin]
    by_cases h : numLt y x = true
    · rw [if_pos h, if_pos h]
      exact hy
    · rw [if_neg h, if_neg h]
      exact hx
  · rw [binary64_max, binary64_lt, numMax]
    by_cases h : numLt x y = true
    · rw [if_pos h, if_pos h]
      exact hy
    · rw [if_neg h, if_neg h]
      exact hx

/-! ### Negation, ABS, FLOOR, TRUNC and SIGN -/

/-- An operation that keeps NaN, maps the infinities by g and the finite values by f, as `numStandsFor` has it. -/
theorem standsFor_valueMap {op : Num64 → Num64} {f : ℝ → ℝ} {g : Bool → Bool}
    (hfin : ∀ x, numIsFinite x = true → numStandsFor (op x) (.finite (f ((numScaled x : ℝ) / unitOne))))
    (hinf : ∀ b, op (numInf b) = numInf (g b)) (hnan : ∀ x, numIsNaN x = true → numIsNaN (op x) = true) (x : Num64) :
    numStandsFor (op x) (valueMap f g (numValue x)) := by
  obtain hx | hx | hx := finite_or_inf_or_nan x
  · rw [numValue_of_finite hx]
    exact hfin x hx
  · rw [eq_numInf_of_isInf hx, hinf, numValue_numInf, numStandsFor_iff, numValue_numInf]
    rfl
  · rw [numValue_of_nan hx]
    exact hnan x hx

theorem floor_scaled (z : Int) : ⌊(z : ℝ) / unitOne⌋ = z / (unitOne : Int) := by
  rw [Int.floor_div_natCast, Int.floor_intCast]

/-- Truncation toward zero of a quotient by the unit, in the magnitude. -/
theorem trunc_scaled (x : Num64) :
    (if 0 ≤ (numScaled x : ℝ) / unitOne then ⌊(numScaled x : ℝ) / unitOne⌋ else ⌈(numScaled x : ℝ) / unitOne⌉) =
      if numSign x then -((numMag x / unitOne : Nat) : Int) else ((numMag x / unitOne : Nat) : Int) := by
  have hu := unitOne_pos_real
  have hfloor : ⌊(numMag x : ℝ) / unitOne⌋ = ((numMag x / unitOne : Nat) : Int) := by
    have h := floor_scaled (numMag x)
    rw [Int.cast_natCast] at h
    rw [h]
    norm_cast
  cases hs : numSign x
  · rw [if_pos (by simp [numScaled, hs]; positivity)]
    simpa [numScaled, hs] using hfloor
  · have hceil : ⌈(numScaled x : ℝ) / unitOne⌉ = -((numMag x / unitOne : Nat) : Int) := by
      rw [← hfloor, ← Int.ceil_neg]
      simp [numScaled, hs, neg_div]
    split
    next h =>
      have h0 : numMag x = 0 := by
        simp only [numScaled, hs, if_true, le_div_iff₀ hu, zero_mul, Int.cast_neg, Int.cast_natCast] at h
        exact_mod_cast (neg_nonneg.1 h).antisymm (Nat.cast_nonneg _)
      simp [numScaled, hs, h0]
    next => simpa using hceil

theorem unaryLaws_binary64 (o : OpenOps Num64) : UnaryLaws (binary64 o) := by
  intro x v hx
  obtain rfl := (numStandsFor_iff x v).1 hx
  have hu := unitOne_pos_real
  refine ⟨?_, ?_, ?_, ?_, ?_⟩
  · simp only [binary64_isFinite, ← numStandsFor_iff]
    exact ⟨fun h => ⟨_, (standsFor_finite_iff x _).2 ⟨h, rfl⟩⟩, fun ⟨a, h⟩ => h.1⟩
  · refine standsFor_valueMap (fun x hx => ?_) numNeg_numInf (fun x hx => by rw [numIsNaN_numNeg, hx]) x
    rw [standsFor_finite_iff, numIsFinite_numNeg, numScaled_numNeg, Int.cast_neg, neg_div]
    exact ⟨hx, rfl⟩
  · refine standsFor_valueMap (fun x hx => ?_) numAbs_numInf (fun x hx => by rw [numIsNaN_numAbs, hx]) x
    rw [standsFor_finite_iff, numIsFinite_numAbs, numScaled_numAbs, Int.cast_abs, abs_div, abs_of_pos hu]
    exact ⟨hx, rfl⟩
  · refine standsFor_valueMap (fun x hx => ?_) (fun b => numFloor_of_not_finite (numIsFinite_numInf b))
      (fun x hx => ?_) x
    · rw [standsFor_finite_iff, numScaled_numFloor hx, floor_scaled, Int.cast_mul, Int.cast_natCast,
        mul_div_cancel_left₀ _ hu.ne']
      exact ⟨numIsFinite_numFloor hx, rfl⟩
    · rwa [numFloor_of_not_finite (not_finite_of_nan hx)]
  · refine standsFor_valueMap (fun x hx => ?_) (fun b => numTrunc_of_not_finite (numIsFinite_numInf b))
      (fun x hx => ?_) x
    · rw [standsFor_finite_iff, numScaled_numTrunc hx, ← trunc_scaled, Int.cast_mul, Int.cast_natCast,
        mul_div_cancel_left₀ _ hu.ne', Int.cast_ite]
      exact ⟨(numTrunc_finite hx).2.2, rfl⟩
    · rwa [numTrunc_of_not_finite (not_finite_of_nan hx)]

/-- SIGN looks at which side of 0 the value stood for lies (00_scope.md rule R12). -/
theorem signLaws_binary64 (o : OpenOps Num64) : SignLaws (binary64 o) := by
  intro x v hx
  obtain rfl := (numStandsFor_iff x v).1 hx
  have hzero : numValue (numZero false) = .finite 0 := numValue_numZero false
  have hnan0 : numIsNaN (numZero false) = false := finite_not_nan (numIsFinite_numZero false)
  have hneg : numValue (numNeg numOne) = .finite (-1) :=
    (numStandsFor_iff _ _).1 ((unaryLaws_binary64 o _ _ ((numStandsFor_iff _ _).2 numValue_numOne)).2.1)
  simp only [binary64_standsFor, binary64_sign, numStandsFor_iff, ← hzero, ← numLt_iff_valueLt]
  by_cases hn : numIsNaN x = true
  · rw [numLt_false_of_nan (.inr hn), numLt_false_of_nan (.inl hn), numValue_of_nan hn, hzero, numSignum, if_pos hn,
      numValue_of_nan numIsNaN_numNaN]
    simp
  · rw [Bool.not_eq_true] at hn
    obtain ⟨hpos, hless, hkey⟩ := numSignum_of_key hn
    rw [numLt_iff hnan0 hn, numLt_iff hn hnan0, numKey_zero]
    refine ⟨fun h => by rw [hpos h, numValue_numOne], fun h => by rw [hless h, hneg], fun h => ?_, fun h => ?_⟩
    · have heq : numEq x (numZero false) = true := (numEq_iff_valueEq _ _).2 ⟨by rw [h, hzero]; simp, h⟩
      rw [numEq_iff hn hnan0, numKey_zero] at heq
      rw [hkey heq]
    · exact absurd ((numStandsFor_iff x _).2 h) (by simp [numStandsFor, hn])

/-! ### Integers and constants -/

/-- The integer of a value whose magnitude is a multiple of one is the value. -/
theorem numToInt_mul_unitOne {x : Num64} (hx : numIsFinite x = true) (hdvd : unitOne ∣ numMag x) :
    numToInt x * unitOne = numScaled x := by
  have hq : ((numMag x / unitOne : Nat) : Int) * unitOne = numMag x := by exact_mod_cast Nat.div_mul_cancel hdvd
  rw [numToInt, if_pos hx, numScaled]
  split
  · rw [neg_mul, hq]
  · exact hq

theorem integerLaws_binary64 (o : OpenOps Num64) : IntegerLaws (binary64 o) := by
  refine fun x => ⟨fun z hz => ?_, fun h => ?_⟩
  · obtain ⟨hx, hz⟩ := hz
    have hscaled : z * unitOne = numScaled x := by exact_mod_cast hz
    have hdvd : unitOne ∣ numMag x := by
      rw [← natAbs_numScaled, ← hscaled, Int.natAbs_mul, Int.natAbs_natCast]
      exact Nat.dvd_mul_left _ _
    have hu : (unitOne : Int) ≠ 0 := by exact_mod_cast unitOne_pos.ne'
    exact mul_right_cancel₀ hu ((numToInt_mul_unitOne hx hdvd).trans hscaled.symm)
  · cases hx : numIsFinite x
    · simp [numToInt, hx]
    · exact absurd ((standsFor_finite_iff x _).2 ⟨hx, rfl⟩) (h _)

/-- An integer of at most 53 bits converts exactly. -/
theorem standsFor_numOfNat {n : Nat} (hn : n ≤ 2 ^ 53) : numStandsFor (numOfNat n) (.finite n) := by
  refine ⟨numIsFinite_numOfNat hn, ?_⟩
  rw [numScaled, numSign_numOfNat, numMag_numOfNat hn]
  simp

/-- The error of a magnitude in real arithmetic. -/
theorem cast_roundingError (n d m : Nat) : (roundingError n d m : ℝ) = |(m : ℝ) * d - n| := by
  rw [← Nat.cast_mul]
  unfold roundingError
  obtain h | h := le_total (m * d) n
  · rw [Nat.sub_eq_zero_of_le h, Nat.zero_add, Nat.cast_sub h, abs_of_nonpos (sub_nonpos.2 (Nat.cast_le.2 h))]
    ring
  · rw [Nat.sub_eq_zero_of_le h, Nat.add_zero, Nat.cast_sub h, abs_of_nonneg (sub_nonneg.2 (Nat.cast_le.2 h))]

/-- A non-negative quotient that rounds to a finite value rounds to a nearest one. -/
theorem nearest_numRound (o : OpenOps Num64) {n d : Nat} (hd : 0 < d) (hfin : numIsFinite (numRound false n d) = true) :
    Nearest (binary64 o) ((n : ℝ) / (d * unitOne)) (numRound false n d) := by
  have hu := unitOne_pos_real
  have hd' : (0 : ℝ) < d := by exact_mod_cast hd
  have hdist : ∀ m : Nat, |(m : ℝ) / unitOne - n / (d * unitOne)| = (roundingError n d m : ℝ) / (d * unitOne) := by
    intro m
    rw [cast_roundingError, ← abs_of_pos (mul_pos hd' hu), ← abs_div, abs_of_pos (mul_pos hd' hu)]
    congr 1
    field_simp
  have hnear : ∀ y : Num64, (roundingError n d (numMag (numRound false n d)) : ℝ) / (d * unitOne) ≤
      (roundingError n d (numMag y) : ℝ) / (d * unitOne) := fun y =>
    div_le_div_of_nonneg_right (by exact_mod_cast roundingError_numRound_le hd hfin y) (mul_pos hd' hu).le
  refine ⟨_, numStandsFor_finite.2 ⟨hfin, rfl⟩, fun y c hy => ?_⟩
  obtain ⟨-, rfl⟩ := numStandsFor_finite.1 hy
  rw [(numRound_parts false n d).1, if_neg (by simp), hdist]
  cases numSign y
  · rw [if_neg (by simp), hdist]
    exact hnear y
  · have hzero : numMag (numZero false) = 0 := (numMag_eq_zero_iff _).2 (numIsZero_numZero false)
    have ha : (0 : ℝ) ≤ n / (d * unitOne) := by positivity
    have hc : (0 : ℝ) ≤ (numMag y : ℝ) / unitOne := by positivity
    calc (roundingError n d (numMag (numRound false n d)) : ℝ) / (d * unitOne)
        ≤ |((0 : Nat) : ℝ) / unitOne - n / (d * unitOne)| := by rw [hdist, ← hzero]; exact hnear _
      _ ≤ |(if true = true then -(numMag y : ℝ) else numMag y) / unitOne - n / (d * unitOne)| := by
        rw [if_pos rfl, neg_div, Nat.cast_zero, zero_div, zero_sub, abs_neg, abs_of_nonneg ha,
          abs_of_nonpos (by linarith)]
        linarith

/-- The constant made from n / d is nearest it. -/
theorem nearest_quotient (o : OpenOps Num64) {n d : Nat} (hd : 0 < d)
    (hfin : numIsFinite (numRound false (unitOne * n) d) = true) :
    Nearest (binary64 o) ((n : ℝ) / d) (numRound false (unitOne * n) d) := by
  have hu := unitOne_pos_real
  convert nearest_numRound o hd hfin using 1
  rw [Nat.cast_mul, mul_comm (d : ℝ), mul_div_mul_left _ _ hu.ne']

/-- A value nearest both ends of an interval is nearest every number in it. -/
theorem nearest_of_between {Num : Type} {nx : Numerics Num} {lo a hi : ℝ} {x : Num}
    (hvalue : ValueLaw nx) (hlo : Nearest nx lo x) (hhi : Nearest nx hi x) (h1 : lo ≤ a) (h2 : a ≤ hi) :
    Nearest nx a x := by
  obtain ⟨b, hb, hlo⟩ := hlo
  obtain ⟨b', hb', hhi⟩ := hhi
  obtain rfl : b = b' := by injection (hvalue x).unique hb hb'
  refine ⟨b, hb, fun y c hy => ?_⟩
  have hl := hlo y c hy
  have hh := hhi y c hy
  rw [← sq_le_sq] at hl hh ⊢
  obtain hbc | hcb := le_total b c
  · nlinarith [mul_nonneg (sub_nonneg.2 hbc) (sub_nonneg.2 h2)]
  · nlinarith [mul_nonneg (sub_nonneg.2 hcb) (sub_nonneg.2 h1)]

/-- TWO_PI is what both decimals that enclose 2 pi round to (log 15). -/
theorem nearest_twoPi (o : OpenOps Num64) : Nearest (binary64 o) (2 * Real.pi) numTwoPi := by
  have hbelow : numRound false (unitOne * 628318530717958647692) (10 ^ 20) = numTwoPi := by decide +kernel
  have habove : numRound false (unitOne * 628318530717958647694) (10 ^ 20) = numTwoPi := by decide +kernel
  have hfin : numIsFinite numTwoPi = true := by decide
  have hlo := nearest_quotient o (n := 628318530717958647692) (d := 10 ^ 20) (by norm_num) (by rwa [hbelow])
  have hhi := nearest_quotient o (n := 628318530717958647694) (d := 10 ^ 20) (by norm_num) (by rwa [habove])
  rw [hbelow] at hlo
  rw [habove] at hhi
  have hpi := Real.pi_gt_d20
  have hpi' := Real.pi_lt_d20
  exact nearest_of_between (valueLaw_binary64 o) hlo hhi (by norm_num; linarith) (by norm_num; linarith)

theorem constantLaws_binary64 (o : OpenOps Num64) : ConstantLaws (binary64 o) := by
  refine ⟨fun n hn => standsFor_numOfNat (by omega), fun n hn => ?_, nearest_twoPi o⟩
  have hfin : AtMost (numRound false (unitOne * n) 10) n :=
    atMost_numRound (by norm_num) (by omega) (by rw [Nat.mul_comm n]; omega)
  exact nearest_quotient o (by norm_num) hfin.1

theorem exactLaws_binary64 (o : OpenOps Num64) : ExactLaws (binary64 o) :=
  ⟨valueLaw_binary64 o, orderLaws_binary64 o, unaryLaws_binary64 o, signLaws_binary64 o, integerLaws_binary64 o,
    constantLaws_binary64 o⟩

/-! ### The plain operations have the properties of rules R10 and R11 -/

theorem numLe_zero_one : numLe (numZero false) numOne = true := by decide
theorem numLe_negOne_zero : numLe (numNeg numOne) (numZero false) = true := by decide

theorem numLe_refl {x : Num64} (h : numIsNaN x = false) : numLe x x = true := (numLe_iff h h).2 le_rfl

theorem numEq_refl {x : Num64} (h : numIsNaN x = false) : numEq x x = true := (numEq_iff h h).2 rfl

theorem not_nan_of_numLe {x y : Num64} (h : numLe x y = true) : numIsNaN x = false ∧ numIsNaN y = false := by
  simp only [numLe, Bool.and_eq_true, Bool.not_eq_true'] at h
  exact h.1

/-- What equals 0 is finite. -/
theorem finite_of_numEq_zero {x : Num64} (h : numEq x (numZero false) = true) : numIsFinite x = true := by
  rw [numEq_iff_valueEq, numValue_numZero] at h
  exact ((standsFor_finite_iff x 0).1 ((numStandsFor_iff x _).2 h.2)).1

theorem plainOps_exp (x : Num64) : (binary64 plainOps).exp x = numOne := rfl
theorem plainOps_pow (b e : Num64) : (binary64 plainOps).pow b e = numOne := rfl
theorem plainOps_rngNext (st : Nat) : ((binary64 plainOps).rngNext st).2 = numZero false := rfl

theorem sinLaws_plainOps : SinLaws (binary64 plainOps) := by
  intro x
  rw [binary64_ofNat, numOfNat_zero, numOfNat_one]
  have hfin : numIsFinite x = true → plainOps.sin x = numZero false := fun h => if_pos h
  refine ⟨fun h => ?_, fun h => ?_, fun h => ?_⟩
  · rw [binary64_toOpenOps, hfin (finite_of_numEq_zero h)]
    exact numEq_refl (finite_not_nan (numIsFinite_numZero false))
  · rw [binary64_toOpenOps, hfin h]
    exact ⟨numLe_negOne_zero, numLe_zero_one⟩
  · have hnan : plainOps.sin x = numNaN := if_neg (Bool.eq_false_iff.1 h)
    rw [binary64_toOpenOps, hnan]
    exact numIsNaN_numNaN

theorem expLaws_plainOps : ExpLaws (binary64 plainOps) := by
  intro x
  rw [binary64_ofNat, numOfNat_zero, numOfNat_one, plainOps_exp]
  have hlt : numLt (numZero false) numOne = true := by decide
  exact ⟨fun _ => hlt, fun _ => numEq_refl (finite_not_nan finite_one)⟩

theorem powLaws_plainOps : PowLaws (binary64 plainOps) := by
  have hone : numIsNaN numOne = false := finite_not_nan finite_one
  refine ⟨fun b e _ _ _ _ => ⟨?_, fun _ => ?_⟩, fun t _ => ?_⟩
  · rw [binary64_ofNat, numOfNat_zero, plainOps_pow]
    exact numLe_zero_one
  · rw [binary64_ofNat, numOfNat_one, plainOps_pow]
    exact numEq_refl hone
  · rw [binary64_ofNat, numOfNat_one, plainOps_pow]
    exact numLe_refl hone

theorem drawLaws_plainOps : DrawLaws (binary64 plainOps) := by
  intro st
  rw [Within, binary64_ofNat, numOfNat_one, plainOps_rngNext]
  exact ⟨numLe_negOne_zero, numLe_zero_one⟩

@[simp] theorem numKey_numNeg (x : Num64) : numKey (numNeg x) = -numKey x := by
  rw [numKey_eq, numKey_eq, numSign_numNeg, lowBits_numNeg]
  cases numSign x <;> simp

/-- SIGN of a value that is no NaN is odd and lies in [-1, 1]. -/
theorem numSignum_odd_and_bounded {x : Num64} (h : numIsNaN x = false) :
    numEq (numSignum (numNeg x)) (numNeg (numSignum x)) = true ∧ numLe (numNeg numOne) (numSignum x) = true ∧
      numLe (numSignum x) numOne = true := by
  obtain ⟨hpos, hneg, hzero⟩ := numSignum_of_key h
  obtain ⟨hpos', hneg', hzero'⟩ := numSignum_of_key (x := numNeg x) (by rw [numIsNaN_numNeg, h])
  rw [numKey_numNeg] at hpos' hneg' hzero'
  obtain hk | hk | hk := lt_trichotomy (numKey x) 0
  · rw [hneg hk, hpos' (by omega)]
    decide
  · rw [hzero hk, hzero' (by omega)]
    decide
  · rw [hpos hk, hneg' (by omega)]
    decide

/-- SIGN is non-decreasing. -/
theorem numSignum_mono {x y : Num64} (h : numLe x y = true) : numLe (numSignum x) (numSignum y) = true := by
  obtain ⟨hx, hy⟩ := not_nan_of_numLe h
  rw [numLe_iff hx hy] at h
  obtain ⟨hpos, hneg, hzero⟩ := numSignum_of_key hx
  obtain ⟨hpos', -, hzero'⟩ := numSignum_of_key hy
  obtain hk | hk | hk := lt_trichotomy (numKey x) 0
  · rw [hneg hk]
    exact (numSignum_odd_and_bounded hy).2.1
  · rw [hzero hk]
    obtain hk' | hk' := (hk ▸ h : 0 ≤ numKey y).eq_or_lt
    · rw [hzero' hk'.symm]
      decide
    · rw [hpos' hk']
      exact numLe_zero_one
  · rw [hpos hk, hpos' (by omega)]
    decide

theorem tanhLaws_plainOps : TanhLaws (binary64 plainOps) := by
  have htanh : ∀ x, numIsNaN x = false → plainOps.tanh x = numSignum x := fun x h => if_neg (Bool.eq_false_iff.1 h)
  rw [TanhLaws, binary64_ofNat, numOfNat_one]
  refine ⟨fun x => ⟨fun h => ?_, fun h => ?_, fun h => ?_, fun h => ?_⟩, fun x y h => ?_⟩
  · have hx : numIsNaN x = false := Bool.eq_false_iff.2 h
    rw [binary64_toOpenOps, htanh x hx, binary64_neg, htanh (numNeg x) (by rw [numIsNaN_numNeg, hx])]
    exact numSignum_odd_and_bounded hx
  · have hnan : plainOps.tanh x = numNaN := if_pos h
    rw [binary64_toOpenOps, hnan]
    exact numIsNaN_numNaN
  · obtain rfl : x = numInf false := h.2 ▸ eq_numInf_of_isInf h.1
    rw [binary64_toOpenOps, htanh _ (numIsNaN_numInf false)]
    exact numEq_refl (finite_not_nan finite_one)
  · obtain rfl : x = numInf true := h.2 ▸ eq_numInf_of_isInf h.1
    rw [binary64_toOpenOps, htanh _ (numIsNaN_numInf true)]
    exact numEq_refl (x := numNeg numOne) (by decide)
  · obtain ⟨hx, hy⟩ := not_nan_of_numLe h
    rw [binary64_toOpenOps, htanh x hx, htanh y hy]
    exact numSignum_mono h

/-! ### The NUMERICS of a block -/

theorem transcendentalLaws_numerics : TranscendentalLaws numerics := by
  rw [numerics_eq]
  obtain h | ⟨o, h⟩ := defaultOps_cases <;> rw [h]
  · exact ⟨sinLaws_plainOps, expLaws_plainOps, powLaws_plainOps, tanhLaws_plainOps⟩
  · exact o.transcendental

theorem drawLaws_numerics : DrawLaws numerics := by
  rw [numerics_eq]
  obtain h | ⟨o, h⟩ := defaultOps_cases <;> rw [h]
  · exact drawLaws_plainOps
  · exact o.draws

/-- Every block's NUMERICS is exact where rules R7, R8, R12 and R96 say so. -/
theorem exactLaws_numericsOf (c : Caps) : ExactLaws (numericsOf c).ops :=
  numericsOf_ind (motive := fun nx => ExactLaws nx) (exactLaws_binary64 _) (fun n => n.exact) c

theorem transcendentalLaws_numericsOf (c : Caps) : TranscendentalLaws (numericsOf c).ops :=
  numericsOf_ind (motive := fun nx => TranscendentalLaws nx) transcendentalLaws_numerics (fun n => n.transcendental) c

theorem drawLaws_numericsOf (c : Caps) : DrawLaws (numericsOf c).ops :=
  numericsOf_ind (motive := fun nx => DrawLaws nx) drawLaws_numerics (fun n => n.draws) c

/-- Settles O34: the laws hold of binary64 with plain or lawful open operations, and of every other NUMERICS by its
type. -/
theorem openOperationsHaveTheirProperties : Obligations.OpenOperationsHaveTheirProperties := by
  refine ⟨fun c => ⟨exactLaws_numericsOf c, transcendentalLaws_numericsOf c, drawLaws_numericsOf c⟩,
    fun c h => numericsOf_binary64 h, fun v => rfl, fun x y => ?_, unitOne_eq_pow rfl⟩
  exact ⟨rfl, rfl, rfl, rfl, rfl, rfl, rfl, rfl, rfl, rfl, rfl, rfl, rfl, rfl, rfl, Iff.rfl, fun b => Iff.rfl,
    standsFor_finite_iff x⟩

end Sys2Proof.Proofs
end

/-! ### What an exact NUMERICS gives of validation, the quantizer and the noise mix -/

section
namespace Sys2Proof.Proofs

open Sys2Proof.Machine Sys2Proof.Laws

section Exact

variable {Num : Type} {nx : Numerics Num} (h : ExactLaws nx)

include h

theorem exists_standsFor (x : Num) : ∃ v, nx.standsFor x v := (h.1 x).exists

/-- Neither operand of a comparison that holds is a NaN. -/
theorem not_nan_of_lt {x y : Num} (hlt : nx.lt x y = true) : ¬ nx.standsFor x .nan ∧ ¬ nx.standsFor y .nan := by
  obtain ⟨v, hv⟩ := exists_standsFor h x
  obtain ⟨w, hw⟩ := exists_standsFor h y
  have hvw := (h.2.1 _ _ _ _ hv hw).1.1 hlt
  refine ⟨fun hx => ?_, fun hy => ?_⟩
  · rw [standsFor_unique h hv hx] at hvw
    exact hvw
  · rw [standsFor_unique h hw hy] at hvw
    cases v <;> exact hvw

theorem not_nan_of_le {x y : Num} (hle : nx.le x y = true) : ¬ nx.standsFor x .nan ∧ ¬ nx.standsFor y .nan := by
  obtain ⟨v, hv⟩ := exists_standsFor h x
  obtain ⟨w, hw⟩ := exists_standsFor h y
  obtain hlt | heq := (h.2.1 _ _ _ _ hv hw).2.1.1 hle
  · exact not_nan_of_lt h ((h.2.1 _ _ _ _ hv hw).1.2 hlt)
  · exact ⟨fun hx => heq.1 (standsFor_unique h hv hx), fun hy => heq.1 (heq.2.trans (standsFor_unique h hw hy))⟩

theorem isFinite_iff_standsFor (x : Num) : nx.isFinite x = true ↔ ∃ a, nx.standsFor x (.finite a) := by
  obtain ⟨v, hv⟩ := exists_standsFor h x
  rw [(h.2.2.1 _ _ hv).1]
  exact ⟨fun ⟨a, ha⟩ => ⟨a, ha ▸ hv⟩, fun ⟨a, ha⟩ => ⟨a, standsFor_unique h hv ha⟩⟩

theorem not_nan_of_isFinite {x : Num} (hx : nx.isFinite x = true) : ¬ nx.standsFor x .nan := fun hn => by
  obtain ⟨a, ha⟩ := (isFinite_iff_standsFor h x).1 hx
  cases standsFor_unique h ha hn

theorem not_nan_of_finitePositive {x : Num} (hx : finitePositive nx x = true) : ¬ nx.standsFor x .nan :=
  not_nan_of_isFinite h (Bool.and_eq_true_iff.1 hx).1

theorem not_nan_of_finiteNonneg {x : Num} (hx : finiteNonneg nx x = true) : ¬ nx.standsFor x .nan :=
  not_nan_of_isFinite h (Bool.and_eq_true_iff.1 hx).1

theorem not_nan_of_inUnit {x : Num} (hx : inUnit nx x = true) : ¬ nx.standsFor x .nan :=
  (not_nan_of_le h (Bool.and_eq_true_iff.1 hx).1).2

/-- A snapshot that passes has no NaN in a named real register: each is an operand of some check. -/
theorem not_nan_of_valid {c : Caps} {p : Params} (hv : validateIn nx c p = none) (r : F64Reg) :
    ¬ nx.standsFor (nx.asF64 (getF64 r p)) .nan := by
  obtain ⟨⟨-, hduration, -, hband01, hband12, -⟩, ⟨hstart, hend, -, hattack, hdecay, hsustain, hrelease, hdrive,
    hcutoff, hresonance, hsweep, hpitchDecay, -, -, hnoise, -, -, hsaturator, hfade⟩, -⟩ := validateIn_iff.1 hv
  cases r with
  | startFreq => exact not_nan_of_finitePositive h hstart
  | endFreq => exact not_nan_of_finitePositive h hend
  | duration => exact (not_nan_of_lt h hduration).2
  | attack => exact not_nan_of_finiteNonneg h hattack
  | decay => exact not_nan_of_finiteNonneg h hdecay
  | sustain => exact not_nan_of_inUnit h hsustain
  | release => exact not_nan_of_finiteNonneg h hrelease
  | drive => exact not_nan_of_inUnit h hdrive
  | filterCutoff => exact not_nan_of_finitePositive h hcutoff
  | filterResonance => exact not_nan_of_inUnit h hresonance
  | sweep => exact not_nan_of_finiteNonneg h hsweep
  | pitchDecay => exact not_nan_of_finitePositive h hpitchDecay
  | noiseAmount => exact not_nan_of_inUnit h hnoise
  | saturatorAmount => exact not_nan_of_finiteNonneg h hsaturator
  | band0 => exact (not_nan_of_lt h hband01).1
  | band1 => exact (not_nan_of_lt h hband01).2
  | band2 => exact (not_nan_of_lt h hband12).2
  | fadeDuration => exact not_nan_of_finiteNonneg h hfade

/-- What TRUNC gives is NaN, an infinity or an integer. -/
theorem standsFor_trunc {x : Num} {v : NumValue} (hx : nx.standsFor x v) :
    nx.standsFor (nx.trunc x) (valueMap (fun a => if 0 ≤ a then ⌊a⌋ else ⌈a⌉) id v) := (h.2.2.1 _ _ hx).2.2.2.2

theorem not_nan_trunc {x : Num} (hx : ¬ nx.standsFor x .nan) : ¬ nx.standsFor (nx.trunc x) .nan := fun hn => by
  obtain ⟨v, hv⟩ := exists_standsFor h x
  have he := standsFor_unique h (standsFor_trunc h hv) hn
  cases v with
  | nan => exact hx hv
  | inf b => cases he
  | finite a => cases he

/-- A finite result of TRUNC is an integer. -/
theorem exists_int_of_trunc {x : Num} {a : ℝ} (ha : nx.standsFor (nx.trunc x) (.finite a)) : ∃ z : Int, a = z := by
  obtain ⟨v, hv⟩ := exists_standsFor h x
  have he := standsFor_unique h (standsFor_trunc h hv) ha
  cases v with
  | nan => cases he
  | inf b => cases he
  | finite b =>
    injection he with he
    exact ⟨if 0 ≤ b then ⌊b⌋ else ⌈b⌉, by rw [← he, Int.cast_ite]⟩

/-- CLAMP to integer limits of a TRUNC that is no NaN is an integer within them. -/
theorem integerWithin_clamp_trunc {m : Nat} (hm : m < 2 ^ 32) {x : Num} (hx : ¬ nx.standsFor x .nan) :
    IntegerWithin nx m (clamp nx (nx.trunc x) (nx.neg (nx.ofNat m)) (nx.ofNat m)) := by
  obtain ⟨a, ha, hlo, hhi, hcase⟩ := clamp_cases h hm (not_nan_trunc h hx)
  obtain ⟨z, rfl⟩ : ∃ z : Int, a = z := by
    obtain htrunc | rfl | rfl := hcase
    · exact exists_int_of_trunc h htrunc
    · exact ⟨m, rfl⟩
    · exact ⟨-m, by push_cast; rfl⟩
  exact ⟨z, ha, by exact_mod_cast hlo, by exact_mod_cast hhi⟩

end Exact

/-- What the quantizer answers, by whether its product is finite. -/
theorem quantize_eq {Num : Type} (nx : Numerics Num) (total qscale : Num) :
    quantize nx total qscale =
      if nx.isFinite (nx.mul total qscale) = true then some (nx.floor (nx.mul total qscale)) else none := rfl

/-- Settles O29: every named real register is an operand of a check that a NaN fails. -/
theorem nanParametersAreNeverRendered : Obligations.NanParametersAreNeverRendered :=
  fun c _ r hnan hvalid => not_nan_of_valid (exactLaws_numericsOf c) hvalid r hnan

/-- Settles O38: TRUNC of the sum is an integer or an infinity, and CLAMP keeps integers integers. -/
theorem noiseMixIsClamped : Obligations.NoiseMixIsClamped :=
  ⟨fun _ _ _ _ _ _ => rfl,
    fun c _ _ _ _ hsum => integerWithin_clamp_trunc (exactLaws_numericsOf c) (by norm_num) hsum⟩

/-- Settles O43: by the quantizer's two cases, and FLOOR as every block's NUMERICS has it. -/
theorem quantizerFloorsOrFails : Obligations.QuantizerFloorsOrFails := by
  refine ⟨fun Num nx total qscale => ⟨fun hfin => ?_, fun hfin => ?_⟩, fun c total qscale a ha => ?_⟩
  · rw [quantize_eq, if_neg (Bool.eq_false_iff.1 hfin)]
  · rw [quantize_eq, if_pos hfin]
  · have h := exactLaws_numericsOf c
    have hfin := (isFinite_iff_standsFor h _).2 ⟨a, ha⟩
    exact ⟨_, by rw [quantize_eq, if_pos hfin], (h.2.2.1 _ _ ha).2.2.2.1⟩

end Sys2Proof.Proofs
end

/-! ### Results that round, in real numbers -/

section
namespace Sys2Proof.Proofs

open Sys2Proof.Machine Sys2Proof.Laws Sys2Proof.Safety

section Exact

variable {Num : Type} {nx : Numerics Num} (h : ExactLaws nx)

include h

theorem standsFor_ofNat {n : Nat} (hn : n < 2 ^ 32) : nx.standsFor (nx.ofNat n) (.finite n) := h.2.2.2.2.2.1 n hn

theorem standsFor_neg {x : Num} {v : NumValue} (hx : nx.standsFor x v) :
    nx.standsFor (nx.neg x) (valueMap (fun a => -a) not v) := (h.2.2.1 _ _ hx).2.1

theorem standsFor_floor {x : Num} {v : NumValue} (hx : nx.standsFor x v) :
    nx.standsFor (nx.floor x) (valueMap (fun a => ⌊a⌋) id v) := (h.2.2.1 _ _ hx).2.2.2.1

theorem isFinite_of_standsFor {x : Num} {a : ℝ} (hx : nx.standsFor x (.finite a)) : nx.isFinite x = true :=
  (isFinite_iff_standsFor h x).2 ⟨a, hx⟩

/-- A result that rounds is no larger in magnitude than a value that its exact result is no larger than. -/
theorem roundsTo_abs_le {e a : ℝ} {r x : Num} (hr : RoundsTo nx e r) (hx : nx.standsFor x (.finite a))
    (hea : |e| ≤ |a|) : ∃ c, nx.standsFor r (.finite c) ∧ |c| ≤ |a| := by
  obtain ⟨hlo, hhi⟩ := abs_le.1 hea
  have habs := (h.2.2.1 _ _ hx).2.2.1
  obtain ⟨c, hc, h1, h2⟩ := roundsTo_between h hr (standsFor_neg h habs) habs hlo hhi
  exact ⟨c, hc, abs_le.2 ⟨h1, h2⟩⟩

/-- TRUNC of a value below m + 1 in magnitude is an integer within m. -/
theorem integerWithin_trunc_of_lt {m : Nat} {x : Num} {a : ℝ} (hx : nx.standsFor x (.finite a)) (ha : |a| < m + 1) :
    IntegerWithin nx m (nx.trunc x) := by
  obtain ⟨hlo, hhi⟩ := abs_lt.1 ha
  have ht := standsFor_trunc h hx
  simp only [valueMap] at ht
  split at ht
  next h0 =>
    have hpos := Int.floor_nonneg.2 h0
    exact ⟨_, ht, by omega, Int.lt_add_one_iff.1 (Int.floor_lt.2 (by push_cast; linarith))⟩
  next h0 =>
    have hneg : ⌈a⌉ ≤ 0 := Int.ceil_le.2 (by push_cast; linarith)
    have hlt : -(m : Int) - 1 < ⌈a⌉ := Int.lt_ceil.2 (by push_cast; linarith)
    exact ⟨_, ht, by omega, by omega⟩

theorem exists_finite_of_within_one {x : Num} (hx : Within nx 1 x) : ∃ a, nx.standsFor x (.finite a) ∧ |a| ≤ 1 := by
  obtain ⟨a, ha, h1, h2⟩ := (within_iff h (by norm_num)).1 hx
  push_cast at h1 h2
  exact ⟨a, ha, abs_le.2 ⟨h1, h2⟩⟩

/-- A value from 0 to 1 stands for such a number. -/
theorem exists_finite_of_inUnit {x : Num} (hx : inUnit nx x = true) :
    ∃ a, nx.standsFor x (.finite a) ∧ 0 ≤ a ∧ a ≤ 1 := by
  obtain ⟨h0, h1⟩ := Bool.and_eq_true_iff.1 hx
  have hzero := standsFor_ofNat h (n := 0) (by norm_num)
  have hone := standsFor_ofNat h (n := 1) (by norm_num)
  obtain ⟨v, hv⟩ := exists_standsFor h x
  have h0' := (h.2.1 _ _ _ _ hzero hv).2.1.1 h0
  have h1' := (h.2.1 _ _ _ _ hv hone).2.1.1 h1
  cases v with
  | nan => simp [valueLt, valueEq] at h1'
  | inf b => cases b <;> simp [valueLt, valueEq] at h0' h1'
  | finite a =>
    rw [← (h.2.1 _ _ _ _ hzero hv).2.1, le_iff_of_finite h hzero hv] at h0'
    rw [← (h.2.1 _ _ _ _ hv hone).2.1, le_iff_of_finite h hv hone] at h1'
    exact ⟨a, hv, by exact_mod_cast h0', by exact_mod_cast h1'⟩

/-! ### The saturator -/

/-- The range of the saturator: its TANH lies in [-1, 1] unless its product is a NaN. -/
theorem integerWithin_saturate (hr : ArithmeticRounds nx) (ht : TanhLaws nx) {q s : Num} {a b : ℝ}
    (hq : nx.standsFor q (.finite a)) (hs : nx.standsFor (nx.add (nx.ofNat 1) s) (.finite b)) :
    IntegerWithin nx 32768 (saturate nx q s) := by
  have hfull := standsFor_ofNat h (n := 32768) (by norm_num)
  push_cast at hfull
  have hdiv := (hr _ _ _ _ hq hfull).2.2.2 (by norm_num)
  have hsmall : |a / 32768| ≤ |a| := by
    rw [abs_div, abs_of_pos (by norm_num : (0 : ℝ) < 32768)]
    exact div_le_self (abs_nonneg a) (by norm_num)
  obtain ⟨c, hc, -⟩ := roundsTo_abs_le h hdiv hq hsmall
  have hmul := (hr _ _ _ _ hc hs).2.2.1
  obtain ⟨y, hy, hy1⟩ := exists_finite_of_within_one h ((ht.1 _).1 hmul.1).2
  have hscale := (hr _ _ _ _ hy hfull).2.2.1
  have hprod : |y * 32768| ≤ |(32768 : ℝ)| := by
    rw [abs_mul]
    exact mul_le_of_le_one_left (abs_nonneg _) hy1
  obtain ⟨r, hr', hle⟩ := roundsTo_abs_le h hscale hfull hprod
  rw [abs_of_pos (by norm_num : (0 : ℝ) < 32768)] at hle
  exact integerWithin_trunc_of_lt h hr' (by push_cast; linarith)

end Exact

/-! ### Where the saturator is odd -/

/-- The value of the other sign. -/
abbrev oppositeValue (v : NumValue) : NumValue := valueMap (fun a => -a) not v

theorem valueLt_asymm {v w : NumValue} (h : valueLt v w) : ¬ valueLt w v := by
  cases v with
  | nan => exact h.elim
  | inf m =>
    cases w with
    | nan => exact h.elim
    | inf n => exact fun h' => by cases h.1.symm.trans h'.2
    | finite b => exact fun h' => by rw [show m = true from h] at h'; cases h'
  | finite a =>
    cases w with
    | nan => exact h.elim
    | inf n => exact fun h' => by rw [show n = false from h] at h'; cases h'
    | finite b => exact lt_asymm h

theorem value_le_antisymm {v w : NumValue} (hvw : valueLt v w ∨ valueEq v w) (hwv : valueLt w v ∨ valueEq w v) :
    v = w := by
  obtain hlt | heq := hvw
  · obtain hlt' | heq' := hwv
    · exact absurd hlt' (valueLt_asymm hlt)
    · exact heq'.2.symm
  · exact heq.2

section Exact

variable {Num : Type} {nx : Numerics Num} (h : ExactLaws nx)

include h

/-- Equal values stand for the same thing. -/
theorem standsFor_of_eq {x y : Num} {v : NumValue} (he : nx.eq x y = true) (hy : nx.standsFor y v) :
    nx.standsFor x v := by
  obtain ⟨w, hw⟩ := exists_standsFor h x
  rwa [← ((h.2.1 _ _ _ _ hw hy).2.2.1.1 he).2]

theorem standsFor_of_le_of_le {x y : Num} {v : NumValue} (h1 : nx.le x y = true) (h2 : nx.le y x = true)
    (hy : nx.standsFor y v) : nx.standsFor x v := by
  obtain ⟨w, hw⟩ := exists_standsFor h x
  rwa [← value_le_antisymm ((h.2.1 _ _ _ _ hw hy).2.1.1 h1) ((h.2.1 _ _ _ _ hy hw).2.1.1 h2)]

theorem le_of_standsFor_same {x y : Num} {v : NumValue} (hv : v ≠ .nan) (hx : nx.standsFor x v)
    (hy : nx.standsFor y v) : nx.le x y = true := (h.2.1 _ _ _ _ hx hy).2.1.2 (.inr ⟨hv, rfl⟩)

/-- TANH of the opposite is the opposite: TANH is odd, and monotone, so it tells no two values apart that stand for one
number. -/
theorem standsFor_tanh_opposite (ht : TanhLaws nx) {x x' : Num} {v w : NumValue} (hx : nx.standsFor x v)
    (hx' : nx.standsFor x' (oppositeValue v)) (hw : nx.standsFor (nx.tanh x) w) :
    nx.standsFor (nx.tanh x') (oppositeValue w) := by
  obtain ⟨hodd, hmono⟩ := ht
  by_cases hv : v = .nan
  · subst hv
    rw [standsFor_unique h hw ((hodd x).2.1 hx)]
    exact (hodd x').2.1 hx'
  · have hopp : oppositeValue v ≠ .nan := by cases v <;> simp_all [valueMap]
    have hneg := standsFor_neg h hx
    have hnan : ¬ nx.standsFor x .nan := fun hn => hv (standsFor_unique h hx hn)
    have htanh := standsFor_of_eq h ((hodd x).1 hnan).1 (standsFor_neg h hw)
    exact standsFor_of_le_of_le h (hmono _ _ (le_of_standsFor_same h hopp hx' hneg))
      (hmono _ _ (le_of_standsFor_same h hopp hneg hx')) htanh

/-- TRUNC of the opposite is the opposite. -/
theorem standsFor_trunc_opposite {x x' : Num} {v w : NumValue} (hx : nx.standsFor x v)
    (hx' : nx.standsFor x' (oppositeValue v)) (hw : nx.standsFor (nx.trunc x) w) :
    nx.standsFor (nx.trunc x') (oppositeValue w) := by
  have htrunc := standsFor_trunc h hx'
  rw [standsFor_unique h hw (standsFor_trunc h hx)]
  convert htrunc using 1
  cases v with
  | nan => rfl
  | inf b => rfl
  | finite a =>
    simp only [oppositeValue, valueMap, NumValue.finite.injEq]
    obtain ha | rfl | ha := lt_trichotomy a 0
    · rw [if_neg (not_le.2 ha), if_pos (by linarith), Int.floor_neg]
      push_cast
      rfl
    · simp
    · rw [if_pos ha.le, if_neg (by linarith), Int.ceil_neg]
      push_cast
      rfl

/-- Where product and quotient change sign with their first operand, so does the saturator. -/
theorem standsFor_saturate_opposite (ht : TanhLaws nx) (hsign : SignsFollow nx) {q q' s : Num} {v w : NumValue}
    (hq : nx.standsFor q v) (hq' : nx.standsFor q' (oppositeValue v)) (hw : nx.standsFor (saturate nx q s) w) :
    nx.standsFor (saturate nx q' s) (oppositeValue w) := by
  obtain ⟨d, hd⟩ := exists_standsFor h (nx.div q (nx.ofNat 32768))
  obtain ⟨m, hm⟩ := exists_standsFor h (nx.mul (nx.div q (nx.ofNat 32768)) (nx.add (nx.ofNat 1) s))
  obtain ⟨t, hth⟩ := exists_standsFor h (nx.tanh (nx.mul (nx.div q (nx.ofNat 32768)) (nx.add (nx.ofNat 1) s)))
  obtain ⟨f, hf⟩ := exists_standsFor h
    (nx.mul (nx.tanh (nx.mul (nx.div q (nx.ofNat 32768)) (nx.add (nx.ofNat 1) s))) (nx.ofNat 32768))
  have hd' := (hsign _ _ _ _ _ hq hq').2 hd
  have hm' := (hsign _ _ _ _ _ hd hd').1 hm
  have ht' := standsFor_tanh_opposite h ht hm hm' hth
  have hf' := (hsign _ _ _ _ _ hth ht').1 hf
  exact standsFor_trunc_opposite h hf hf' hw

end Exact

/-! ### The saturator of the default, and of every block -/

theorem exactLaws_numerics : ExactLaws numerics := exactLaws_binary64 defaultOps

theorem arithmeticRounds_numerics : ArithmeticRounds numerics := arithmeticRounds_binary64 defaultOps

theorem tanhLaws_numerics : TanhLaws numerics := transcendentalLaws_numerics.2.2.2

/-- The default's saturator of any finite sample and a legal amount: the largest finite amount absorbs the 1 added. -/
theorem integerWithin_saturate_numerics {q s : Num64} (hq : numIsFinite q = true)
    (hs : finiteNonneg numerics s = true) : IntegerWithin numerics 32768 (saturate numerics q s) := by
  obtain ⟨a, ha⟩ := (isFinite_iff_standsFor exactLaws_numerics q).1 hq
  have hone : numerics.isFinite (numerics.add (numerics.ofNat 1) s) = true := by
    rw [numerics_eq, binary64_ofNat, numOfNat_one]
    exact numIsFinite_one_add (Bool.and_eq_true_iff.1 hs).1
  obtain ⟨b, hb⟩ := (isFinite_iff_standsFor exactLaws_numerics _).1 hone
  exact integerWithin_saturate exactLaws_numerics arithmeticRounds_numerics tanhLaws_numerics ha hb

theorem saturatorLaw_numerics : SaturatorLaw numerics := fun _ _ _ hq hs =>
  integerWithin_saturate_numerics (isFinite_of_standsFor exactLaws_numerics hq) hs

theorem saturatorLaw_numericsOf (c : Caps) : SaturatorLaw (numericsOf c).ops :=
  numericsOf_ind (motive := fun nx => SaturatorLaw nx) saturatorLaw_numerics (fun n => n.ranges.1) c

theorem signsFollow_of_binary64 {c : Caps} (hc : c.numerics = .binary64 ∨ SignsFollow (numericsOf c).ops) :
    SignsFollow (numericsOf c).ops := by
  obtain hc | hc := hc
  · rw [numericsOf_binary64 hc]
    exact signsFollow_binary64 defaultOps
  · exact hc

/-- Settles O44: TANH keeps the range, and every operation of the saturator commutes with negation where product and
quotient do. -/
theorem saturatorIsBoundedAndOdd : Obligations.SaturatorIsBoundedAndOdd := by
  refine ⟨fun _ _ _ _ => rfl, fun c q s z hq hfin hs => ?_, fun q a hq ha => ?_⟩
  · have h := exactLaws_numericsOf c
    obtain ⟨y, hy, hlo, hhi⟩ := saturatorLaw_numericsOf c q s z hq (Bool.and_eq_true_iff.2 ⟨hfin, hs⟩)
    refine ⟨y, hy, hlo, hhi, fun hc => ?_⟩
    exact standsFor_saturate_opposite h (transcendentalLaws_numericsOf c).2.2.2 (signsFollow_of_binary64 hc) hq
      (standsFor_neg h hq) hy
  · have h := exactLaws_numerics
    obtain ⟨y, hy, hlo, hhi⟩ := integerWithin_saturate_numerics hq ha
    have hodd := standsFor_saturate_opposite h tanhLaws_numerics (signsFollow_binary64 defaultOps)
      (standsFor_numValue q) (standsFor_neg h (standsFor_numValue q)) hy
    have hint : numToInt (saturate numerics q a) = y := (integerLaws_binary64 defaultOps _).1 y hy
    have hneg : numToInt (saturate numerics (numNeg q) a) = -y :=
      (integerLaws_binary64 defaultOps _).1 (-y) (by push_cast; exact hodd)
    rw [hint, hneg]
    exact ⟨hlo, hhi, isFinite_of_standsFor h hy, rfl⟩

end Sys2Proof.Proofs
end

/-! ### The samples of every render stay in range -/

section
namespace Sys2Proof.Proofs

open Sys2Proof.Machine Sys2Proof.Laws Sys2Proof.Safety

/-! ### The fade -/

section Exact

variable {Num : Type} {nx : Numerics Num} (h : ExactLaws nx)

include h

theorem countOf_floor_le_of_le {x : Num} {m : Nat} (hm : m < 2 ^ 32) (hle : nx.le x (nx.ofNat m) = true) :
    countOf nx (nx.floor x) ≤ m := by
  obtain ⟨v, hv⟩ := exists_standsFor h x
  have hofNat := standsFor_ofNat h hm
  have hfloor := standsFor_floor h hv
  refine countOf_floor_le h hm ?_
  cases v with
  | nan => exact absurd hv (not_nan_of_le h hle).1
  | inf b =>
    rw [(h.2.1 _ _ _ _ hv hofNat).2.1] at hle
    exact (h.2.1 _ _ _ _ hfloor hofNat).2.1.2 hle
  | finite a =>
    rw [le_iff_of_finite h hv hofNat] at hle
    exact (le_iff_of_finite h hfloor hofNat).2 ((Int.floor_le a).trans hle)

/-- MIN with a number no larger than m is no larger than m. -/
theorem min_le_ofNat {x y : Num} {b : ℝ} {m : Nat} (hm : m < 2 ^ 32) (hx : ¬ nx.standsFor x .nan)
    (hy : nx.standsFor y (.finite b)) (hb : b ≤ m) : nx.le (nx.min x y) (nx.ofNat m) = true := by
  obtain ⟨v, hv⟩ := exists_standsFor h x
  have hofNat := standsFor_ofNat h hm
  have hmin := ((h.2.1 _ _ _ _ hv hy).2.2.2 (fun he => hx (he ▸ hv)) (by simp)).1
  split at hmin
  next => exact (le_iff_of_finite h hmin hofNat).2 hb
  next hlt =>
    rw [(h.2.1 _ _ _ _ hy hv).1] at hlt
    cases v with
    | nan => exact absurd hv hx
    | inf n => exact (h.2.1 _ _ _ _ hmin hofNat).2.1.2 (.inl (by simpa [valueLt] using hlt))
    | finite a => exact (le_iff_of_finite h hmin hofNat).2 ((not_lt.1 hlt).trans hb)

variable (hr : ArithmeticRounds nx)

include hr

/-- The fade is no longer than the render (45_post_chain.md rule R246). -/
theorem fadeLength_le {p : Params} {n : Nat} (hn : n < 2 ^ 32) (hfade : nx.isFinite (nx.asF64 p.fadeDuration) = true) :
    fadeLength nx p n ≤ n := by
  obtain ⟨f, hf⟩ := (isFinite_iff_standsFor h _).1 hfade
  have hrate : nx.standsFor (rateNum nx p) (.finite p.sampleRate.toNat) := standsFor_ofNat h p.sampleRate.isLt
  have hspan := (hr _ _ _ _ hf hrate).2.2.1.1
  have hcount := standsFor_ofNat h hn
  have htwo := standsFor_ofNat h (n := 2) (by norm_num)
  have hzero := standsFor_ofNat h (n := 0) (by norm_num)
  have hhalf := (hr _ _ _ _ hcount htwo).2.2.2 (by norm_num)
  have hpos : (0 : ℝ) ≤ n := n.cast_nonneg
  obtain ⟨b, hb, -, hbn⟩ := roundsTo_between h hhalf hzero hcount (by push_cast; linarith) (by push_cast; linarith)
  exact countOf_floor_le_of_le h hn (min_le_ofNat h hn hspan hb hbn)

/-- A fade gain of at most 1 keeps an integer within its bound. -/
theorem integerWithin_fadeGain {m a k : Nat} {w : Num} (hm : m < 2 ^ 32) (hak : a ≤ k) (hpos : 0 < k)
    (hk : k < 2 ^ 32) (hw : IntegerWithin nx m w) : IntegerWithin nx m (fadeGain nx w a k) := by
  obtain ⟨z, hz, hlo, hhi⟩ := hw
  have hbound := standsFor_ofNat h hm
  have hone := standsFor_ofNat h (n := 1) (by norm_num)
  have hpos' : (0 : ℝ) < k := by exact_mod_cast hpos
  have hgain := (hr _ _ _ _ (standsFor_ofNat h (hak.trans_lt hk)) (standsFor_ofNat h hk)).2.2.2 hpos'.ne'
  have hratio : |(a : ℝ) / k| ≤ |((1 : Nat) : ℝ)| := by
    rw [abs_of_nonneg (by positivity), Nat.cast_one, abs_one, div_le_one hpos']
    exact_mod_cast hak
  obtain ⟨g, hg, hg1⟩ := roundsTo_abs_le h hgain hone hratio
  rw [Nat.cast_one, abs_one] at hg1
  have hprod : |(z : ℝ) * g| ≤ |(m : ℝ)| := by
    rw [abs_mul, abs_of_nonneg (by positivity : (0 : ℝ) ≤ m)]
    have hz' : |(z : ℝ)| ≤ m := abs_le.2 ⟨by exact_mod_cast hlo, by exact_mod_cast hhi⟩
    calc |(z : ℝ)| * |g| ≤ m * 1 := mul_le_mul hz' hg1 (abs_nonneg g) (by positivity)
      _ = m := mul_one _
  obtain ⟨c, hc, hcm⟩ := roundsTo_abs_le h (hr _ _ _ _ hz hg).2.2.1 hbound hprod
  rw [abs_of_nonneg (by positivity : (0 : ℝ) ≤ m)] at hcm
  exact integerWithin_trunc_of_lt h hc (by linarith)

/-- The fade keeps an integer within its bound. -/
theorem integerWithin_fadeSample {m n k j : Nat} {w : Num} (hm : m < 2 ^ 32) (hkn : k ≤ n) (hn : n < 2 ^ 32)
    (hw : IntegerWithin nx m w) : IntegerWithin nx m (fadeSample nx n k j w) := by
  have hin : IntegerWithin nx m (if j < k then fadeGain nx w j k else w) := by
    split
    · exact integerWithin_fadeGain h hr hm (by omega) (by omega) (by omega) hw
    · exact hw
  simp only [fadeSample]
  split
  · exact integerWithin_fadeGain h hr hm (by omega) (by omega) (by omega) hin
  · exact hin

end Exact

/-! ### The band gain -/

/-- A dyadic number of at most 53 bits is a binary64 value. -/
theorem exists_standsFor_dyadic {m j : Nat} (hm : m ≤ 2 ^ 53) (hj : j ≤ 1074) :
    ∃ x : Num64, numStandsFor x (.finite ((m : ℝ) / 2 ^ j)) := by
  obtain ⟨i, hi⟩ : ∃ i, i + j = 1074 := ⟨1074 - j, by omega⟩
  obtain ⟨p, hp, hle⟩ := exists_pattern m i hm
  have hlt : p < infPattern := by unfold infPattern; omega
  have hlow := lowBits_numOfParts (neg := false) (p := p) (by unfold infPattern at hlt; omega)
  have hsign := numSign_numOfParts (neg := false) (p := p) (by unfold infPattern at hlt; omega)
  refine ⟨numOfParts false p, (standsFor_finite_iff _ _).2 ⟨(numIsFinite_iff _).2 (by rwa [hlow]), ?_⟩⟩
  rw [numScaled_eq, hsign, hlow, hp, unitOne_eq_pow hi]
  push_cast
  rw [pow_add, mul_comm (m : ℝ), mul_div_mul_left _ _ (by positivity)]

/-- The gain of the band attenuator is one of four tenths. -/
theorem bandGainOf_cases {Num : Type} (nx : Numerics Num) (p : Params) (fp : Num) :
    ∃ n, 6 ≤ n ∧ n ≤ 9 ∧ bandGainOf nx p fp = nx.tenths n := by
  unfold bandGainOf
  split
  · exact ⟨9, by norm_num, by norm_num, rfl⟩
  split
  · exact ⟨8, by norm_num, by norm_num, rfl⟩
  split
  · exact ⟨7, by norm_num, by norm_num, rfl⟩
  · exact ⟨6, by norm_num, by norm_num, rfl⟩

/-- A tenth rounds to a number from 0 to a little above 0.9. -/
theorem standsFor_tenths {n : Nat} (hn : n ≤ 9) :
    ∃ g, numerics.standsFor (numerics.tenths n) (.finite g) ∧ 0 ≤ g ∧ g ≤ 58983 / 2 ^ 16 := by
  have hround := roundsTo_numRound defaultOps false (n := unitOne * n) (d := 10) (by norm_num)
  have hexact : (if false then -((unitOne * n : Nat) : ℝ) else (unitOne * n : Nat)) / ((10 : Nat) * unitOne) =
      n / 10 := by
    have hu := unitOne_pos_real
    rw [if_neg (by simp)]
    push_cast
    field_simp
  rw [hexact] at hround
  obtain ⟨y, hy⟩ := exists_standsFor_dyadic (m := 58983) (j := 16) (by norm_num) (by norm_num)
  have hn' : (n : ℝ) ≤ 9 := by exact_mod_cast hn
  exact roundsTo_between exactLaws_numerics hround (numStandsFor_iff _ _ |>.2 (numValue_numZero false)) hy
    (by positivity) (by norm_num; linarith)

/-- The band gain of a saturated sample: 0.9 of 32768 is a little above 29491. -/
theorem integerWithin_bandGain {p : Params} {q t : Num64} (hq : IntegerWithin numerics 32768 q) :
    IntegerWithin numerics 29491 (bandGain numerics p q t) := by
  obtain ⟨z, hz, hlo, hhi⟩ := hq
  obtain ⟨n, -, hn, hgain⟩ := bandGainOf_cases numerics p (bandProxy numerics t)
  obtain ⟨g, hg, hg0, hg9⟩ := standsFor_tenths hn
  obtain ⟨y, hy⟩ := exists_standsFor_dyadic (m := 58983) (j := 1) (by norm_num) (by norm_num)
  have hz' : |(z : ℝ)| ≤ 32768 := abs_le.2 ⟨by exact_mod_cast hlo, by exact_mod_cast hhi⟩
  have hprod : |(z : ℝ) * g| ≤ |((58983 : Nat) : ℝ) / 2 ^ 1| := by
    rw [abs_mul, abs_of_nonneg hg0]
    calc |(z : ℝ)| * g ≤ 32768 * (58983 / 2 ^ 16) := mul_le_mul hz' hg9 hg0 (by norm_num)
      _ = |((58983 : Nat) : ℝ) / 2 ^ 1| := by norm_num
  obtain ⟨c, hc, hle⟩ := roundsTo_abs_le exactLaws_numerics (arithmeticRounds_numerics _ _ _ _ hz hg).2.2.1 hy hprod
  rw [bandGain, hgain]
  exact integerWithin_trunc_of_lt exactLaws_numerics hc (hle.trans_lt (by norm_num))

/-! ### The noise -/

theorem numScaled_numOne : numScaled numOne = (unitOne : Int) := by
  rw [numScaled, numMag_one]
  rfl

/-- A sum that is finite stays below the magnitudes that round to infinity. -/
theorem numIsFinite_numAdd_iff {x y : Num64} (hx : numIsFinite x = true) (hy : numIsFinite y = true) :
    numIsFinite (numAdd x y) = true ↔ (numScaled x + numScaled y).natAbs < overflowMag := by
  by_cases h0 : numScaled x + numScaled y = 0
  · have hpos : 0 < overflowMag := by
      rw [overflowMag_eq_pow rfl]
      positivity
    simp [numAdd_cancel hx hy h0, h0, hpos]
  · have h := (numRound_overflow (decide (numScaled x + numScaled y < 0)) (n := (numScaled x + numScaled y).natAbs)
      Nat.one_pos).1
    rw [numAdd_finite hx hy h0, ← Bool.not_eq_false, h]
    omega

/-- A finite value plus one within [-1, 1] is finite, as it is plus 1. -/
theorem numIsFinite_numAdd_of_atMost_one {x u : Num64} (hx : numIsFinite x = true) (hu : AtMost u 1) :
    numIsFinite (numAdd x u) = true := by
  have hx' : numIsFinite (numAbs x) = true := by rw [numIsFinite_numAbs, hx]
  have hone := (numIsFinite_numAdd_iff finite_one hx').1 (numIsFinite_one_add hx')
  rw [numScaled_numOne, numScaled_numAbs, Int.abs_eq_natAbs] at hone
  have hum : (numScaled u).natAbs ≤ unitOne := by
    rw [natAbs_numScaled]
    simpa using hu.2
  rw [numIsFinite_numAdd_iff hx hu.1]
  omega

/-- A finite value plus one that is no NaN is no NaN. -/
theorem numIsNaN_numAdd {x y : Num64} (hx : numIsFinite x = true) (hy : numIsNaN y = false) :
    numIsNaN (numAdd x y) = false := by
  obtain hfin | hinf | hnan := finite_or_inf_or_nan y
  · exact Bool.eq_false_iff.2 (roundsTo_numAdd plainOps hx hfin).1
  · rwa [numAdd_finite_inf hx hinf]
  · rw [hnan] at hy
    cases hy

/-- The accumulators of the noise sources hold numbers, that of brown noise one within [-1, 1]. -/
def AccumulatorsFinite (d : Dsp Num64) : Prop := numIsFinite d.accPink = true ∧ Within numerics 1 d.accBrown

theorem within_one_iff_atMost {x : Num64} : Within numerics 1 x ↔ AtMost x 1 := by
  rw [atMost_one_iff, numerics_eq, Within, binary64_ofNat, numOfNat_one]
  rfl

theorem accumulatorsFinite_dspStart (p : Params) : AccumulatorsFinite (dspStart numerics p) := by
  have hzero : (dspStart numerics p).accPink = numZero false := numOfNat_zero
  have hzero' : (dspStart numerics p).accBrown = numZero false := numOfNat_zero
  rw [AccumulatorsFinite, hzero, hzero', within_one_iff_atMost]
  exact ⟨numIsFinite_numZero false, atMost_of_inUnit (numLe_refl (finite_not_nan (numIsFinite_numZero false)))
    numLe_zero_one⟩

theorem accumulatorsFinite_drawU {d : Dsp Num64} (hd : AccumulatorsFinite d) :
    AccumulatorsFinite (drawU numerics d).2 := hd

theorem within_drawU (d : Dsp Num64) : Within numerics 1 (drawU numerics d).1 := drawLaws_numerics d.rng

theorem accumulatorsFinite_noisePink {d : Dsp Num64} (i : Nat) (hd : AccumulatorsFinite d) :
    AccumulatorsFinite (noisePink numerics i d).2 :=
  ⟨numIsFinite_numAdd_of_atMost_one hd.1 (within_one_iff_atMost.1 (within_drawU d)), hd.2⟩

theorem accumulatorsFinite_noiseBrown {d : Dsp Num64} (hd : AccumulatorsFinite d) :
    AccumulatorsFinite (noiseBrown numerics d).2 := by
  refine ⟨hd.1, within_clamp exactLaws_numerics (by norm_num) ?_⟩
  obtain ⟨a, ha, -⟩ := exists_finite_of_within_one exactLaws_numerics hd.2
  obtain ⟨u, hu, -⟩ := exists_finite_of_within_one exactLaws_numerics (within_drawU d)
  obtain ⟨g, hg, hg0, hg9⟩ := standsFor_tenths (n := 1) (by norm_num)
  have hprod : |g * u| ≤ |u| := by
    rw [abs_mul, abs_of_nonneg hg0]
    exact mul_le_of_le_one_left (abs_nonneg u) (hg9.trans (by norm_num))
  obtain ⟨s, hs, -⟩ := roundsTo_abs_le exactLaws_numerics (arithmeticRounds_numerics _ _ _ _ hg hu).2.2.1 hu hprod
  exact (arithmeticRounds_numerics _ _ _ _ ha hs).1.1

/-- Pink noise is a finite sum over a count of at least 1. -/
theorem isFinite_noisePink {d : Dsp Num64} {i : Nat} (hi : i + 1 < 2 ^ 32) (hd : AccumulatorsFinite d) :
    numIsFinite (noisePink numerics i d).1 = true := by
  obtain ⟨a, ha⟩ := (isFinite_iff_standsFor exactLaws_numerics _).1 (accumulatorsFinite_noisePink i hd).1
  have hcount := standsFor_ofNat exactLaws_numerics hi
  have hge : (1 : ℝ) ≤ (i + 1 : Nat) := by exact_mod_cast Nat.le_add_left 1 i
  have hquot : |a / (i + 1 : Nat)| ≤ |a| := by
    rw [abs_div, abs_of_nonneg (zero_le_one.trans hge)]
    exact div_le_self (abs_nonneg a) hge
  obtain ⟨c, hc, -⟩ := roundsTo_abs_le exactLaws_numerics
    ((arithmeticRounds_numerics _ _ _ _ ha hcount).2.2.2 (by linarith)) ha hquot
  exact isFinite_of_standsFor exactLaws_numerics hc

theorem isFinite_of_within_one {x : Num64} (hx : Within numerics 1 x) : numIsFinite x = true :=
  (within_one_iff_atMost.1 hx).1

/-- An oscillator leaves the accumulators finite, whatever its code. -/
theorem accumulatorsFinite_osc {d : Dsp Num64} (code : Word32) (f t : Num64) (i : Nat) (hd : AccumulatorsFinite d) :
    AccumulatorsFinite (osc numerics code f t i d).2 := by
  simp only [osc]
  split_ifs
  · exact hd
  · exact hd
  · exact hd
  · exact hd
  · exact accumulatorsFinite_drawU hd
  · exact accumulatorsFinite_noisePink i hd
  · exact accumulatorsFinite_noiseBrown hd
  · exact hd

/-- The source of the noise mix answers a finite value and leaves the accumulators finite. -/
theorem noiseSource_finite {d : Dsp Num64} {i : Nat} (nt : Word32) (hi : i + 1 < 2 ^ 32) (hd : AccumulatorsFinite d) :
    numIsFinite (noiseSource numerics nt i d).1 = true ∧ AccumulatorsFinite (noiseSource numerics nt i d).2 := by
  simp only [noiseSource]
  split_ifs
  · exact ⟨isFinite_of_within_one (within_drawU d), accumulatorsFinite_drawU hd⟩
  · exact ⟨isFinite_noisePink hi hd, accumulatorsFinite_noisePink i hd⟩
  · have hbrown := accumulatorsFinite_noiseBrown hd
    exact ⟨isFinite_of_within_one hbrown.2, hbrown⟩
  · exact ⟨isFinite_of_standsFor exactLaws_numerics (standsFor_ofNat exactLaws_numerics (n := 0) (by norm_num)), hd⟩

/-- Mixing finite noise at a legal amount: the scaled noise may overflow, but the clamp sees no NaN. -/
theorem integerWithin_mixNoise {q n amount nscale : Num64} (hq : numIsFinite q = true) (hn : numIsFinite n = true)
    (ha : inUnit numerics amount = true) (hs : numIsFinite nscale = true) :
    IntegerWithin numerics 32767 (mixNoise numerics q n amount nscale) := by
  refine integerWithin_clamp_trunc exactLaws_numerics (by norm_num) (Bool.eq_false_iff.1 (numIsNaN_numAdd hq ?_))
  obtain ⟨a, hamount, ha0, ha1⟩ := exists_finite_of_inUnit exactLaws_numerics ha
  obtain ⟨b, hnoise⟩ := (isFinite_iff_standsFor exactLaws_numerics n).1 hn
  obtain ⟨c, hscale⟩ := (isFinite_iff_standsFor exactLaws_numerics nscale).1 hs
  have hprod : |b * a| ≤ |b| := by
    rw [abs_mul, abs_of_nonneg ha0]
    exact mul_le_of_le_one_right (abs_nonneg b) ha1
  obtain ⟨e, he, -⟩ := roundsTo_abs_le exactLaws_numerics
    (arithmeticRounds_numerics _ _ _ _ hnoise hamount).2.2.1 hnoise hprod
  exact Bool.eq_false_iff.2 (arithmeticRounds_numerics _ _ _ _ he hscale).2.2.1.1

/-! ### The stages -/

theorem accumulatorsFinite_oscStack {p : Params} {f e t : Num64} {i : Nat} (levels : List Num64) {d : Dsp Num64}
    (total : Num64) (hd : AccumulatorsFinite d) :
    AccumulatorsFinite (oscStack numerics p f e t i levels d total).2 := by
  induction levels generalizing d total with
  | nil => exact hd
  | cons level levels ih => exact ih _ (accumulatorsFinite_osc _ _ _ _ hd)

theorem accumulatorsFinite_oscSample {p : Params} {i : Nat} {d : Dsp Num64} (hd : AccumulatorsFinite d) :
    AccumulatorsFinite (oscSample numerics p i d).2 := accumulatorsFinite_oscStack _ _ hd

/-- What the quantizer lets pass is an integer. -/
theorem exists_int_of_quantize {Num : Type} {nx : Numerics Num} (h : ExactLaws nx) {total qscale q : Num}
    (hq : quantize nx total qscale = some q) : ∃ z : Int, nx.standsFor q (.finite z) := by
  rw [quantize_eq] at hq
  split at hq
  next hfin =>
    cases hq
    obtain ⟨a, ha⟩ := (isFinite_iff_standsFor h _).1 hfin
    exact ⟨_, standsFor_floor h ha⟩
  next => cases hq

/-- Stage OSC gives integers and leaves the accumulators finite. -/
theorem oscStage_integers {p : Params} {n i : Nat} {d : Dsp Num64} {r : List Num64 × Dsp Num64}
    (hr : oscStage numerics p n i d = some r) (hd : AccumulatorsFinite d) :
    (∀ q ∈ r.1, ∃ z : Int, numerics.standsFor q (.finite z)) ∧ AccumulatorsFinite r.2 := by
  induction n generalizing i d r with
  | zero =>
    cases hr
    exact ⟨by simp, hd⟩
  | succ n ih =>
    simp only [oscStage] at hr
    split at hr
    next => cases hr
    next q hq =>
      split at hr
      next => cases hr
      next qs d' hrest =>
        cases hr
        obtain ⟨hints, hd'⟩ := ih hrest (accumulatorsFinite_oscSample hd)
        exact ⟨List.forall_mem_cons.2 ⟨exists_int_of_quantize exactLaws_numerics hq, hints⟩, hd'⟩

/-- What holds of each sample of a stage from what holds of its operand. -/
theorem forall_mem_mapStage {Num : Type} {g : Nat → Num → Num} {P Q : Num → Prop} (hg : ∀ i q, P q → Q (g i q))
    {w : List Num} (i : Nat) (hw : ∀ q ∈ w, P q) : ∀ x ∈ mapStage g i w, Q x := by
  induction w generalizing i with
  | nil => simp [mapStage]
  | cons q w ih =>
    obtain ⟨hq, hrest⟩ := List.forall_mem_cons.1 hw
    exact List.forall_mem_cons.2 ⟨hg i q hq, ih (i + 1) hrest⟩

/-- Stage NOISE of a legal amount gives integers within the clamp. -/
theorem integerWithin_noiseStage {p : Params} {i : Nat} {w : List Num64} {d : Dsp Num64}
    (hi : i + w.length < 2 ^ 32) (ha : inUnit numerics (numerics.asF64 p.noiseAmount) = true)
    (hs : numIsFinite (noiseScale numerics p) = true) (hw : ∀ q ∈ w, numIsFinite q = true)
    (hd : AccumulatorsFinite d) : ∀ x ∈ noiseStage numerics p i w d, IntegerWithin numerics 32767 x := by
  induction w generalizing i d with
  | nil => simp [noiseStage]
  | cons q w ih =>
    rw [List.length_cons] at hi
    obtain ⟨hq, hrest⟩ := List.forall_mem_cons.1 hw
    obtain ⟨hn, hd'⟩ := noiseSource_finite p.noiseType (i := i) (by omega) hd
    exact List.forall_mem_cons.2 ⟨integerWithin_mixNoise hq hn ha hs, ih (by omega) hrest hd'⟩

theorem isFinite_of_integerWithin {m : Nat} {x : Num64} (hx : IntegerWithin numerics m x) : numIsFinite x = true := by
  obtain ⟨z, hz, -⟩ := hx
  exact isFinite_of_standsFor exactLaws_numerics hz

/-- The noise scale of a valid snapshot is 2^15 or 2^23. -/
theorem isFinite_noiseScale {p : Params} (hbd : p.bitDepth = 16#32 ∨ p.bitDepth = 24#32) :
    numIsFinite (noiseScale numerics p) = true := by
  have hlt : 2 ^ (asU32 p.bitDepth - 1) < 2 ^ 32 := by
    obtain hbd | hbd := hbd <;> rw [hbd] <;> decide
  exact isFinite_of_standsFor exactLaws_numerics (standsFor_ofNat exactLaws_numerics hlt)

/-- The bound of a rendered sample, without noise and with it (45_post_chain.md rule R248). -/
def renderBound (p : Params) : Nat := if p.noiseType = 0#32 then 29491 else 32767

theorem renderBound_lt (p : Params) : renderBound p < 2 ^ 32 := by
  unfold renderBound
  split <;> norm_num

/-- The sample before NOISE: the saturator gives 32768, the band gain 29491. -/
theorem integerWithin_bandStage {p : Params} {w : List Num64}
    (hsat : finiteNonneg numerics (numerics.asF64 p.saturatorAmount) = true)
    (hw : ∀ q ∈ w, ∃ z : Int, numerics.standsFor q (.finite z)) :
    ∀ x ∈ mapStage (fun i q => bandGain numerics p q (sampleTime numerics p i)) 0
      (mapStage (fun _ q => saturate numerics q (numerics.asF64 p.saturatorAmount)) 0 w),
      IntegerWithin numerics 29491 x := by
  have hsaturated := forall_mem_mapStage (Q := IntegerWithin numerics 32768)
    (g := fun _ q => saturate numerics q (numerics.asF64 p.saturatorAmount))
    (fun _ q ⟨z, hz⟩ => saturatorLaw_numerics q _ z hz hsat) 0 hw
  exact forall_mem_mapStage (P := IntegerWithin numerics 32768) (fun _ _ hq => integerWithin_bandGain hq) 0 hsaturated

/-- The sample before FADE: the band gain's bound, or with noise the clamp's. -/
theorem integerWithin_mixedStage {p : Params} {w : List Num64} {d : Dsp Num64} (hlen : w.length < 2 ^ 32)
    (hbd : p.bitDepth = 16#32 ∨ p.bitDepth = 24#32) (ha : inUnit numerics (numerics.asF64 p.noiseAmount) = true)
    (hw : ∀ x ∈ w, IntegerWithin numerics 29491 x) (hd : AccumulatorsFinite d) :
    ∀ x ∈ if p.noiseType = 0#32 then w else noiseStage numerics p 0 w d,
      IntegerWithin numerics (renderBound p) x := by
  unfold renderBound
  split
  · exact hw
  · exact integerWithin_noiseStage (by omega) ha (isFinite_noiseScale hbd)
      (fun q hq => isFinite_of_integerWithin (hw q hq)) hd

/-- The post chain of a valid snapshot's integers: FADE keeps the bound of the stages before it. -/
theorem integerWithin_postChain {c : Caps} {p : Params} {n : Nat} {w : List Num64} {d : Dsp Num64}
    (hv : validateIn numerics c p = none) (hlen : w.length = n) (hn : n < 2 ^ 32)
    (hw : ∀ q ∈ w, ∃ z : Int, numerics.standsFor q (.finite z)) (hd : AccumulatorsFinite d) :
    ∀ x ∈ postChain numerics p n w d, IntegerWithin numerics (renderBound p) x := by
  obtain ⟨⟨-, -, -, -, -, hbd⟩, ⟨-, -, -, -, -, -, -, -, -, -, -, -, -, -, hamount, -, -, hsat, hfade⟩, -⟩ :=
    validateIn_iff.1 hv
  have hmixed := integerWithin_mixedStage (by simpa [hlen] using hn) hbd hamount (integerWithin_bandStage hsat hw) hd
  have hlength : fadeLength numerics p n ≤ n :=
    fadeLength_le exactLaws_numerics arithmeticRounds_numerics hn (Bool.and_eq_true_iff.1 hfade).1
  simp only [postChain]
  split
  · exact forall_mem_mapStage
      (fun _ _ => integerWithin_fadeSample exactLaws_numerics arithmeticRounds_numerics (renderBound_lt p) hlength hn)
      0 hmixed
  · exact hmixed

/-- The default's render of a valid snapshot stays in range. -/
theorem renderLaw_numerics : RenderLaw numerics := by
  intro c p w _ hv hw
  simp only [renderBuffer, Option.map_eq_some_iff] at hw
  obtain ⟨r, hr, rfl⟩ := hw
  have hcount : sampleCount numerics p ≤ c.maxSamples.toNat :=
    countOf_floor_le exactLaws_numerics c.maxSamples.isLt (validateIn_iff.1 hv).2.2.2
  obtain ⟨hints, hd⟩ := oscStage_integers hr (accumulatorsFinite_dspStart p)
  exact integerWithin_postChain hv (length_oscStage hr) (hcount.trans_lt c.maxSamples.isLt) hints hd

theorem renderLaw_numericsOf (c : Caps) : RenderLaw (numericsOf c).ops :=
  numericsOf_ind (motive := fun nx => RenderLaw nx) renderLaw_numerics (fun n => n.ranges.2) c

end Sys2Proof.Proofs
end

/-! ### What a render writes back, and that every step keeps the samples in range -/

section
namespace Sys2Proof.Proofs

open Sys2Proof.Machine Sys2Proof.Laws Sys2Proof.Safety

/-! ### The words of a render -/

/-- The buffer of a valid snapshot holds integers within [-32767, 32767], without noise within [-29491, 29491]. -/
theorem renderBuffer_range {c : Caps} {p : Params} {w : List (numericsOf c).Num} (hc : LegalCaps c)
    (hv : validate c p = none) (hw : renderBuffer (numericsOf c).ops p = some w) {x : (numericsOf c).Num} (hx : x ∈ w) :
    ∃ z : Int, (numericsOf c).ops.standsFor x (.finite z) ∧ (numericsOf c).ops.toInt x = z ∧
      -32767 ≤ z ∧ z ≤ 32767 ∧ (p.noiseType = 0#32 → -29491 ≤ z ∧ z ≤ 29491) := by
  obtain ⟨z, hz, hlo, hhi⟩ := renderLaw_numericsOf c c p w hc hv hw x hx
  have hint := ((exactLaws_numericsOf c).2.2.2.2.1 x).1 z hz
  split at hlo <;> rename_i h0
  · rw [if_pos h0] at hhi
    push_cast at hlo hhi
    exact ⟨z, hz, hint, by omega, by omega, fun _ => ⟨hlo, hhi⟩⟩
  · rw [if_neg h0] at hhi
    push_cast at hlo hhi
    exact ⟨z, hz, hint, hlo, hhi, fun h => absurd h h0⟩

/-- Settles O47: the stages keep the length, and the range laws hold of every block's NUMERICS. -/
theorem renderWritesBackItsBuffer : Obligations.RenderWritesBackItsBuffer :=
  ⟨fun _ _ _ => rfl, fun _ _ _ _ hr => length_render hr,
    fun _ _ _ hc hv hw _ hx => renderBuffer_range hc hv hw hx⟩

/-- The words of the render of a valid snapshot lie within [-32767, 32767]. -/
theorem render_word_range {c : Caps} {p : Params} {ws : List (BitVec 32)} (hc : LegalCaps c)
    (hv : validate c p = none) (hr : render (numericsOf c).ops p = some ws) {w : BitVec 32} (hw : w ∈ ws) :
    -32767 ≤ w.toInt ∧ w.toInt ≤ 32767 := by
  simp only [render, Option.map_eq_some_iff] at hr
  obtain ⟨buffer, hbuffer, rfl⟩ := hr
  obtain ⟨x, hx, rfl⟩ := List.mem_map.1 hw
  obtain ⟨z, -, hint, hlo, hhi, -⟩ := renderBuffer_range hc hv hbuffer hx
  have hword : (sampleWord (numericsOf c).ops x).toInt = z := by
    rw [sampleWord, hint, BitVec.toInt_ofInt]
    exact Int.bmod_eq_of_le (by norm_num; omega) (by norm_num; omega)
  rw [hword]
  exact ⟨hlo, hhi⟩

/-! ### Every step keeps the samples in range -/

/-- A command leaves the sample memory as it is, or with every entry unspecified. -/
theorem mem_of_commandEffect {i : Instr} {s t : State} (he : CommandEffect i s t) : t.mem = s.mem ∨ t.mem = [] := by
  obtain ⟨-, rfl⟩ | ⟨-, -, rfl⟩ | ⟨-, -, code, detail, -, rfl⟩ | ⟨-, -, -, rfl⟩ | ⟨-, -, rfl⟩ | ⟨-, rfl⟩ := he
  · exact .inl rfl
  · exact .inl rfl
  · exact .inl rfl
  · exact .inr rfl
  · exact .inl rfl
  · exact .inr rfl

/-- So does a host interaction: only the engine's completion defines a sample. -/
theorem mem_of_performEvent {e : BusEvent} {s t : State} (he : performEvent e s = .next t) :
    t.mem = s.mem ∨ t.mem = [] := by
  obtain ⟨a, -, -, ⟨i, -, hc⟩ | ⟨-, rfl⟩ | ⟨-, detail, rfl⟩ | ⟨r, v, rfl⟩⟩ | ⟨off, width, v, c, -, rfl⟩ | ⟨-, rfl⟩ :=
    performEvent_effect he
  · exact mem_of_commandEffect hc
  · exact .inl rfl
  · exact .inl rfl
  · exact .inl (storeReg_mem r v s)
  · exact .inl rfl
  · exact .inr rfl

/-- The bound speaks of the sample memory alone, and an unspecified entry meets it. -/
theorem samplesBounded_of_mem {s t : State} (h : SamplesBounded s) (hm : t.mem = s.mem ∨ t.mem = []) :
    SamplesBounded t := by
  intro i w hw
  obtain hm | hm := hm <;> rw [hm] at hw
  · exact h i w hw
  · simp at hw

/-- The engine's update writes back a valid snapshot's render, or leaves every entry unspecified. -/
theorem samplesBounded_engineUpdate {s : State} {p : Params} (h : Inv s) (hp : runningSnapshot s = some p) :
    SamplesBounded (engineUpdate p s) := by
  obtain ⟨hv, -⟩ := h.runningLegal p hp
  intro i w hw
  unfold engineUpdate at hw
  split at hw
  next ws hr =>
    rw [complete_mem, readSample_memOfSamples] at hw
    exact render_word_range h.capsLegal hv hr (List.mem_of_getElem? hw)
  next => simp at hw

/-- Settles O58: samples are defined by the engine's update alone, whose words the range laws bound. -/
theorem stepKeepsSamplesBounded : Obligations.StepKeepsSamplesBounded := by
  intro s t h hb hst
  obtain ⟨p, hp, rfl⟩ | ⟨-, -, rfl⟩ | ⟨e, rest, -, -, he⟩ := step_effect hst
  · exact samplesBounded_engineUpdate h (runningSnapshot_of_running hp)
  · exact samplesBounded_of_mem hb (.inl (tickEngine_mem s))
  · refine samplesBounded_of_mem (s := { tickEngine s with inbox := rest }) ?_ (mem_of_performEvent he)
    exact samplesBounded_of_mem hb (.inl (tickEngine_mem s))

end Sys2Proof.Proofs
end

/-! ### Reading and writing the registers -/

section
namespace Sys2Proof.Proofs

open Sys2Proof.Machine Sys2Proof.Laws Sys2Proof.Safety

/-! ### What a field reads after another was written -/

theorem getF64_setF64 (r r' : F64Reg) (v : Word) (p : Params) :
    getF64 r' (setF64 r v p) = if r' = r then v else getF64 r' p := by
  cases r <;> cases r' <;> rfl

theorem getU32_setU32 (r r' : U32Reg) (v : Word32) (p : Params) :
    getU32 r' (setU32 r v p) = if r' = r then v else getU32 r' p := by
  cases r <;> cases r' <;> rfl

theorem getLevel_setLevel (j k : Nat) (v : Word) (p : Params) :
    getLevel j (setLevel k v p) = if k = j ∧ j < p.oscLevels.length then v else getLevel j p := by
  simp only [getLevel, setLevel, List.getD_eq_getElem?_getD, List.getElem?_set]
  by_cases hk : k = j
  · subst hk
    by_cases hlt : k < p.oscLevels.length
    · simp [hlt]
    · simp [hlt]
  · simp [hk]

@[simp] theorem getU32_setF64 (r : F64Reg) (r' : U32Reg) (v : Word) (p : Params) :
    getU32 r' (setF64 r v p) = getU32 r' p := by
  cases r <;> cases r' <;> rfl

@[simp] theorem getF64_setU32 (r : U32Reg) (r' : F64Reg) (v : Word32) (p : Params) :
    getF64 r' (setU32 r v p) = getF64 r' p := by
  cases r <;> cases r' <;> rfl

@[simp] theorem setF64_smooth (r : F64Reg) (v : Word) (p : Params) : (setF64 r v p).smooth = p.smooth := by
  cases r <;> rfl
@[simp] theorem setF64_seed (r : F64Reg) (v : Word) (p : Params) : (setF64 r v p).seed = p.seed := by
  cases r <;> rfl
@[simp] theorem setF64_oscLevels (r : F64Reg) (v : Word) (p : Params) : (setF64 r v p).oscLevels = p.oscLevels := by
  cases r <;> rfl
@[simp] theorem setU32_smooth (r : U32Reg) (v : Word32) (p : Params) : (setU32 r v p).smooth = p.smooth := by
  cases r <;> rfl
@[simp] theorem setU32_seed (r : U32Reg) (v : Word32) (p : Params) : (setU32 r v p).seed = p.seed := by
  cases r <;> rfl
@[simp] theorem setU32_oscLevels (r : U32Reg) (v : Word32) (p : Params) : (setU32 r v p).oscLevels = p.oscLevels := by
  cases r <;> rfl

/-! ### What a register reads after a register was written -/

theorem ctrlWord_of_bits (v : Word) : ctrlWord (v.getLsbD 0) (v.getLsbD 1) = v &&& 0x3#64 := by
  apply BitVec.eq_of_getLsbD_eq
  intro j hj
  rw [ctrlWord, BitVec.getLsbD_append, BitVec.getLsbD_append, BitVec.getLsbD_and]
  rcases j with _ | _ | j
  · simp
  · simp
  · have hmask : (0x3#64).getLsbD (j + 2) = false := by
      rw [BitVec.getLsbD, show (0x3#64).toNat = 2 ^ 2 - 1 from rfl, Nat.testBit_two_pow_sub_one]
      simp
    simp [hmask]

/-- A register write leaves what every other register reads as it was (10_state.md rule R21). -/
theorem readReg_storeReg_ne {r r' : Reg} (hne : r ≠ r') (v : Word) (s : State) :
    readReg r' (storeReg r v s) = readReg r' s := by
  cases r with
  | ctrl =>
    cases r' with
    | ctrl => exact absurd rfl hne
    | u32 r' => cases r' <;> rfl
    | f64 r' => cases r' <;> rfl
    | _ => rfl
  | seed =>
    cases r' with
    | seed => exact absurd rfl hne
    | u32 r' => cases r' <;> rfl
    | f64 r' => cases r' <;> rfl
    | _ => rfl
  | u32 r =>
    cases r' with
    | u32 r' =>
      have hr : r' ≠ r := fun h => hne (h ▸ rfl)
      simp only [readReg, storeReg, storeU32, getU32_setU32, if_neg hr]
    | _ => simp [readReg, storeReg, getLevel]
  | f64 r =>
    cases r' with
    | f64 r' =>
      have hr : r' ≠ r := fun h => hne (h ▸ rfl)
      simp only [readReg, storeReg, storeF64, getF64_setF64, if_neg hr]
    | _ => simp [readReg, storeReg, getLevel]
  | oscLevel k =>
    cases r' with
    | oscLevel j =>
      have hk : k ≠ j := fun h => hne (h ▸ rfl)
      simp only [readReg, storeReg, storeLevel, getLevel_setLevel, hk, false_and, if_false]
    | u32 r' => cases r' <;> rfl
    | f64 r' => cases r' <;> rfl
    | _ => rfl
  | _ => rfl

/-- Settles O19: each setter writes its own field alone, and the registers hold no field in common. -/
theorem registerWriteThenRead : Obligations.RegisterWriteThenRead := by
  intro s v
  refine ⟨fun r => ?_, fun r => ?_, rfl, ctrlWord_of_bits v, fun k hk => ?_, fun r r' h => readReg_storeReg_ne h v s,
    fun r hr => ?_⟩
  · simp only [readReg, storeReg, storeF64, getF64_setF64, if_true]
  · simp only [readReg, storeReg, storeU32, getU32_setU32, if_true, widen_low]
  · simp only [readReg, storeReg, storeLevel, getLevel_setLevel, true_and, if_pos hk]
  · obtain rfl | rfl | rfl | rfl | rfl := hr <;> rfl

end Sys2Proof.Proofs
end

/-! ### What a host write performs -/

section
namespace Sys2Proof.Proofs

open Sys2Proof.Machine Sys2Proof.Laws Sys2Proof.Safety

theorem performEvent_write_instr {a : BusWrite} {i : Instr} (h : decode a = .instr i) (s : State) :
    performEvent (.write a) s = exec i s := by
  simp only [performEvent, h]

theorem performEvent_write_reject {a : BusWrite} {r : Reject} (h : decode a = .reject r) (s : State) :
    performEvent (.write a) s = writeRejected r a s := by
  simp only [performEvent, h]

/-! ### The selector rows -/

/-- The write of a selector register stores the code and drops the bits above it (30_encoding.md rule R92). -/
theorem storeSelector_eq (r : U32Reg) (hi code : BitVec 32) (s : State) :
    storeSelector r hi code s = { s with params := setU32 r code s.params } := by
  rw [storeSelector, storeU32, code_of_append]

/-- The write of CTRL with a pitch selector stores SMOOTH and IRQ_EN (30_encoding.md rule R93). -/
theorem storePitch_eq (smooth irqEn : Bool) (hi : BitVec 62) (s : State) :
    storePitch smooth irqEn hi s = { s with params := { s.params with smooth := smooth }, irqEn := irqEn } := by
  rw [storePitch, storeCtrl, smooth_of_ctrl, irqEn_of_ctrl]

/-- Settles O14: each row is the write of its code to its selector register. -/
theorem selectorWritesStoreTheirCode : Obligations.SelectorWritesStoreTheirCode := by
  intro hi s
  have hstore := fun r code => congrArg (Host.Outcome.next (φ := Fault) (ρ := Refusal)) (storeSelector_eq r hi code s)
  exact ⟨hstore .waveform 0#32, hstore .waveform 1#32, hstore .waveform 2#32, hstore .waveform 3#32,
    hstore .waveform 4#32, hstore .waveform 5#32, hstore .waveform 6#32, hstore .noiseType 0#32,
    hstore .noiseType 1#32, hstore .noiseType 2#32, hstore .noiseType 3#32, hstore .bitDepth 16#32,
    hstore .bitDepth 24#32⟩

/-- Settles O15: each row is the write of CTRL. -/
theorem pitchWritesStoreSmoothAndIrqEnable : Obligations.PitchWritesStoreSmoothAndIrqEnable := fun irqEn hi s =>
  ⟨congrArg _ (storePitch_eq false irqEn hi s), congrArg _ (storePitch_eq true irqEn hi s)⟩

/-! ### What a host write decodes to -/

/-- The write of a code and the bits above it is the write of the word they are the halves of. -/
theorem encodeU32_of_code {v : Word} {code : BitVec 32} (h : v.extractLsb' 0 32 = code) (off : Offset) :
    encodeU32 off (v.extractLsb' 32 32) code = ⟨off, .eight, v⟩ := by
  rw [encodeU32, ← h, append_of_halves]

theorem decodeCmd_cases (v : Word) :
    (∃ i, decodeCmd v = .instr i ∧ encode i = ⟨offCmd, .eight, v⟩) ∨ decodeCmd v = .reject .illegalCommand := by
  unfold decodeCmd
  split_ifs with h0 h1 h2 h3
  · exact .inl ⟨_, rfl, by rw [h0]; rfl⟩
  · exact .inl ⟨_, rfl, by rw [h1]; rfl⟩
  · exact .inl ⟨_, rfl, by rw [h2]; rfl⟩
  · exact .inl ⟨_, rfl, by rw [h3]; rfl⟩
  · exact .inr rfl

theorem decodeCtrl_eq (v : Word) : ∃ i, decodeCtrl v = .instr i ∧ encode i = ⟨offCtrl, .eight, v⟩ := by
  have hword := append_of_ctrl_fields v
  unfold decodeCtrl
  dsimp only
  split_ifs with hs
  · rw [hs] at hword
    exact ⟨_, rfl, by rw [encode, encodeCtrl, hword]⟩
  · rw [Bool.not_eq_true] at hs
    rw [hs] at hword
    exact ⟨_, rfl, by rw [encode, encodeCtrl, hword]⟩

theorem decodeBitDepth_cases (v : Word) :
    (∃ i, decodeBitDepth v = .instr i ∧ encode i = ⟨offBitDepth, .eight, v⟩) ∨
      decodeBitDepth v = .reject .reservedBitDepth := by
  unfold decodeBitDepth
  dsimp only
  split_ifs with h16 h24
  · exact .inl ⟨_, rfl, encodeU32_of_code h16 _⟩
  · exact .inl ⟨_, rfl, encodeU32_of_code h24 _⟩
  · exact .inr rfl

theorem decodeWaveform_cases (v : Word) :
    (∃ i, decodeWaveform v = .instr i ∧ encode i = ⟨offWaveform, .eight, v⟩) ∨
      decodeWaveform v = .reject .reservedWaveform := by
  unfold decodeWaveform
  dsimp only
  split_ifs with h0 h1 h2 h3 h4 h5 h6
  · exact .inl ⟨_, rfl, encodeU32_of_code h0 _⟩
  · exact .inl ⟨_, rfl, encodeU32_of_code h1 _⟩
  · exact .inl ⟨_, rfl, encodeU32_of_code h2 _⟩
  · exact .inl ⟨_, rfl, encodeU32_of_code h3 _⟩
  · exact .inl ⟨_, rfl, encodeU32_of_code h4 _⟩
  · exact .inl ⟨_, rfl, encodeU32_of_code h5 _⟩
  · exact .inl ⟨_, rfl, encodeU32_of_code h6 _⟩
  · exact .inr rfl

theorem decodeNoiseType_cases (v : Word) :
    (∃ i, decodeNoiseType v = .instr i ∧ encode i = ⟨offNoiseType, .eight, v⟩) ∨
      decodeNoiseType v = .reject .reservedNoiseType := by
  unfold decodeNoiseType
  dsimp only
  split_ifs with h0 h1 h2 h3
  · exact .inl ⟨_, rfl, encodeU32_of_code h0 _⟩
  · exact .inl ⟨_, rfl, encodeU32_of_code h1 _⟩
  · exact .inl ⟨_, rfl, encodeU32_of_code h2 _⟩
  · exact .inl ⟨_, rfl, encodeU32_of_code h3 _⟩
  · exact .inr rfl

/-- Everything a host write can decode to: the instruction whose write it is, or a rejection at the register that gives
it. -/
theorem decode_cases (a : BusWrite) :
    (∃ i, decode a = .instr i ∧ encode i = a) ∨
    ∃ r, decode a = .reject r ∧
      ((r = .notAdmitted ∧ regAdmitted a.off a.width = false) ∨ (r = .illegalCommand ∧ a.off = offCmd) ∨
        (r = .reservedBitDepth ∧ a.off = offBitDepth) ∨ (r = .reservedWaveform ∧ a.off = offWaveform) ∨
        (r = .reservedNoiseType ∧ a.off = offNoiseType) ∨ r = .plainRegister) := by
  by_cases ha : regAdmitted a.off a.width = true
  · obtain ⟨off, width, v⟩ := a
    obtain ⟨-, rfl, -⟩ := (regAdmitted_iff _ _).1 ha
    rw [decode, if_pos ha]
    dsimp only
    split_ifs with hcmd hctrl hbitDepth hwaveform hnoiseType
    · subst hcmd
      exact (decodeCmd_cases v).imp_right fun h => ⟨_, h, .inr (.inl ⟨rfl, rfl⟩)⟩
    · subst hctrl
      exact .inl (decodeCtrl_eq v)
    · subst hbitDepth
      exact (decodeBitDepth_cases v).imp_right fun h => ⟨_, h, .inr (.inr (.inl ⟨rfl, rfl⟩))⟩
    · subst hwaveform
      exact (decodeWaveform_cases v).imp_right fun h => ⟨_, h, .inr (.inr (.inr (.inl ⟨rfl, rfl⟩)))⟩
    · subst hnoiseType
      exact (decodeNoiseType_cases v).imp_right fun h => ⟨_, h, .inr (.inr (.inr (.inr (.inl ⟨rfl, rfl⟩))))⟩
    · exact .inr ⟨_, rfl, .inr (.inr (.inr (.inr (.inr rfl))))⟩
  · exact .inr ⟨.notAdmitted, by rw [decode, if_neg ha], .inl ⟨rfl, Bool.eq_false_iff.2 ha⟩⟩

/-- A host write that decodes to an instruction is that instruction's write. -/
theorem eq_encode_of_decode {a : BusWrite} {i : Instr} (h : decode a = .instr i) : a = encode i := by
  obtain ⟨j, hd, hj⟩ | ⟨r, hd, -⟩ := decode_cases a
  · rw [h] at hd
    cases hd
    exact hj.symm
  · rw [h] at hd
    cases hd

/-! ### Admitted writes -/

/-- A selector row performs the register write that carries it. -/
theorem exec_eq_storeReg {i : Instr} (h : (encode i).off ≠ offCmd) (m : Nat) (s : State) :
    exec i s = .next (storeReg (regAt m (encode i).off.toNat) (encode i).data s) := by
  cases i
  case nop | render | clearStatus | softReset => exact absurd rfl h
  all_goals rfl

/-- An admitted write other than a CMD write stores as the register there says, whether its code is legal or reserved
(20_memory.md rule R62). -/
theorem performEvent_write_admitted {off : Offset} {v : Word} (ha : regAdmitted off .eight = true)
    (hcmd : off ≠ offCmd) (s : State) :
    performEvent (.write ⟨off, .eight, v⟩) s = .next (storeReg (regAt s.caps.maxOsc.toNat off.toNat) v s) := by
  obtain ⟨i, hd, hi⟩ | ⟨r, hd, hr⟩ := decode_cases ⟨off, .eight, v⟩
  · rw [performEvent_write_instr hd, exec_eq_storeReg (by rwa [hi]) s.caps.maxOsc.toNat, hi]
  · rw [performEvent_write_reject hd]
    obtain ⟨-, hnot⟩ | ⟨-, hoff⟩ | ⟨rfl, rfl⟩ | ⟨rfl, rfl⟩ | ⟨rfl, rfl⟩ | rfl := hr
    · rw [ha] at hnot
      cases hnot
    · exact absurd hoff hcmd
    · rfl
    · rfl
    · rfl
    · rfl

/-- An admitted register read answers the register and changes nothing but the data returned (20_memory.md rule R63). -/
theorem performEvent_read_admitted {off : Offset} (ha : regAdmitted off .eight = true) (s : State) :
    performEvent (.read off .eight) s =
      .next { s with lastRead := some (readReg (regAt s.caps.maxOsc.toNat off.toNat) s) } := by
  simp only [performEvent, busRead, ha, if_true, answerRead]

/-! ### The register map -/

/-- The level registers stand from 0x100 on, above the named rows (10_state.md rule R35). -/
theorem regAt_oscLevel {m k : Nat} (hk : k < m) : regAt m (0x100 + 8 * k) = .oscLevel k := by
  have hnone : regTable.lookup (0x100 + 8 * k) = none := by
    rw [List.lookup_eq_none_iff]
    intro r hr
    have hlt : r.1 < 0x100 := by
      revert r
      decide
    exact bne_iff_ne.2 (by omega)
  have hindex : (0x100 + 8 * k - 0x100) / 8 = k := by omega
  rw [regAt, hnone]
  dsimp only
  rw [hindex, if_pos ⟨by omega, hk⟩]

theorem readReg_u32 (r : U32Reg) (s : State) : readReg (.u32 r) s = (getU32 r s.params).setWidth 64 :=
  (BitVec.setWidth_eq_append (by norm_num)).symm

theorem readReg_oscLevel {k : Nat} {s : State} (hk : k < s.params.oscLevels.length) :
    readReg (.oscLevel k) s = s.params.oscLevels[k] := by
  simp [readReg, getLevel, hk]

/-- Settles O18: the accesses by the register's offset, the table by evaluating its rows. -/
theorem registerAccesses : Obligations.RegisterAccesses := by
  refine ⟨fun s off v hlt haligned => ?_, fun m => ?_, fun s => ?_⟩
  · have ha : regAdmitted off .eight = true := (regAdmitted_iff _ _).2 ⟨hlt, rfl, haligned⟩
    exact ⟨fun hcmd => performEvent_write_admitted ha hcmd s, performEvent_read_admitted ha s⟩
  · exact ⟨⟨rfl, rfl, rfl, rfl, rfl, rfl⟩, ⟨rfl, rfl, rfl, rfl, rfl, rfl⟩,
      ⟨rfl, rfl, rfl, rfl, rfl, rfl, rfl, rfl, rfl⟩, ⟨rfl, rfl, rfl, rfl, rfl, rfl, rfl, rfl, rfl⟩,
      fun k hk => regAt_oscLevel hk⟩
  · exact ⟨⟨rfl, readReg_u32 _ s, readReg_u32 _ s, readReg_u32 _ s, readReg_u32 _ s, readReg_u32 _ s, readReg_u32 _ s⟩,
      ⟨rfl, rfl, rfl, rfl, rfl, rfl, rfl, rfl, rfl⟩, ⟨rfl, rfl, rfl, rfl, rfl, rfl, rfl, rfl, rfl⟩,
      fun k hk => readReg_oscLevel hk⟩

end Sys2Proof.Proofs
end

/-! ### The frame of every instruction -/

section
namespace Sys2Proof.Proofs

open Sys2Proof.Machine Sys2Proof.Laws Sys2Proof.Safety

/-- What an instruction does, by the register it is written to: a command's effect, the store of a selector register, or
that of CTRL. -/
theorem exec_cases {i : Instr} {s t : State} (h : exec i s = .next t) :
    ((encode i).off = offCmd ∧ CommandEffect i s t) ∨
    (∃ r code, ((r = .bitDepth ∧ (encode i).off = offBitDepth) ∨ (r = .waveform ∧ (encode i).off = offWaveform) ∨
        (r = .noiseType ∧ (encode i).off = offNoiseType)) ∧
      t = { s with params := setU32 r code s.params }) ∨
    ((encode i).off = offCtrl ∧
      ∃ smooth irqEn, t = { s with params := { s.params with smooth := smooth }, irqEn := irqEn }) := by
  cases i
  case nop | render | clearStatus | softReset =>
    exact .inl ⟨rfl, (exec_effect h).resolve_right fun hsel => hsel.1 rfl⟩
  case bitDepth16 | bitDepth24 =>
    cases h
    exact .inr (.inl ⟨.bitDepth, _, .inl ⟨rfl, rfl⟩, storeSelector_eq _ _ _ s⟩)
  case noiseTypeNone | noiseTypeWhite | noiseTypePink | noiseTypeBrown =>
    cases h
    exact .inr (.inl ⟨.noiseType, _, .inr (.inr ⟨rfl, rfl⟩), storeSelector_eq _ _ _ s⟩)
  case pitchStep | pitchSmooth =>
    cases h
    exact .inr (.inr ⟨rfl, _, _, storePitch_eq _ _ _ s⟩)
  all_goals
    cases h
    exact .inr (.inl ⟨.waveform, _, .inr (.inl ⟨rfl, rfl⟩), storeSelector_eq _ _ _ s⟩)

/-- A command leaves the capacities and the host port as they are. -/
theorem port_of_commandEffect {i : Instr} {s t : State} (h : CommandEffect i s t) :
    t.caps = s.caps ∧ t.inbox = s.inbox ∧ t.lastRead = s.lastRead := by
  obtain ⟨-, rfl⟩ | ⟨-, -, rfl⟩ | ⟨-, -, code, detail, -, rfl⟩ | ⟨-, -, -, rfl⟩ | ⟨-, -, rfl⟩ | ⟨-, rfl⟩ := h
  · exact ⟨rfl, rfl, rfl⟩
  · exact ⟨rfl, rfl, rfl⟩
  · exact ⟨rfl, rfl, rfl⟩
  · exact ⟨rfl, rfl, rfl⟩
  · exact ⟨rfl, rfl, rfl⟩
  · exact ⟨rfl, rfl, rfl⟩

/-- A command other than SOFT_RESET writes no register (10_state.md rule R37). -/
theorem registers_of_commandEffect {i : Instr} {s t : State} (h : CommandEffect i s t) (hi : i ≠ .softReset) :
    t.params = s.params ∧ t.irqEn = s.irqEn := by
  obtain ⟨-, rfl⟩ | ⟨-, -, rfl⟩ | ⟨-, -, code, detail, -, rfl⟩ | ⟨-, -, -, rfl⟩ | ⟨-, -, rfl⟩ | ⟨hreset, -⟩ := h
  · exact ⟨rfl, rfl⟩
  · exact ⟨rfl, rfl⟩
  · exact ⟨rfl, rfl⟩
  · exact ⟨rfl, rfl⟩
  · exact ⟨rfl, rfl⟩
  · exact absurd hreset hi

/-- A command other than RENDER and SOFT_RESET leaves the engine and the sample memory as they are. -/
theorem engine_of_commandEffect {i : Instr} {s t : State} (h : CommandEffect i s t) (hrender : i ≠ .render)
    (hi : i ≠ .softReset) : t.engine = s.engine ∧ t.mem = s.mem := by
  obtain ⟨-, rfl⟩ | ⟨-, -, rfl⟩ | ⟨-, hr, -⟩ | ⟨-, hr, -⟩ | ⟨-, -, rfl⟩ | ⟨hreset, -⟩ := h
  · exact ⟨rfl, rfl⟩
  · exact ⟨rfl, rfl⟩
  · exact absurd hr hrender
  · exact absurd hr hrender
  · exact ⟨rfl, rfl⟩
  · exact absurd hreset hi

/-- What is not written to CMD is no command. -/
theorem not_command_of_off {i : Instr} (h : (encode i).off ≠ offCmd) :
    ¬ (i = .nop ∨ i = .render ∨ i = .clearStatus) := by
  rintro (rfl | rfl | rfl) <;> exact h rfl

/-- Settles O16, by what an instruction does: a command, a selector register's write, or a write of CTRL. -/
theorem instructionFrame : Obligations.InstructionFrame := by
  intro i s t h
  obtain ⟨hoff, hc⟩ | ⟨r, code, hr, rfl⟩ | ⟨hoff, smooth, irqEn, rfl⟩ := exec_cases h
  · obtain ⟨hcaps, hinbox, hlast⟩ := port_of_commandEffect hc
    have hparams := fun hi => (registers_of_commandEffect hc hi).1
    refine ⟨hcaps, hinbox, hlast, fun hi => ?_, fun hi => ?_, fun hi _ => ?_, fun hi _ => ?_, fun hi _ => ?_,
      fun hi _ => ?_, fun hnop => ?_, fun hrender hi => ?_⟩
    · rw [hparams hi]
      exact ⟨rfl, rfl, rfl, rfl, rfl, fun _ => rfl⟩
    · exact registers_of_commandEffect hc (by obtain rfl | rfl | rfl := hi <;> simp)
    · exact ⟨by rw [hparams hi], (registers_of_commandEffect hc hi).2⟩
    · rw [hparams hi]
    · rw [hparams hi]
    · rw [hparams hi]
    · obtain rfl := hnop.resolve_left (absurd hoff)
      cases h
      rfl
    · obtain ⟨hengine, hmem⟩ := engine_of_commandEffect hc hrender hi
      exact ⟨hengine, fun a => by rw [hmem]⟩
  · have hcmd : (encode i).off ≠ offCmd := by
      obtain ⟨-, hoff⟩ | ⟨-, hoff⟩ | ⟨-, hoff⟩ := hr <;> rw [hoff] <;> decide
    refine ⟨rfl, rfl, rfl, fun _ => ?_, fun hi => absurd hi (not_command_of_off hcmd), fun _ _ => ⟨?_, rfl⟩,
      fun _ hne => ?_, fun _ hne => ?_, fun _ hne => ?_, fun _ => rfl, fun _ _ => ⟨rfl, fun _ => rfl⟩⟩
    · obtain ⟨hrate, hcount, hlevels⟩ : .sampleRate ≠ r ∧ .numOsc ≠ r ∧ .levelCount ≠ r := by
        obtain ⟨rfl, -⟩ | ⟨rfl, -⟩ | ⟨rfl, -⟩ := hr <;> simp
      simp only [getU32_setU32, hrate, hcount, hlevels, if_false, true_and]
      exact ⟨setU32_seed r code s.params, setU32_oscLevels r code s.params, fun x => getF64_setU32 r x code s.params⟩
    · exact setU32_smooth r code s.params
    · obtain ⟨rfl, hoff⟩ | ⟨rfl, -⟩ | ⟨rfl, -⟩ := hr
      · exact absurd hoff hne
      · rfl
      · rfl
    · obtain ⟨rfl, -⟩ | ⟨rfl, hoff⟩ | ⟨rfl, -⟩ := hr
      · rfl
      · exact absurd hoff hne
      · rfl
    · obtain ⟨rfl, -⟩ | ⟨rfl, -⟩ | ⟨rfl, hoff⟩ := hr
      · rfl
      · rfl
      · exact absurd hoff hne
  · have hcmd : (encode i).off ≠ offCmd := by rw [hoff]; decide
    exact ⟨rfl, rfl, rfl, fun _ => ⟨rfl, rfl, rfl, rfl, rfl, fun r => by cases r <;> rfl⟩,
      fun hi => absurd hi (not_command_of_off hcmd), fun _ hne => absurd hoff hne, fun _ _ => rfl, fun _ _ => rfl,
      fun _ _ => rfl, fun _ => rfl, fun _ _ => ⟨rfl, fun _ => rfl⟩⟩

end Sys2Proof.Proofs
end

/-! ### The register words, and the state after a reset -/

section
namespace Sys2Proof.Proofs

open Sys2Proof.Machine Sys2Proof.Laws Sys2Proof.Safety

/-- STATUS as its fields put together, at the width their sum has: the word of `statusWord`. -/
def statusFields (t : Status) : BitVec (32 + 4 + 4 + 8 + 8 + 4 + 1 + 1 + 1 + 1) :=
  t.samples ++ 0#4 ++ t.bps ++ t.errDetail ++ t.errCode ++ 0#4 ++
    BitVec.ofBool t.overrun ++ BitVec.ofBool t.err ++ BitVec.ofBool t.done ++ BitVec.ofBool t.busy

theorem statusWord_eq_fields (t : Status) : statusWord t = statusFields t := rfl

/-- The one-bit fields of STATUS (10_state.md rule R26). -/
theorem statusFields_flags (t : Status) :
    (statusFields t).getLsbD 0 = t.busy ∧ (statusFields t).getLsbD 1 = t.done ∧ (statusFields t).getLsbD 2 = t.err ∧
    (statusFields t).getLsbD 3 = t.overrun := by
  simp only [statusFields, BitVec.getLsbD_append]
  simp

/-- The wider fields of STATUS, and its bits that read 0 (10_state.md rule R26). -/
theorem statusFields_codes (t : Status) :
    (statusFields t).extractLsb' 4 4 = 0#4 ∧ (statusFields t).extractLsb' 8 8 = t.errCode ∧
    (statusFields t).extractLsb' 16 8 = t.errDetail ∧ (statusFields t).extractLsb' 24 4 = t.bps ∧
    (statusFields t).extractLsb' 28 4 = 0#4 ∧ (statusFields t).extractLsb' 32 32 = t.samples := by
  have hwhole : ∀ {w} (x : BitVec w), x.extractLsb' 0 w = x := fun _ => BitVec.extractLsb'_eq_self
  simp (disch := decide) only [statusFields, BitVec.extractLsb'_append_eq_of_le, BitVec.extractLsb'_append_eq_of_add_le]
  exact ⟨hwhole _, hwhole _, hwhole _, hwhole _, hwhole _, hwhole _⟩

/-- The fields of CAPS (10_state.md rule R23). -/
theorem capsWord_fields (c : Caps) :
    (capsWord c).extractLsb' 0 32 = c.maxSamples ∧ (capsWord c).extractLsb' 32 16 = c.maxOsc ∧
    (capsWord c).extractLsb' 48 16 = 0#16 :=
  ⟨BitVec.extractLsb'_append_eq_right (a := 0#16 ++ c.maxOsc),
    (BitVec.extractLsb'_append_eq_of_le (xhi := 0#16 ++ c.maxOsc) (xlo := c.maxSamples) (by norm_num)).trans
      BitVec.extractLsb'_append_eq_right,
    (BitVec.extractLsb'_append_eq_of_le (xhi := 0#16 ++ c.maxOsc) (xlo := c.maxSamples) (by norm_num)).trans
      BitVec.extractLsb'_append_eq_left⟩

/-- Settles O25: a field is extracted from the part of the word that holds it. -/
theorem registerWordLayouts : Obligations.RegisterWordLayouts := by
  refine ⟨fun t => ?_, fun s => ?_⟩
  · rw [statusWord_eq_fields]
    obtain ⟨hbusy, hdone, herr, hoverrun⟩ := statusFields_flags t
    exact ⟨hbusy, hdone, herr, hoverrun, statusFields_codes t⟩
  · obtain ⟨hsamples, hosc, hzero⟩ := capsWord_fields s.caps
    exact ⟨rfl, rfl, hsamples, hosc, hzero, smooth_of_ctrl s.irqEn s.params.smooth 0#62,
      irqEn_of_ctrl s.irqEn s.params.smooth 0#62, ignored_of_ctrl s.irqEn s.params.smooth 0#62, rfl⟩

/-- Settles O26: by the definition of the level, and since a reset clears IRQ_EN. -/
theorem irqIsALevel : Obligations.IrqIsALevel :=
  ⟨fun s => by rw [irq, Bool.and_eq_true, Bool.or_eq_true], rfl, fun _ => rfl⟩

/-- After a reset an integer register reads its reset value, widened. -/
theorem readReg_u32_resetBlock (r : U32Reg) (s : State) :
    readReg (.u32 r) (resetBlock s) = (getU32 r (Params.reset 0)).setWidth 64 :=
  (readReg_u32 r _).trans (by cases r <;> rfl)

/-- A reset gives every named register its reset word (10_state.md rule R48). -/
theorem readReg_resetBlock (s : State) (m : Nat) :
    ∀ r ∈ resetWords, readReg (regAt m r.1) (resetBlock s) = r.2 := by
  have hctrl : ctrlWord true false = 0x1#64 := by decide
  have hstatus : statusWord Status.reset = 0x0#64 := by decide
  have hu32 := fun r => readReg_u32_resetBlock r s
  simp only [resetWords, List.cons_append, List.nil_append, List.forall_mem_cons]
  exact ⟨hctrl, hstatus, rfl, (hu32 .sampleRate).trans (by decide), (hu32 .bitDepth).trans (by decide),
    (hu32 .waveform).trans (by decide), (hu32 .noiseType).trans (by decide), (hu32 .numOsc).trans (by decide),
    (hu32 .levelCount).trans (by decide), rfl, rfl, rfl, rfl, rfl, rfl, rfl, rfl, rfl, rfl, rfl, rfl, rfl, rfl, rfl,
    rfl, rfl, rfl, by simp⟩

/-- A reset sets OSC_LEVEL[0] to 1.0 and the other levels to 0.0 (10_state.md rule R35). -/
theorem readReg_oscLevel_resetBlock (s : State) {k : Nat} (hk : k < s.caps.maxOsc.toNat) :
    readReg (.oscLevel k) (resetBlock s) = if k = 0 then 0x3FF0000000000000#64 else 0x0000000000000000#64 := by
  simp [readReg, getLevel, Params.reset, resetLevels, hk]

/-- Settles O10: both are `resetBlock`. -/
theorem softResetRestoresEveryRegister : Obligations.SoftResetRestoresEveryRegister := fun s =>
  ⟨resetBlock s, rfl, rfl, readReg_resetBlock s _, fun _ hk => readReg_oscLevel_resetBlock s hk, rfl, rfl,
    fun _ => rfl, fun _ => rfl, rfl, rfl, rfl⟩

theorem resetBlock_reset : resetBlock State.reset = State.reset := rfl

/-- Settles O11: the reset state is what a reset of it gives. -/
theorem resetStateReadsResetWords : Obligations.ResetStateReadsResetWords := by
  rw [Obligations.ResetStateReadsResetWords, ← resetBlock_reset]
  refine ⟨readReg_resetBlock _ _, readReg_oscLevel_resetBlock _ (by decide), fun k hk hlt => ?_, rfl, rfl, rfl, rfl,
    fun _ => rfl⟩
  rw [readReg_oscLevel_resetBlock _ (show k < Caps.default.maxOsc.toNat from hlt), if_neg (by omega)]

theorem legalCaps_default : LegalCaps Caps.default := by
  unfold LegalCaps
  decide

/-- The reset state meets the invariant of the block. -/
theorem inv_reset : Inv State.reset where
  capsLegal := legalCaps_default
  levelsMatch := ⟨by simp [State.reset, Params.reset, resetLevels], by rintro p ⟨⟩⟩
  busyMatches := rfl
  runningLegal := runningLegal_of_none rfl
  memCanonical := rfl
  definedEntries := .inl rfl
  doneMeansHeld := by rintro ⟨⟩
  bpsLegal := .inr (.inr ⟨rfl, rfl, rfl⟩)
  errorRecordLegal := ⟨fun _ => ⟨rfl, rfl⟩, by rintro ⟨⟩⟩

/-- Settles O59: after a reset no sample entry is defined. -/
theorem resetMeetsTheInvariants : Obligations.ResetMeetsTheInvariants :=
  ⟨inv_reset, by rintro i w ⟨⟩, rfl⟩

end Sys2Proof.Proofs
end

/-! ### What a step does to the running render, to OVERRUN and to the registers -/

section
namespace Sys2Proof.Proofs

open Sys2Proof.Machine Sys2Proof.Laws Sys2Proof.Safety

theorem step_of_due {s : State} {p : Params} (h : s.engine = .running p 0) : step s = .next (engineUpdate p s) := by
  simp only [step, engineDue_eq_some.2 h]

theorem engineUpdate_of_render {s : State} {p : Params} {ws : List (BitVec 32)}
    (h : render (numericsOf s.caps).ops p = some ws) : engineUpdate p s = complete ws s := by
  simp only [engineUpdate, h]

/-- Settles O51: the update is the completion, whose memory holds the words in order. -/
theorem engineCompletesTheRender : Obligations.EngineCompletesTheRender := by
  intro s p ws hs hr
  refine ⟨complete ws s, ?_, readSample_memOfSamples ws, rfl, rfl, rfl, rfl, rfl, rfl, rfl⟩
  rw [step_of_due hs, engineUpdate_of_render hr]

/-- Settles O54: while BUSY = 1 no RENDER is accepted, and no other command but a reset touches the engine. -/
theorem runningSnapshotIsIsolated : Obligations.RunningSnapshotIsIsolated := by
  intro s t e hbusy he hreset hsoft
  have hidle : s.status.busy ≠ false := by simp [hbusy]
  obtain ⟨a, rfl, -, ⟨i, hd, hc⟩ | ⟨-, rfl⟩ | ⟨-, detail, rfl⟩ | ⟨r, v, rfl⟩⟩ | ⟨off, width, v, c, -, rfl⟩ | ⟨rfl, -⟩ :=
    performEvent_effect he
  · obtain ⟨-, rfl⟩ | ⟨-, -, rfl⟩ | ⟨hb, -⟩ | ⟨hb, -⟩ | ⟨hb, -⟩ | ⟨rfl, -⟩ := hc
    · rfl
    · rfl
    · exact absurd hb hidle
    · exact absurd hb hidle
    · exact absurd hb hidle
    · exact absurd (congrArg BusEvent.write (eq_encode_of_decode hd)) hsoft
  · rfl
  · rfl
  · exact storeReg_engine r v s
  · rfl
  · exact absurd rfl hreset

/-- Only CLEAR_STATUS while idle and SOFT_RESET clear OVERRUN, of the commands. -/
theorem overrun_of_commandEffect {i : Instr} {s t : State} (h : CommandEffect i s t) (ho : s.status.overrun = true) :
    t.status.overrun = true ∨ i = .softReset ∨ (i = .clearStatus ∧ s.status.busy = false) := by
  obtain ⟨-, rfl⟩ | ⟨-, -, rfl⟩ | ⟨-, -, code, detail, -, rfl⟩ | ⟨-, -, -, rfl⟩ | ⟨hb, hi, -⟩ | ⟨hi, -⟩ := h
  · exact .inl ho
  · exact .inl rfl
  · exact .inl ho
  · exact .inl ho
  · exact .inr (.inr ⟨hi, hb⟩)
  · exact .inr (.inl hi)

/-- Of the host's interactions, those two and the reset input. -/
theorem overrun_of_performEvent {e : BusEvent} {s t : State} (h : performEvent e s = .next t)
    (ho : s.status.overrun = true) :
    t.status.overrun = true ∨ e = .reset ∨ e = .write (encode .softReset) ∨
      (e = .write (encode .clearStatus) ∧ s.status.busy = false) := by
  obtain ⟨a, rfl, -, ⟨i, hd, hc⟩ | ⟨-, rfl⟩ | ⟨-, detail, rfl⟩ | ⟨r, v, rfl⟩⟩ | ⟨off, width, v, c, -, rfl⟩ | ⟨rfl, -⟩ :=
    performEvent_effect h
  · obtain ht | rfl | ⟨rfl, hb⟩ := overrun_of_commandEffect hc ho
    · exact .inl ht
    · exact .inr (.inr (.inl (congrArg _ (eq_encode_of_decode hd))))
    · exact .inr (.inr (.inr ⟨congrArg _ (eq_encode_of_decode hd), hb⟩))
  · exact .inl rfl
  · exact .inl ho
  · exact .inl (by rwa [storeReg_status])
  · exact .inl ho
  · exact .inr (.inl rfl)

@[simp] theorem engineUpdate_overrun (p : Params) (s : State) :
    (engineUpdate p s).status.overrun = s.status.overrun := by
  unfold engineUpdate
  split <;> rfl

@[simp] theorem engineUpdate_params (p : Params) (s : State) : (engineUpdate p s).params = s.params := by
  unfold engineUpdate
  split <;> rfl

@[simp] theorem engineUpdate_irqEn (p : Params) (s : State) : (engineUpdate p s).irqEn = s.irqEn := by
  unfold engineUpdate
  split <;> rfl

/-- Settles O55: the engine's update and the passing of a step keep OVERRUN, so an access cleared it. -/
theorem overrunIsSticky : Obligations.OverrunIsSticky := by
  intro s t hst ho
  obtain ⟨p, -, rfl⟩ | ⟨-, -, rfl⟩ | ⟨e, rest, hdue, hinbox, he⟩ := step_effect hst
  · exact .inl (by rwa [engineUpdate_overrun])
  · exact .inl (by rwa [tickEngine_status])
  · have hstatus : ({ tickEngine s with inbox := rest } : State).status = s.status := tickEngine_status s
    have hclear := overrun_of_performEvent he (by rwa [hstatus])
    rw [hstatus] at hclear
    exact hclear.imp_right fun hclear => ⟨e, rest, hdue, hinbox, he, hclear⟩

/-- A host interaction that changes a register is an admitted write or the reset input (10_state.md rule R37). -/
theorem register_change_of_performEvent {e : BusEvent} {s t : State} (h : performEvent e s = .next t)
    (hne : t.params ≠ s.params ∨ t.irqEn ≠ s.irqEn) :
    e = .reset ∨ ∃ a, e = .write a ∧ regAdmitted a.off a.width = true := by
  obtain ⟨a, he, ha, -⟩ | ⟨off, width, v, c, -, rfl⟩ | ⟨he, -⟩ := performEvent_effect h
  · exact .inr ⟨a, he, ha⟩
  · simp at hne
  · exact .inl he

/-- Settles O56: the engine's update and the passing of a step leave the registers, so an access changed one. -/
theorem onlyTheHostWritesRegisters : Obligations.OnlyTheHostWritesRegisters := by
  intro s t hst hne
  obtain ⟨p, -, rfl⟩ | ⟨-, -, rfl⟩ | ⟨e, rest, hdue, hinbox, he⟩ := step_effect hst
  · simp at hne
  · simp at hne
  · refine ⟨e, rest, hdue, hinbox, he, register_change_of_performEvent he ?_⟩
    simpa using hne

end Sys2Proof.Proofs
end

/-! ### Validation written out, and the registers a render does not read -/

section
namespace Sys2Proof.Proofs

open Sys2Proof.Machine Sys2Proof.Laws Sys2Proof.Safety

/-- Check 17 asks every level the block has of the oscillators to be finite (60_exceptions.md rule R302). -/
theorem checkedLevels_finite_iff {Num : Type} (nx : Numerics Num) (c : Caps) (p : Params) :
    (∀ x ∈ checkedLevels nx c p, nx.isFinite x = true) ↔
      ∀ k, k < p.numOsc.toNat → k < c.maxOsc.toNat → nx.isFinite (nx.asF64 (getLevel k p)) = true := by
  simp only [checkedLevels, List.forall_mem_map, List.mem_range, lt_min_iff, and_imp, asU32]

/-- Settles O28: the list of checks, each written out. -/
theorem validSnapshotsFitTheBlock : Obligations.ValidSnapshotsFitTheBlock := by
  intro c p
  refine ⟨validateIn_iff.trans ?_, sampleCount_le⟩
  simp only [checkedLevels_finite_iff, finitePositive, finiteNonneg, inUnit, Bool.and_eq_true]
  exact Iff.rfl

/-! ### Noninterference -/

section Agree

variable {Num : Type} (nx : Numerics Num) {p q : Params}

theorem oscStage_congr {n i : Nat} {d : Dsp Num} (hsample : ∀ i d, oscSample nx p i d = oscSample nx q i d)
    (hscale : quantScale nx p = quantScale nx q) : oscStage nx p n i d = oscStage nx q n i d := by
  induction n generalizing i d with
  | zero => rfl
  | succ n ih => simp only [oscStage, hsample, hscale, ih]

theorem noiseStage_congr {i : Nat} {w : List Num} {d : Dsp Num}
    (hmix : ∀ x i d, noiseMix nx p x i d = noiseMix nx q x i d) : noiseStage nx p i w d = noiseStage nx q i w d := by
  induction w generalizing i d with
  | nil => rfl
  | cons x w ih => simp only [noiseStage, hmix, ih]

theorem oscStack_congr {f e t : Num} {i : Nat} {levels : List Num} {d : Dsp Num} {total : Num}
    (hwaveform : p.waveform = q.waveform) (hdrive : p.drive = q.drive) :
    oscStack nx p f e t i levels d total = oscStack nx q f e t i levels d total := by
  induction levels generalizing d total with
  | nil => rfl
  | cons level levels ih => simp only [oscStack, hwaveform, hdrive, ih]

/-- The stack reads the levels of the oscillators it has. -/
theorem stackLevels_congr (hcount : p.numOsc = q.numOsc)
    (hlevel : ∀ k, k < p.numOsc.toNat → getLevel k p = getLevel k q) : stackLevels nx p = stackLevels nx q := by
  rw [stackLevels, stackLevels, ← hcount]
  refine List.map_congr_left fun k hk => ?_
  rw [hlevel k (List.mem_range.1 hk)]

end Agree

/-- Settles O48: each stage reads its operands from the fields the snapshots agree on. -/
theorem unreadRegistersNeverMatter : Obligations.UnreadRegistersNeverMatter := by
  intro Num nx p q h
  obtain ⟨hsmooth, hseed, hrate, hdepth, hwaveform, hnoiseType, hcount, hstart, hend, hduration, hattack, hdecay,
    hsustain, hrelease, hdrive, hsweep, hnoise, hsaturator, hband0, hband1, hband2, hfade, hlevel⟩ := h
  have htime : ∀ i, sampleTime nx p i = sampleTime nx q i := fun i => by
    rw [sampleTime, sampleTime, rateNum, rateNum, hrate]
  have hsample : ∀ i d, oscSample nx p i d = oscSample nx q i d := by
    intro i d
    have hpitch : ∀ t, pitch nx p t = pitch nx q t := fun t => by
      simp only [pitch, pitchSmooth, pitchStep, hsmooth, hstart, hend, hduration, hsweep]
    have henv : ∀ t, env nx p t = env nx q t := fun t => by
      rw [env, env, hattack, hdecay, hsustain, hrelease, hduration]
    simp only [oscSample, htime, hpitch, henv, stackLevels_congr nx hcount hlevel]
    exact oscStack_congr nx hwaveform hdrive
  have hosc : ∀ n, oscStage nx p n 0 (dspStart nx p) = oscStage nx q n 0 (dspStart nx q) := fun n => by
    rw [oscStage_congr nx hsample (by rw [quantScale, quantScale, hdepth]), dspStart, dspStart, hseed]
  have hpost : ∀ n w d, postChain nx p n w d = postChain nx q n w d := by
    intro n w d
    have hgain : ∀ x t, bandGain nx p x t = bandGain nx q x t := fun x t => by
      rw [bandGain, bandGain, bandGainOf, bandGainOf, hband0, hband1, hband2]
    have hmixed : ∀ w, (if p.noiseType = 0#32 then w else noiseStage nx p 0 w d) =
        if q.noiseType = 0#32 then w else noiseStage nx q 0 w d := by
      intro w
      rw [← hnoiseType]
      split
      next => rfl
      next h0 =>
        refine noiseStage_congr nx fun x i d => ?_
        rw [noiseMix, noiseMix, noiseScale, noiseScale, hnoiseType, hnoise h0, hdepth]
    have hlength : fadeLength nx p n = fadeLength nx q n := by
      rw [fadeLength, fadeLength, rateNum, rateNum, hfade, hrate]
    rw [postChain, postChain, hmixed, hlength, hfade, hsaturator]
    simp only [hgain, htime]
  have hn : sampleCount nx p = sampleCount nx q := by
    rw [sampleCount, sampleCount, sampleSpan, sampleSpan, rateNum, rateNum, hrate, hduration]
  rw [render, render, renderBuffer, renderBuffer, hn, hosc]
  simp only [hpost]

end Sys2Proof.Proofs
end

/-! ### A step performs the host access at the head of the port -/

section
namespace Sys2Proof.Proofs

open Sys2Proof.Machine Sys2Proof.Laws

theorem step_of_empty {s : State} (hdue : engineDue s = none) (hin : s.inbox = []) :
    step s = .next (tickEngine s) := by
  simp only [step, hdue, hin]

theorem step_of_event {s : State} {e : BusEvent} {rest : List BusEvent} (hdue : engineDue s = none)
    (hin : s.inbox = e :: rest) : step s = performEvent e { (tickEngine s) with inbox := rest } := by
  simp only [step, hdue, hin]

/-- Settles O4: the step performs the access, and an access that decodes to an instruction is that instruction. -/
theorem stepRunsDecodedInstruction : Obligations.StepRunsDecodedInstruction := fun _ _ _ _ hdue hin hd =>
  (step_of_event hdue hin).trans (performEvent_write_instr hd _)

/-- Settles O5: by what stands at the head of the port when no update is due. -/
theorem stepFollowsTheTotalOrder : Obligations.StepFollowsTheTotalOrder :=
  ⟨fun _ _ => step_of_due, fun _ => step_of_empty, fun _ _ => step_of_event, fun _ _ _ _ => step_of_event,
    fun _ _ _ _ hdue hin hd => (step_of_event hdue hin).trans (performEvent_write_reject hd _),
    fun _ _ _ => step_of_event⟩

end Sys2Proof.Proofs
end

/-! ### Which host accesses answer -/

section
namespace Sys2Proof.Proofs

open Sys2Proof.Machine Sys2Proof.Laws Sys2Proof.Safety

/-- Every instruction answers a next state. -/
theorem exec_answers (i : Instr) (s : State) : ∃ t, exec i s = .next t := by
  cases i with
  | render =>
    simp only [exec, execRender]
    split
    · exact ⟨_, rfl⟩
    · split <;> exact ⟨_, rfl⟩
  | clearStatus =>
    simp only [exec, execClearStatus]
    split <;> exact ⟨_, rfl⟩
  | _ => exact ⟨_, rfl⟩

/-- Of the rejections only that of an access that is not admitted is a fault (20_memory.md rules R62, R65, R66). -/
theorem writeRejected_answers {r : Reject} (h : r ≠ .notAdmitted) (a : BusWrite) (s : State) :
    ∃ t, writeRejected r a s = .next t := by
  cases r with
  | notAdmitted => exact absurd rfl h
  | _ => exact ⟨_, rfl⟩

theorem performEvent_write_answers {a : BusWrite} (ha : regAdmitted a.off a.width = true) (s : State) :
    ∃ t, performEvent (.write a) s = .next t := by
  obtain ⟨i, hd, -⟩ | ⟨r, hd, hr⟩ := decode_cases a
  · rw [performEvent_write_instr hd]
    exact exec_answers i s
  · rw [performEvent_write_reject hd]
    refine writeRejected_answers ?_ a s
    rintro rfl
    simp [ha] at hr

theorem performEvent_write_fault {a : BusWrite} (ha : ¬ regAdmitted a.off a.width = true) (s : State) :
    performEvent (.write a) s = .fault (.busFault a.off a.width .write) :=
  performEvent_write_reject (by rw [decode, if_neg ha]) s

/-- The base of the PCM window is a multiple of every width, so a position is aligned as its offset is. -/
theorem pcm_aligned_iff {o : Nat} (h : 0x800000 ≤ o) (width : Width) :
    (o - 0x800000) % width.bytes = 0 ↔ o % width.bytes = 0 := by
  cases width <;> simp only [Width.bytes] <;> omega

/-- The conditions under which a read answers, window by window, are those of rules R64, R67 and R68. -/
theorem readAdmitted_iff (s : State) (off : Offset) (width : Width) :
    ReadAdmitted s off width ↔
      regAdmitted off width = true ∨
      (sampleBase ≤ off.toNat ∧ off.toNat < sampleBase + 4 * s.caps.maxSamples.toNat ∧ off.toNat % 4 = 0 ∧
        width = .four) ∨
      (pcmBase ≤ off.toNat ∧ (off.toNat - pcmBase) + width.bytes ≤ 3 * s.caps.maxSamples.toNat ∧
        (off.toNat - pcmBase) % width.bytes = 0) := by
  simp only [ReadAdmitted, regAdmitted_iff, sampleBase, pcmBase]
  refine or_congr_right (or_congr ?_ (and_congr_right fun h => ?_))
  · rw [and_comm (a := width = .four)]
  · rw [pcm_aligned_iff h]

theorem busRead_answers {s : State} {off : Offset} {width : Width} (h : ReadAdmitted s off width) :
    ∃ t, busRead off width s = .next t := by
  rw [readAdmitted_iff] at h
  simp only [busRead]
  split_ifs with hreg hsample hpcm
  · exact ⟨_, rfl⟩
  · exact ⟨_, rfl⟩
  · exact ⟨_, rfl⟩
  · exact absurd h (not_or.2 ⟨hreg, not_or.2 ⟨hsample, hpcm⟩⟩)

theorem busRead_fault {s : State} {off : Offset} {width : Width} (h : ¬ ReadAdmitted s off width) :
    busRead off width s = .fault (.busFault off width .read) := by
  rw [readAdmitted_iff, not_or, not_or] at h
  obtain ⟨hreg, hsample, hpcm⟩ := h
  simp only [busRead]
  rw [if_neg hreg, if_neg hsample, if_neg hpcm]

/-- Settles O17: a read by the window that admits it, a write by what it decodes to. -/
theorem accessesFaultExactlyWhenNotAdmitted : Obligations.AccessesFaultExactlyWhenNotAdmitted := by
  refine ⟨fun s off width => ⟨busRead_answers, busRead_fault⟩, fun s a => ?_⟩
  rw [← regAdmitted_iff]
  exact ⟨fun ha => performEvent_write_answers ha s, fun ha => performEvent_write_fault ha s⟩

/-- Settles O21: by what a read that answers can do. -/
theorem readsHaveNoSideEffect : Obligations.ReadsHaveNoSideEffect := by
  intro s t off width h
  obtain ⟨v, c, rfl⟩ := busRead_effect h
  rfl

/-! ### Reserved offsets -/

/-- No named row of the register table stands at 0x0F0 or above. -/
theorem regTable_lookup_of_ge {o : Nat} (h : 0x0F0 ≤ o) : regTable.lookup o = none := by
  rw [List.lookup_eq_none_iff]
  intro r hr
  have hlt : r.1 < 0x0F0 := by
    revert r
    decide
  exact bne_iff_ne.2 (by omega)

/-- Above the named rows, what is no level register is reserved (20_memory.md rule R65). -/
theorem regAt_reserved {m o : Nat} (h : 0x0F0 ≤ o) (hlevel : ¬ (0x100 ≤ o ∧ (o - 0x100) / 8 < m)) :
    regAt m o = .reserved := by
  rw [regAt, regTable_lookup_of_ge h]
  exact if_neg hlevel

/-- Settles O20: these offsets are admitted, and the register there is reserved. -/
theorem reservedOffsetsReadZero : Obligations.ReservedOffsetsReadZero := by
  intro s off v h
  obtain ⟨hlow, hhigh, haligned, hlevel⟩ : 0x0F0 ≤ off.toNat ∧ off.toNat < 0x1000 ∧ off.toNat % 8 = 0 ∧
      ¬ (0x100 ≤ off.toNat ∧ (off.toNat - 0x100) / 8 < s.caps.maxOsc.toNat) := by
    obtain h | h | ⟨k, hk, hmax, h⟩ := h <;> omega
  have ha : regAdmitted off .eight = true := (regAdmitted_iff _ _).2 ⟨hhigh, rfl, haligned⟩
  have hcmd : off ≠ offCmd := by
    rintro rfl
    exact absurd hlow (by decide)
  rw [performEvent_read_admitted ha, performEvent_write_admitted ha hcmd, regAt_reserved hlow hlevel]
  exact ⟨rfl, rfl⟩

end Sys2Proof.Proofs
end

/-! ### What a sample read and a PCM read answer -/

section
namespace Sys2Proof.Proofs

open Sys2Proof.Machine Sys2Proof.Laws Sys2Proof.Safety

/-- The SAMPLE and PCM windows lie above the register window. -/
theorem not_regAdmitted_of_ge {off : Offset} (h : 0x1000 ≤ off.toNat) (width : Width) :
    ¬ regAdmitted off width = true := fun ha => absurd ((regAdmitted_iff _ _).1 ha).1 (by omega)

/-- A 4-byte read of the entry at an offset of the SAMPLE window is a sample read (20_memory.md rule R67). -/
theorem performEvent_read_sample {s : State} {off : Offset} {i : Nat} (hi : i < s.caps.maxSamples.toNat)
    (hoff : off.toNat = 0x400000 + 4 * i) : performEvent (.read off .four) s = .next (readSampleWindow i s) := by
  obtain ⟨hlow, hhigh, haligned, hindex⟩ : sampleBase ≤ off.toNat ∧
      off.toNat < sampleBase + 4 * s.caps.maxSamples.toNat ∧ off.toNat % 4 = 0 ∧ (off.toNat - sampleBase) / 4 = i := by
    simp only [sampleBase]
    omega
  simp only [performEvent, busRead]
  rw [if_neg (not_regAdmitted_of_ge (by omega) _), if_pos ⟨hlow, hhigh, haligned, trivial⟩, hindex]

/-- A sample read of a defined entry while idle (46_pcm_output.md rule R260). -/
theorem readSampleWindow_defined {s : State} {i : Nat} {w : BitVec 32} (hbusy : s.status.busy = false)
    (hw : readSample s.mem i = some w) : readSampleWindow i s = answerRead (w.setWidth 64) s := by
  simp [readSampleWindow, hbusy, hw]

/-- A sample read while busy, or of an unspecified entry (46_pcm_output.md rule R260). -/
theorem readSampleWindow_unspecified {s : State} {i : Nat} (h : s.status.busy = true ∨ readSample s.mem i = none) :
    readSampleWindow i s =
      answerRead (((Config.draw s.freeCount).setWidth 32).setWidth 64) { s with freeCount := s.freeCount + 1 } := by
  have hnone : (if s.status.busy then none else readSample s.mem i) = none := by
    obtain h | h := h <;> simp [h]
  simp only [readSampleWindow, hnone, takeDraw]

/-- Settles O22: such a read is a sample read, of a defined entry or of an unspecified one. -/
theorem sampleReads : Obligations.SampleReads := by
  intro s off i hi hoff
  rw [performEvent_read_sample hi hoff]
  exact ⟨fun _ hbusy hw => congrArg _ (readSampleWindow_defined hbusy hw),
    fun h => congrArg _ (readSampleWindow_unspecified h)⟩

/-! ### The draws and the bytes of a PCM read -/

/-- How many of the k bytes from position j on are unspecified, and so take a draw each. -/
def drawsBefore (s : State) (j k : Nat) : Nat := (List.range k).countP fun m => (pcmByte (j + m) s).isNone

/-- The byte at position j, or the low byte of draw number c where it is unspecified. -/
def pcmByteOrDraw (s : State) (j c : Nat) : Byte := (pcmByte j s).getD ((Config.draw c).extractLsb' 0 8)

/-- The draws for the first byte come before those for the rest. -/
theorem drawsBefore_succ (s : State) (j k : Nat) :
    drawsBefore s j (k + 1) = drawsBefore s j 1 + drawsBefore s (j + 1) k := by
  have hcomp : (fun m => (pcmByte (j + m) s).isNone) ∘ Nat.succ = fun m => (pcmByte (j + 1 + m) s).isNone := by
    funext m
    rw [Function.comp_apply, Nat.succ_eq_add_one, Nat.add_assoc, Nat.add_comm 1]
  rw [drawsBefore, List.range_succ_eq_map, List.countP_cons, List.countP_map, hcomp, Nat.add_comm]
  simp [drawsBefore, List.range_one]

/-- The state after n draws. -/
def afterDraws (n : Nat) (s : State) : State := { s with freeCount := s.freeCount + n }

@[simp] theorem afterDraws_freeCount (n : Nat) (s : State) : (afterDraws n s).freeCount = s.freeCount + n := rfl

@[simp] theorem afterDraws_afterDraws (m n : Nat) (s : State) :
    afterDraws n (afterDraws m s) = afterDraws (m + n) s := by
  rw [afterDraws, afterDraws, afterDraws, Nat.add_assoc]

/-- Which bytes are unspecified does not depend on the draws taken. -/
@[simp] theorem drawsBefore_afterDraws (n : Nat) (s : State) (j k : Nat) :
    drawsBefore (afterDraws n s) j k = drawsBefore s j k := rfl

@[simp] theorem pcmByteOrDraw_afterDraws (n : Nat) (s : State) (j c : Nat) :
    pcmByteOrDraw (afterDraws n s) j c = pcmByteOrDraw s j c := rfl

theorem takePcmByte_eq (j : Nat) (s : State) :
    takePcmByte j s = (pcmByteOrDraw s j s.freeCount, afterDraws (drawsBefore s j 1) s) := by
  cases h : pcmByte j s with
  | some b => simp [takePcmByte, pcmByteOrDraw, drawsBefore, afterDraws, h]
  | none =>
    have hlow : (Config.draw s.freeCount).setWidth 8 = (Config.draw s.freeCount).extractLsb' 0 8 :=
      BitVec.setWidth_eq_extractLsb' (by norm_num)
    simp [takePcmByte, takeDraw, pcmByteOrDraw, drawsBefore, afterDraws, h, hlow]

/-- The word of a PCM read of n + 1 bytes: that of the bytes above, over the first byte. -/
theorem takePcmBytes_succ (n j : Nat) (s : State) :
    takePcmBytes (n + 1) j s =
      let r := takePcmBytes n (j + 1) (afterDraws (drawsBefore s j 1) s)
      ((r.1 <<< 8) ||| (pcmByteOrDraw s j s.freeCount).setWidth 64, r.2) := by
  simp only [takePcmBytes, takePcmByte_eq]

/-- A PCM read takes one draw per unspecified byte and changes nothing else (20_memory.md rules R71, R72). -/
theorem takePcmBytes_snd (n j : Nat) (s : State) :
    (takePcmBytes n j s).2 = afterDraws (drawsBefore s j n) s := by
  induction n generalizing j s with
  | zero => rfl
  | succ n ih => rw [takePcmBytes_succ, ih, drawsBefore_afterDraws, afterDraws_afterDraws, ← drawsBefore_succ]

/-- A word moved up by a byte, with a byte put below it, has that byte as its lowest. -/
theorem lowByte_of_shift (hi : Word) (b : Byte) : ((hi <<< 8) ||| b.setWidth 64).extractLsb' 0 8 = b := by
  apply BitVec.eq_of_getLsbD_eq
  intro i hlt
  have hword : i < 64 := by omega
  simp [hlt, hword]

/-- Its other bytes are those of the word moved up. -/
theorem byte_succ_of_shift (hi : Word) (b : Byte) {k : Nat} (hk : k + 1 < 8) :
    ((hi <<< 8) ||| b.setWidth 64).extractLsb' (8 * (k + 1)) 8 = hi.extractLsb' (8 * k) 8 := by
  apply BitVec.eq_of_getLsbD_eq
  intro i hlt
  have hpos : 8 * (k + 1) + i - 8 = 8 * k + i := by omega
  have hword : 8 * (k + 1) + i < 64 := by omega
  have habove : ¬ 8 * (k + 1) + i < 8 := by omega
  have hbyte : b.getLsbD (8 * (k + 1) + i) = false := BitVec.getLsbD_of_ge _ _ (by omega)
  simp only [BitVec.getLsbD_extractLsb', BitVec.getLsbD_or, BitVec.getLsbD_shiftLeft, BitVec.getLsbD_setWidth, hlt,
    hpos, hword, habove, hbyte, decide_true, decide_false, Bool.true_and, Bool.not_false, Bool.and_false, Bool.or_false]

/-- A word of n bytes, moved up by a byte with a byte put below it, has n + 1 bytes. -/
theorem toNat_shift_lt {hi : Word} {n : Nat} (h : hi.toNat < 2 ^ (8 * n)) (b : Byte) :
    ((hi <<< 8) ||| b.setWidth 64).toNat < 2 ^ (8 * (n + 1)) := by
  have hpow : 2 ^ (8 * (n + 1)) = 2 ^ (8 * n) * 2 ^ 8 := by rw [← pow_add, Nat.mul_succ]
  have hpos : 0 < 2 ^ (8 * n) := by positivity
  have hb := b.isLt
  rw [BitVec.toNat_or]
  apply Nat.or_lt_two_pow
  · calc (hi <<< 8).toNat ≤ hi.toNat * 2 ^ 8 := by
          rw [BitVec.toNat_shiftLeft, Nat.shiftLeft_eq]
          exact Nat.mod_le _ _
      _ < 2 ^ (8 * (n + 1)) := by rw [hpow]; omega
  · rw [BitVec.toNat_setWidth_of_le (by norm_num), hpow]
    omega

/-- A PCM read of n bytes has nothing above them (20_memory.md rule R69). -/
theorem takePcmBytes_lt (n j : Nat) (s : State) : (takePcmBytes n j s).1.toNat < 2 ^ (8 * n) := by
  induction n generalizing j s with
  | zero => exact Nat.one_pos
  | succ n ih =>
    rw [takePcmBytes_succ]
    exact toNat_shift_lt (ih _ _) _

/-- A PCM read is little-endian, its draws taken in increasing position (20_memory.md rule R69, 46_pcm_output.md rule
R263). -/
theorem takePcmBytes_byte {n k : Nat} (hn : n ≤ 8) (hk : k < n) (j : Nat) (s : State) :
    (takePcmBytes n j s).1.extractLsb' (8 * k) 8 = pcmByteOrDraw s (j + k) (s.freeCount + drawsBefore s j k) := by
  induction n generalizing j k s with
  | zero => omega
  | succ n ih =>
    rw [takePcmBytes_succ]
    cases k with
    | zero => exact lowByte_of_shift _ _
    | succ k =>
      rw [byte_succ_of_shift _ _ (by omega), ih (by omega) (by omega), pcmByteOrDraw_afterDraws, afterDraws_freeCount,
        drawsBefore_afterDraws, Nat.add_assoc s.freeCount, ← drawsBefore_succ, Nat.add_right_comm]
      rfl

theorem readPcmWindow_eq (j n : Nat) (s : State) :
    readPcmWindow j n s = answerRead (takePcmBytes n j s).1 (afterDraws (drawsBefore s j n) s) := by
  simp only [readPcmWindow, takePcmBytes_snd]

theorem bytes_le_eight (width : Width) : width.bytes ≤ 8 := by
  cases width <;> decide

/-- An aligned read in the PCM window is a PCM read, where the SAMPLE window ends below (20_memory.md rule R68). -/
theorem performEvent_read_pcm {s : State} {off : Offset} {width : Width} {j : Nat} (hoff : off.toNat = 0x800000 + j)
    (hfits : j + width.bytes ≤ 3 * s.caps.maxSamples.toNat) (haligned : j % width.bytes = 0)
    (hmax : s.caps.maxSamples.toNat ≤ 2 ^ 20) :
    performEvent (.read off width) s = .next (readPcmWindow j width.bytes s) := by
  have hpos : off.toNat - pcmBase = j := by simp only [pcmBase]; omega
  have hsample : ¬ (sampleBase ≤ off.toNat ∧ off.toNat < sampleBase + 4 * s.caps.maxSamples.toNat ∧
      off.toNat % 4 = 0 ∧ width = .four) := by
    simp only [sampleBase]
    omega
  have hbase : pcmBase ≤ off.toNat := by simp only [pcmBase]; omega
  simp only [performEvent, busRead]
  rw [if_neg (not_regAdmitted_of_ge (by omega) _), if_neg hsample, hpos, if_pos ⟨hbase, hfits, haligned⟩]

/-- Settles O24: by the state, the size and the bytes of what a PCM read takes. -/
theorem pcmReadsAreLittleEndian : Obligations.PcmReadsAreLittleEndian := by
  intro s off width j hoff hfits haligned hmax
  refine ⟨(takePcmBytes width.bytes j s).1, ?_, takePcmBytes_lt width.bytes j s,
    fun k hk => takePcmBytes_byte (bytes_le_eight width) hk j s⟩
  rw [performEvent_read_pcm hoff hfits haligned hmax, readPcmWindow_eq]
  rfl

end Sys2Proof.Proofs
end

/-! ### Decode and encode -/

section
namespace Sys2Proof.Proofs

open Sys2Proof.Machine Sys2Proof.Laws

/-- An admitted write is decoded by the table of the register at its offset, if that is a command or a selector register
(30_encoding.md rule R90). -/
theorem decode_of_admitted {off : Offset} (h : regAdmitted off .eight = true) (v : Word) :
    decode ⟨off, .eight, v⟩ =
      if off = offCmd then decodeCmd v
      else if off = offCtrl then decodeCtrl v
      else if off = offBitDepth then decodeBitDepth v
      else if off = offWaveform then decodeWaveform v
      else if off = offNoiseType then decodeNoiseType v
      else .reject .plainRegister := if_pos h

theorem decode_cmd (v : Word) : decode ⟨offCmd, .eight, v⟩ = decodeCmd v := by
  rw [decode_of_admitted (by decide), if_pos rfl]

theorem decode_ctrl (v : Word) : decode ⟨offCtrl, .eight, v⟩ = decodeCtrl v := by
  rw [decode_of_admitted (by decide), if_neg (by decide), if_pos rfl]

theorem decode_bitDepth (v : Word) : decode ⟨offBitDepth, .eight, v⟩ = decodeBitDepth v := by
  rw [decode_of_admitted (by decide), if_neg (by decide), if_neg (by decide), if_pos rfl]

theorem decode_waveform (v : Word) : decode ⟨offWaveform, .eight, v⟩ = decodeWaveform v := by
  rw [decode_of_admitted (by decide), if_neg (by decide), if_neg (by decide), if_neg (by decide), if_pos rfl]

theorem decode_noiseType (v : Word) : decode ⟨offNoiseType, .eight, v⟩ = decodeNoiseType v := by
  rw [decode_of_admitted (by decide), if_neg (by decide), if_neg (by decide), if_neg (by decide), if_neg (by decide),
    if_pos rfl]

/-- The write of CTRL decodes to the pitch row of its SMOOTH bit (30_encoding.md rule R100). -/
theorem decode_encodeCtrl (smooth irqEn : Bool) (hi : BitVec 62) :
    decode (encodeCtrl smooth irqEn hi) = .instr (if smooth then .pitchSmooth irqEn hi else .pitchStep irqEn hi) := by
  rw [encodeCtrl, decode_ctrl, decodeCtrl, smooth_of_ctrl, irqEn_of_ctrl, ignored_of_ctrl]
  cases smooth <;> rfl

/-- The write that encodes an instruction decodes to it, with every ignored bit at every value. -/
theorem decode_encode (i : Instr) : decode (encode i) = .instr i := by
  cases i
  case nop | render | clearStatus | softReset => rfl
  case pitchStep irqEn hi => exact decode_encodeCtrl false irqEn hi
  case pitchSmooth irqEn hi => exact decode_encodeCtrl true irqEn hi
  case bitDepth16 hi | bitDepth24 hi =>
    simp [encode, encodeU32, decode_bitDepth, decodeBitDepth, code_of_append, ignored_of_append]
  case noiseTypeNone hi | noiseTypeWhite hi | noiseTypePink hi | noiseTypeBrown hi =>
    simp [encode, encodeU32, decode_noiseType, decodeNoiseType, code_of_append, ignored_of_append]
  all_goals simp [encode, encodeU32, decode_waveform, decodeWaveform, code_of_append, ignored_of_append]

theorem decode_of_eq_encode {a : BusWrite} {i : Instr} (h : a = encode i) : decode a = .instr i :=
  h ▸ decode_encode i

/-- Settles O1: a write that decodes to an instruction is its write, and that write decodes to it. -/
theorem decodeInvertsEncode : Obligations.DecodeInvertsEncode := fun _ _ =>
  ⟨eq_encode_of_decode, decode_of_eq_encode⟩

/-! ### Command words -/

/-- A command word is well-formed when its two fields are a zero RSVD and an OPCODE of at most 3 (30_encoding.md rule
R94). -/
theorem cmdWellFormed_iff_fields (v : Word) :
    cmdWellFormed v = true ↔ v.extractLsb' 8 56 = 0#56 ∧ (v.extractLsb' 0 8).toNat ≤ 3 := by
  simp only [cmdWellFormed, Bool.and_eq_true, beq_iff_eq, decide_eq_true_eq, BitVec.le_def]
  rfl

/-- A command word is well-formed when all 64 bits together are a number of at most 3. -/
theorem cmdWellFormed_iff_le (v : Word) : cmdWellFormed v = true ↔ v.toNat ≤ 3 := by
  have hv := v.isLt
  have hrsvd : v.extractLsb' 8 56 = 0#56 ↔ v.toNat / 256 = 0 := by
    rw [← BitVec.toNat_inj, BitVec.extractLsb'_toNat, Nat.shiftRight_eq_div_pow, BitVec.toNat_ofNat]
    omega
  have hopcode : (v.extractLsb' 0 8).toNat = v.toNat % 256 := by
    rw [BitVec.extractLsb'_toNat, Nat.shiftRight_zero]
  rw [cmdWellFormed_iff_fields, hrsvd, hopcode]
  omega

/-- The words decoded as commands are those of at most 3 (30_encoding.md rule R95). -/
theorem decodeCmd_eq_reject_iff (v : Word) : decodeCmd v = .reject .illegalCommand ↔ 3 < v.toNat := by
  unfold decodeCmd
  split_ifs with h0 h1 h2 h3
  · simp [h0]
  · simp [h1]
  · simp [h2]
  · simp [h3]
  · simp only [true_iff]
    bv_omega

/-- Settles O3: a CMD word is an instruction or an illegal command, and is well-formed or not, by its value as a
number. -/
theorem commandWordsFullyDecoded : Obligations.CommandWordsFullyDecoded := by
  refine ⟨rfl, rfl, rfl, rfl, fun v => ⟨cmdWellFormed_iff_fields v, ?_, fun hill => ?_⟩⟩
  · rw [cmdWellFormed_iff_le, decode_cmd, ← not_lt, ← decodeCmd_eq_reject_iff]
    obtain ⟨i, hd, -⟩ | hd := decodeCmd_cases v <;> simp [hd]
  · rw [decode_cmd, decodeCmd_eq_reject_iff, ← not_le, ← cmdWellFormed_iff_le, hill]
    exact Bool.false_ne_true

/-- Settles O2: the first seven words are the writes that encode their instructions; each of the others is looked up. -/
theorem tableWordsDecode : Obligations.TableWordsDecode := by
  refine ⟨decode_of_eq_encode ?_, decode_of_eq_encode ?_, decode_of_eq_encode ?_, decode_of_eq_encode ?_,
    decode_of_eq_encode ?_, decode_of_eq_encode ?_, decode_of_eq_encode ?_, ?_⟩
  all_goals decide

end Sys2Proof.Proofs
end

/-! ### What the codes of NOISE_TYPE and BIT_DEPTH select -/

section
namespace Sys2Proof.Proofs

open Sys2Proof.Machine Sys2Proof.Laws

section Noise

variable {Num : Type} {nx : Numerics Num} {p : Params}

/-- The noise mix is one sample mixed with the value of the source its code selects, and leaves the state that source
leaves. -/
theorem noiseMix_eq (q : Num) (i : Nat) (d : Dsp Num) :
    noiseMix nx p q i d =
      (mixNoise nx q (noiseSource nx p.noiseType i d).1 (nx.asF64 p.noiseAmount) (noiseScale nx p),
        (noiseSource nx p.noiseType i d).2) := rfl

theorem noiseSource_white (i : Nat) (d : Dsp Num) : noiseSource nx 1#32 i d = noiseWhite nx d := rfl

theorem noiseSource_pink (i : Nat) (d : Dsp Num) : noiseSource nx 2#32 i d = noisePink nx i d := rfl

theorem noiseSource_brown (i : Nat) (d : Dsp Num) : noiseSource nx 3#32 i d = noiseBrown nx d := rfl

/-- With code 0 no stage of the post chain reads the noise state (41_render.md rule R148). -/
theorem postChain_of_noiseType_zero (h : p.noiseType = 0#32) (n : Nat) (w : List Num) (d d' : Dsp Num) :
    postChain nx p n w d = postChain nx p n w d' := by
  simp only [postChain, if_pos h]

end Noise

/-- Settles O37: the code selects the source, and code 0 leaves the stage out. -/
theorem noiseTypeSelectsTheSource : Obligations.NoiseTypeSelectsTheSource := by
  refine fun Num nx p q i d => ⟨fun h => ?_, fun h => ?_, fun h => ?_,
    fun h n w => postChain_of_noiseType_zero h n w d⟩
  · rw [noiseMix_eq, h, noiseSource_white]
    rfl
  · rw [noiseMix_eq, h, noiseSource_pink]
    rfl
  · rw [noiseMix_eq, h, noiseSource_brown]
    rfl

/-- QSCALE stands for 2^bd - 1 at every depth of at most 32 bits (41_render.md rule R142). -/
theorem standsFor_quantScale {Num : Type} {nx : Numerics Num} (h : ExactLaws nx) {p : Params}
    (hdepth : p.bitDepth.toNat ≤ 32) : nx.standsFor (quantScale nx p) (.finite (2 ^ p.bitDepth.toNat - 1)) := by
  have hpos : 1 ≤ 2 ^ p.bitDepth.toNat := Nat.one_le_two_pow
  have hle : 2 ^ p.bitDepth.toNat ≤ 2 ^ 32 := Nat.pow_le_pow_right (by norm_num) hdepth
  have hscale := standsFor_ofNat h (n := 2 ^ p.bitDepth.toNat - 1) (by omega)
  rw [Nat.cast_sub hpos] at hscale
  exact_mod_cast hscale

/-- NSCALE stands for 2^(bd - 1) at every depth of at most 32 bits (41_render.md rule R142). -/
theorem standsFor_noiseScale {Num : Type} {nx : Numerics Num} (h : ExactLaws nx) {p : Params}
    (hdepth : p.bitDepth.toNat ≤ 32) : nx.standsFor (noiseScale nx p) (.finite (2 ^ (p.bitDepth.toNat - 1))) := by
  have hlt : 2 ^ (p.bitDepth.toNat - 1) < 2 ^ 32 := Nat.pow_lt_pow_right (by norm_num) (by omega)
  exact_mod_cast standsFor_ofNat h hlt

/-- Settles O39: both scales are 32-bit integers, which every block's NUMERICS has exactly. -/
theorem bitDepthSelectsTheScales : Obligations.BitDepthSelectsTheScales := by
  intro c p
  have hquant := standsFor_quantScale (exactLaws_numericsOf c) (p := p)
  have hnoise := standsFor_noiseScale (exactLaws_numericsOf c) (p := p)
  refine ⟨fun hdepth => ?_, fun hdepth => ?_⟩
  all_goals
    rw [hdepth] at hquant hnoise
    norm_num at hquant hnoise
    exact ⟨hquant, hnoise, fun s => by simp [asU32, hdepth]⟩

end Sys2Proof.Proofs
end

/-! ### Commands -/

section
namespace Sys2Proof.Proofs

open Sys2Proof.Machine Sys2Proof.Laws

/-! ### RENDER and CLEAR_STATUS, busy and idle -/

/-- While a render runs, RENDER and CLEAR_STATUS are dropped (40_commands.md rule R127). -/
theorem exec_of_busy {i : Instr} {s : State} (hb : s.status.busy = true) (hi : i = .render ∨ i = .clearStatus) :
    exec i s = .next (setOverrun s) := by
  obtain rfl | rfl := hi
  · exact if_pos hb
  · exact if_pos hb

theorem exec_clearStatus_of_idle {s : State} (hb : s.status.busy = false) :
    exec .clearStatus s = .next (clearStatus s) :=
  if_neg (by simp [hb])

/-- RENDER while idle is what the validation of the registers makes of it (40_commands.md rule R121). -/
theorem exec_render_of_valid {s : State} (hb : s.status.busy = false) (hv : validate s.caps s.params = none) :
    exec .render s = .next (accept s.params s) := by
  simp [exec, execRender, snapshot, hb, hv]

theorem exec_render_of_failing {s : State} {code : ErrCode} {detail : Byte} (hb : s.status.busy = false)
    (hv : validate s.caps s.params = some (code, detail)) : exec .render s = .next (raiseErr code detail s) := by
  simp [exec, execRender, snapshot, hb, hv]

/-! ### What acceptance reports -/

/-- BPS holds the bytes per sample of a valid snapshot, which are 2 or 3 (41_render.md rule R142). -/
theorem accept_bps_toNat {s : State} (hv : validate s.caps s.params = none) :
    (accept s.params s).status.bps.toNat = s.params.bitDepth.toNat / 8 := by
  obtain ⟨⟨-, -, -, -, -, hdepth⟩, -, -⟩ := validateIn_iff.1 hv
  obtain hdepth | hdepth := hdepth <;> simp [asU32, hdepth]

/-- SAMPLES holds the sample count of a valid snapshot, which is at most MAX_SAMPLES (41_render.md rule R146). -/
theorem accept_samples_toNat {s : State} (hv : validate s.caps s.params = none) :
    (accept s.params s).status.samples.toNat = sampleCount (numericsOf s.caps).ops s.params := by
  have hfits := (sampleCount_le hv).trans_lt s.caps.maxSamples.isLt
  rw [accept_status, BitVec.toNat_ofNat, Nat.mod_eq_of_lt hfits]

/-- Settles O7: the next state is `accept`, whose counts fit their fields. -/
theorem renderIsAccepted : Obligations.RenderIsAccepted := fun s hb hv =>
  ⟨accept s.params s, exec_render_of_valid hb hv, rfl, rfl, rfl, rfl, rfl, rfl, accept_bps_toNat hv,
    accept_samples_toNat hv, fun _ => rfl, fun _ => rfl, ⟨_, rfl⟩, rfl, rfl, rfl, rfl, rfl⟩

/-- Settles O8: a failing snapshot is reported in one of three classes. -/
theorem failedRenderRecordsItsCheck : Obligations.FailedRenderRecordsItsCheck := by
  intro s code detail hb hv
  refine ⟨errByte code, ?_, exec_render_of_failing hb hv⟩
  obtain ⟨rfl, -⟩ | ⟨rfl, -⟩ | ⟨rfl, -⟩ := validateIn_eq_some hv
  · exact .inl ⟨rfl, rfl⟩
  · exact .inr (.inl ⟨rfl, rfl⟩)
  · exact .inr (.inr ⟨rfl, rfl⟩)

/-- Settles O9: BUSY decides which of the two effects CLEAR_STATUS has. -/
theorem clearStatusClearsTheRecord : Obligations.ClearStatusClearsTheRecord :=
  ⟨fun _ => exec_clearStatus_of_idle, fun _ hb => exec_of_busy hb (.inr rfl)⟩

/-! ### Command words -/

/-- A command word above 3 is an illegal command (30_encoding.md rule R101). -/
theorem decode_cmd_of_gt {v : Word} (h : 3 < v.toNat) : decode ⟨offCmd, .eight, v⟩ = .reject .illegalCommand := by
  rw [decode_cmd, decodeCmd_eq_reject_iff]
  exact h

theorem performEvent_cmd_of_gt {v : Word} (h : 3 < v.toNat) (s : State) :
    performEvent (.write ⟨offCmd, .eight, v⟩) s = .next (illegalCommand v s) :=
  performEvent_write_reject (decode_cmd_of_gt h) s

theorem illegalCommand_of_busy {s : State} (hb : s.status.busy = true) (v : Word) :
    illegalCommand v s = setOverrun s :=
  if_pos hb

theorem illegalCommand_of_idle {s : State} (hb : s.status.busy = false) (v : Word) :
    illegalCommand v s = raiseErr .illegalCmd (v.extractLsb' 0 8) s :=
  if_neg (by simp [hb])

/-- Settles O6: the word 0 encodes NOP, and 0x100 is above 3. -/
theorem nopChangesNothing : Obligations.NopChangesNothing :=
  ⟨fun _ => rfl, decode_encode .nop, decode_cmd_of_gt (by decide)⟩

/-- Settles O12: the word is RENDER, CLEAR_STATUS or an illegal command, and each of them is dropped. -/
theorem busyDropsCommands : Obligations.BusyDropsCommands := by
  intro s v hb h0 h3
  obtain rfl | rfl | hv : v = 0x1#64 ∨ v = 0x2#64 ∨ 3 < v.toNat := by bv_omega
  · exact (performEvent_write_instr (decode_encode .render) s).trans (exec_of_busy hb (.inl rfl))
  · exact (performEvent_write_instr (decode_encode .clearStatus) s).trans (exec_of_busy hb (.inr rfl))
  · rw [performEvent_cmd_of_gt hv, illegalCommand_of_busy hb]
    rfl

/-- Settles O13: a word with a non-zero RSVD or an OPCODE of 4 or more is a number above 3. -/
theorem illegalCommandIsRecorded : Obligations.IllegalCommandIsRecorded := by
  intro s v hb hill
  have hv : 3 < v.toNat := by
    rw [← not_le, ← cmdWellFormed_iff_le, cmdWellFormed_iff_fields, not_and_or, not_le]
    exact hill
  rw [performEvent_cmd_of_gt hv, illegalCommand_of_idle hb]
  rfl

/-! ### RENDER right after reset -/

/-- The default record passes every check. -/
theorem validate_reset : validate State.reset.caps State.reset.params = none := by decide +kernel

/-- The default record lasts one second at 96 kHz. -/
theorem sampleCount_reset : sampleCount (numericsOf State.reset.caps).ops State.reset.params = 96000 := by
  decide +kernel

/-- Settles O30: the default record is accepted, and its sample count is known. -/
theorem resetRendersTheDefaultRecord : Obligations.ResetRendersTheDefaultRecord := by
  refine ⟨accept State.reset.params State.reset, exec_render_of_valid rfl validate_reset, ?_⟩
  rw [accept_status, sampleCount_reset]
  decide

end Sys2Proof.Proofs
end

/-! ### Validation reports the first check that fails -/

section
namespace Sys2Proof.Proofs

open Sys2Proof.Machine Sys2Proof.Safety

/-- The list `l` holds the answers of the checks numbered from `m` on, and above it no check fails. -/
def Answers (check : Nat → Prop) (m : Nat) (l : List Bool) : Prop := ∀ j, check (m + j) ↔ l.getD j true = true

theorem answers_cons_iff {check : Nat → Prop} {m : Nat} {b : Bool} {l : List Bool} :
    Answers check m (b :: l) ↔ (check m ↔ b = true) ∧ Answers check (m + 1) l := by
  refine ⟨fun h => ⟨h 0, fun j => ?_⟩, fun ⟨h0, hl⟩ j => ?_⟩
  · rw [Nat.add_right_comm]
    exact h (j + 1)
  · cases j with
    | zero => exact h0
    | succ j => exact Nat.add_right_comm m 1 j ▸ hl j

theorem answers_nil {check : Nat → Prop} {m : Nat} (h : ∀ j, check (j + m)) : Answers check m [] :=
  fun j => iff_of_true (Nat.add_comm j m ▸ h j) rfl

/-- Where the checks below `m` hold, all hold exactly when the list has no failing answer. -/
theorem firstFailing_eq_none_iff {check : Nat → Prop} {m : Nat} {l : List Bool} (h : Answers check m l)
    (hbelow : ∀ n < m, check n) : firstFailing m l = none ↔ ∀ n, check n := by
  induction l generalizing m with
  | nil =>
    refine iff_of_true rfl fun n => ?_
    obtain hn | ⟨j, rfl⟩ := (lt_or_ge n m).imp_right Nat.exists_eq_add_of_le
    · exact hbelow n hn
    · exact (h j).2 rfl
  | cons b l ih =>
    obtain ⟨h0, hl⟩ := answers_cons_iff.1 h
    cases b with
    | false => exact iff_of_false (by simp [firstFailing]) fun hall => by simpa using h0.1 (hall m)
    | true => exact ih hl fun n hn => (Nat.lt_succ_iff_lt_or_eq.1 hn).elim (hbelow n) (· ▸ h0.2 rfl)

/-- The first check that fails is the one reported. -/
theorem firstFailing_of_firstFails {check : Nat → Prop} {m n : Nat} {l : List Bool} (h : Answers check m l)
    (hn : FirstFails check n) (hm : m ≤ n) : firstFailing m l = some n := by
  induction l generalizing m with
  | nil =>
    obtain ⟨j, rfl⟩ := Nat.exists_eq_add_of_le hm
    exact absurd ((h j).2 rfl) hn.1
  | cons b l ih =>
    obtain ⟨h0, hl⟩ := answers_cons_iff.1 h
    cases b with
    | false =>
      have hfail : ¬ check m := fun hc => by simpa using h0.1 hc
      have hle : n ≤ m := not_lt.1 fun hlt => hfail (hn.2 m hlt)
      rw [le_antisymm hm hle]
      rfl
    | true => exact ih hl (lt_of_le_of_ne hm fun he => hn.1 (he ▸ h0.2 rfl))

/-! ### The lists of a snapshot's checks -/

variable {Num : Type} (nx : Numerics Num) (c : Caps) (p : Params)

theorem answers_invalidChecks : Answers (InvalidCheck nx p) 1 (invalidChecks nx p) := by
  simp only [invalidChecks, answers_cons_iff, InvalidCheck, decide_eq_true_eq, beq_iff_eq, Bool.and_eq_true,
    Bool.or_eq_true, true_and]
  exact ⟨Iff.rfl, answers_nil fun _ => trivial⟩

theorem answers_domainChecks : Answers (DomainCheck nx c p) 1 (domainChecks nx c p) := by
  have hlevels : (checkedLevels nx c p).all nx.isFinite = true ↔
      ∀ k < min p.numOsc.toNat c.maxOsc.toNat, nx.isFinite (nx.asF64 (getLevel k p)) = true := by
    simp only [List.all_eq_true, checkedLevels_finite_iff, lt_min_iff, and_imp]
  simp only [domainChecks, answers_cons_iff, DomainCheck, finitePositive, finiteNonneg, inUnit,
    decide_eq_true_eq, Bool.and_eq_true, hlevels, true_and]
  exact ⟨Iff.rfl, Iff.rfl, Iff.rfl, answers_nil fun _ => trivial⟩

theorem answers_capacityChecks : Answers (CapacityCheck nx c p) 1 (capacityChecks nx c p) := by
  simp only [capacityChecks, answers_cons_iff, CapacityCheck, decide_eq_true_eq]
  exact ⟨Iff.rfl, Iff.rfl, answers_nil fun _ => trivial⟩

theorem firstFailing_invalidChecks : firstFailing 1 (invalidChecks nx p) = none ↔ ∀ n, InvalidCheck nx p n :=
  firstFailing_eq_none_iff (answers_invalidChecks nx p) fun n hn => by rw [Nat.lt_one_iff.1 hn]; trivial

theorem firstFailing_domainChecks : firstFailing 1 (domainChecks nx c p) = none ↔ ∀ n, DomainCheck nx c p n :=
  firstFailing_eq_none_iff (answers_domainChecks nx c p) fun n hn => by rw [Nat.lt_one_iff.1 hn]; trivial

theorem firstFailing_capacityChecks : firstFailing 1 (capacityChecks nx c p) = none ↔ ∀ n, CapacityCheck nx c p n :=
  firstFailing_eq_none_iff (answers_capacityChecks nx c p) fun n hn => by rw [Nat.lt_one_iff.1 hn]; trivial

/-- There is no check number 0, so the first that fails is numbered from 1. -/
theorem one_le_of_firstFails {check : Nat → Prop} {n : Nat} (hn : FirstFails check n) (h0 : check 0) : 1 ≤ n :=
  Nat.one_le_iff_ne_zero.2 fun he => hn.1 (he ▸ h0)

/-- Settles O27: each class's list of checks answers its numbered checks, and reports the first that fails. -/
theorem validationReportsTheFirstFailure : Obligations.ValidationReportsTheFirstFailure := by
  intro c p
  have hinvalid := firstFailing_invalidChecks (numericsOf c).ops p
  have hdomain := firstFailing_domainChecks (numericsOf c).ops c p
  have hcapacity := firstFailing_capacityChecks (numericsOf c).ops c p
  refine ⟨?_, fun n hn => ?_, fun n hi hn => ?_, fun n hi hd hn => ?_⟩
  · rw [validate, Laws.validateIn_eq_none, ← hinvalid, ← hdomain, ← hcapacity]
    simp only [Laws.firstFailing_eq_none]
  · have hfirst := firstFailing_of_firstFails (answers_invalidChecks _ p) hn (one_le_of_firstFails hn trivial)
    simp only [validate, validateIn, hfirst]
  · have hfirst := firstFailing_of_firstFails (answers_domainChecks _ c p) hn (one_le_of_firstFails hn trivial)
    simp only [validate, validateIn, hinvalid.2 hi, hfirst]
  · have hfirst := firstFailing_of_firstFails (answers_capacityChecks _ c p) hn (one_le_of_firstFails hn trivial)
    simp only [validate, validateIn, hinvalid.2 hi, hdomain.2 hd, hfirst]

end Sys2Proof.Proofs
end

/-! ### The stages, sample by sample -/

section
namespace Sys2Proof.Proofs

open Sys2Proof.Machine

variable {Num : Type} {nx : Numerics Num} {p : Params}

/-! ### A stage that treats each sample by itself -/

theorem getElem?_mapStage (g : Nat → Num → Num) (i : Nat) (w : List Num) (j : Nat) :
    (mapStage g i w)[j]? = w[j]?.map (g (i + j)) := by
  induction w generalizing i j with
  | nil => rfl
  | cons x w ih =>
    cases j with
    | zero => rfl
    | succ j =>
      rw [mapStage, List.getElem?_cons_succ, List.getElem?_cons_succ, ih, Nat.add_right_comm]
      rfl

theorem mapStage_mapStage (f g : Nat → Num → Num) (i : Nat) (w : List Num) :
    mapStage g i (mapStage f i w) = mapStage (fun j x => g j (f j x)) i w := by
  induction w generalizing i with
  | nil => rfl
  | cons x w ih => exact congrArg (g i (f i x) :: ·) (ih (i + 1))

theorem mapStage_id (i : Nat) (w : List Num) : mapStage (fun _ x => x) i w = w := by
  induction w generalizing i with
  | nil => rfl
  | cons x w ih => exact congrArg (x :: ·) (ih (i + 1))

/-- A stage may be fused with what computes its samples. -/
theorem map_mapStage_mapM (f : Nat → Option Num) (g : Nat → Num → Num) (i n : Nat) :
    ((List.range' i n).mapM f).map (mapStage g i) = (List.range' i n).mapM fun j => (f j).map (g j) := by
  induction n generalizing i with
  | zero => rfl
  | succ n ih =>
    rw [List.range'_succ, List.mapM_cons, List.mapM_cons, ← ih]
    cases f i with
    | none => rfl
    | some x => cases (List.range' (i + 1) n).mapM f <;> rfl

/-! ### The stages before FADE -/

/-- The working buffer after the stages SAT and BAND, which treat each sample by itself. -/
def bandStage (nx : Numerics Num) (p : Params) (w : List Num) : List Num :=
  mapStage (fun i q => bandGain nx p (saturate nx q (nx.asF64 p.saturatorAmount)) (sampleTime nx p i)) 0 w

/-- The working buffer before the stage FADE. -/
def mixedStage (nx : Numerics Num) (p : Params) (w : List Num) (d : Dsp Num) : List Num :=
  if p.noiseType = 0#32 then bandStage nx p w else noiseStage nx p 0 (bandStage nx p w) d

theorem getElem?_bandStage (w : List Num) (i : Nat) :
    (bandStage nx p w)[i]? =
      w[i]?.map fun q => bandGain nx p (saturate nx q (nx.asF64 p.saturatorAmount)) (sampleTime nx p i) := by
  rw [bandStage, getElem?_mapStage, Nat.zero_add]

theorem postChain_eq (n : Nat) (w : List Num) (d : Dsp Num) :
    postChain nx p n w d =
      if nx.lt (nx.ofNat 0) (nx.asF64 p.fadeDuration) = true then
        mapStage (fadeSample nx n (fadeLength nx p n)) 0 (mixedStage nx p w d)
      else mixedStage nx p w d := by
  simp only [postChain, mixedStage, bandStage, mapStage_mapStage]

/-! ### The oscillators of one sample -/

/-- One oscillator's step: its sample is computed and its share added. -/
def oscStep (nx : Numerics Num) (p : Params) (f e t : Num) (i : Nat) (a : Num × Dsp Num) (level : Num) :
    Num × Dsp Num :=
  (nx.add a.1 (stackTerm nx (nx.asF64 p.drive) (osc nx p.waveform f t i a.2).1 e level),
    (osc nx p.waveform f t i a.2).2)

/-- The oscillator loop is a fold over the levels, the sum and the noise state being carried on. -/
theorem oscStack_eq_foldl (f e t : Num) (i : Nat) (levels : List Num) (d : Dsp Num) (total : Num) :
    oscStack nx p f e t i levels d total = levels.foldl (oscStep nx p f e t i) (total, d) := by
  induction levels generalizing d total with
  | nil => rfl
  | cons level levels ih => exact ih _ _

theorem oscSample_eq_foldl (i : Nat) (d : Dsp Num) :
    oscSample nx p i d = (List.range p.numOsc.toNat).foldl (fun a k =>
      oscStep nx p (pitch nx p (sampleTime nx p i)) (env nx p (sampleTime nx p i)) (sampleTime nx p i) i a
        (nx.asF64 (getLevel k p))) (nx.ofNat 0, d) := by
  rw [oscSample, oscStack_eq_foldl, stackLevels, List.foldl_map]
  rfl

/-- The first sample is quantized, and the rest are computed from the noise state it leaves. -/
theorem oscStage_succ (n i : Nat) (d : Dsp Num) :
    oscStage nx p (n + 1) i d =
      (quantize nx (oscSample nx p i d).1 (quantScale nx p)).bind fun q =>
        (oscStage nx p n (i + 1) (oscSample nx p i d).2).map fun r => (q :: r.1, r.2) := by
  rw [oscStage]
  obtain ⟨total, d'⟩ := oscSample nx p i d
  dsimp only
  cases quantize nx total (quantScale nx p) with
  | none => rfl
  | some q => cases oscStage nx p n (i + 1) d' <;> rfl

/-! ### Without noise -/

/-- A tonal oscillator neither reads the noise state nor changes it (42_oscillators.md rule R174). -/
theorem osc_tonal {code : Word32} (hcode : code.toNat ≤ 3) (f t : Num) (i : Nat) (d d' : Dsp Num) :
    osc nx code f t i d = ((osc nx code f t i d').1, d) := by
  obtain rfl | rfl | rfl | rfl : code = 0#32 ∨ code = 1#32 ∨ code = 2#32 ∨ code = 3#32 := by bv_omega
  · rfl
  · rfl
  · rfl
  · rfl

/-- A tonal sample sums the levels from 0 and leaves the noise state. -/
theorem oscSample_tonal (hp : p.waveform.toNat ≤ 3) (i : Nat) (d d' : Dsp Num) :
    oscSample nx p i d = ((List.range p.numOsc.toNat).foldl (fun total k =>
      nx.add total (stackTerm nx (nx.asF64 p.drive)
        (osc nx p.waveform (pitch nx p (sampleTime nx p i)) (sampleTime nx p i) i d').1 (env nx p (sampleTime nx p i))
        (nx.asF64 (getLevel k p)))) (nx.ofNat 0), d) := by
  rw [oscSample_eq_foldl]
  generalize nx.ofNat 0 = total
  induction List.range p.numOsc.toNat generalizing total with
  | nil => rfl
  | cons k ks ih => rw [List.foldl_cons, List.foldl_cons, oscStep, osc_tonal hp _ _ i d d', ih]

/-- Where the samples leave the noise state, stage OSC is each of them by itself. -/
theorem oscStage_of_fixed_state {d : Dsp Num} (hd : ∀ i, (oscSample nx p i d).2 = d) (n i : Nat) :
    oscStage nx p n i d =
      ((List.range' i n).mapM fun j => quantize nx (oscSample nx p j d).1 (quantScale nx p)).map (·, d) := by
  induction n generalizing i with
  | zero => rfl
  | succ n ih =>
    rw [oscStage_succ, hd, ih, List.range'_succ, List.mapM_cons]
    cases quantize nx (oscSample nx p i d).1 (quantScale nx p) with
    | none => rfl
    | some q => cases (List.range' (i + 1) n).mapM fun j => quantize nx (oscSample nx p j d).1 (quantScale nx p) <;> rfl

/-- Without noise the post chain treats each sample by itself. -/
theorem postChain_eq_mapStage (hp : p.noiseType = 0#32) (n : Nat) (w : List Num) (d : Dsp Num) :
    postChain nx p n w d = mapStage (fun i q =>
      let w := bandGain nx p (saturate nx q (nx.asF64 p.saturatorAmount)) (sampleTime nx p i)
      if nx.lt (nx.ofNat 0) (nx.asF64 p.fadeDuration) then fadeSample nx n (fadeLength nx p n) i w else w) 0 w := by
  rw [postChain_eq, mixedStage, if_pos hp, bandStage, mapStage_mapStage]
  split
  · rfl
  · rfl

/-- Settles O49: no sample changes the noise state, so the stages fuse sample by sample. -/
theorem stagesFusePerSample : Obligations.StagesFusePerSample := by
  intro Num nx p hwave hnoise
  have hsample := fun i => oscSample_tonal (nx := nx) hwave i (dspStart nx p) (dspStart nx p)
  rw [renderBuffer, oscStage_of_fixed_state fun i => by rw [hsample i]]
  simp only [Option.map_map, Function.comp_def, postChain_eq_mapStage hnoise, map_mapStage_mapM, hsample]
  rw [← List.range_eq_range']
  rfl

/-! ### The order of the noise -/

/-- The noise state before sample i + n of stage OSC, from that before sample i. -/
def oscStateFrom (nx : Numerics Num) (p : Params) (i n : Nat) (d : Dsp Num) : Dsp Num :=
  (List.range' i n).foldl (fun d j => (oscSample nx p j d).2) d

theorem oscStateFrom_succ (i n : Nat) (d : Dsp Num) :
    oscStateFrom nx p i (n + 1) d = oscStateFrom nx p (i + 1) n (oscSample nx p i d).2 := by
  rw [oscStateFrom, List.range'_succ]
  rfl

/-- Stage OSC quantizes each sample, computed from the noise state that the samples before it left. -/
theorem oscStage_samples {n i : Nat} {d d' : Dsp Num} {ws : List Num} (h : oscStage nx p n i d = some (ws, d')) :
    d' = oscStateFrom nx p i n d ∧
      ∀ j < n, ws[j]? = quantize nx (oscSample nx p (i + j) (oscStateFrom nx p i j d)).1 (quantScale nx p) := by
  induction n generalizing i d ws with
  | zero =>
    cases h
    exact ⟨rfl, fun j hj => absurd hj (Nat.not_lt_zero j)⟩
  | succ n ih =>
    rw [oscStage_succ, Option.bind_eq_some_iff] at h
    obtain ⟨q, hq, h⟩ := h
    obtain ⟨r, hr, h⟩ := Option.map_eq_some_iff.1 h
    cases h
    obtain ⟨hd, hws⟩ := ih hr
    rw [oscStateFrom_succ]
    refine ⟨hd, fun j hj => ?_⟩
    cases j with
    | zero => exact hq.symm
    | succ j =>
      rw [oscStateFrom_succ, List.getElem?_cons_succ, hws j (Nat.lt_of_succ_lt_succ hj), Nat.add_right_comm]
      rfl

/-- Stage OSC is NONFINITE exactly if a quantizer input is. -/
theorem oscStage_eq_none_iff (n i : Nat) (d : Dsp Num) :
    oscStage nx p n i d = none ↔
      ∃ j < n, quantize nx (oscSample nx p (i + j) (oscStateFrom nx p i j d)).1 (quantScale nx p) = none := by
  induction n generalizing i d with
  | zero => simp [oscStage]
  | succ n ih =>
    have hrest := ih (i + 1) (oscSample nx p i d).2
    simp only [← oscStateFrom_succ, Nat.add_right_comm i 1, Nat.add_assoc i] at hrest
    rw [oscStage_succ, Nat.exists_lt_succ_left, ← hrest]
    cases hq : quantize nx (oscSample nx p i d).1 (quantScale nx p) <;> simp [oscStateFrom, hq]

theorem oscStateFrom_zero (n : Nat) (d : Dsp Num) :
    oscStateFrom nx p 0 n d = (List.range n).foldl (fun d j => (oscSample nx p j d).2) d := by
  rw [oscStateFrom, List.range_eq_range']

/-- The noise state before sample i + n of stage NOISE, from that before sample i. -/
def noiseStateFrom (nx : Numerics Num) (p : Params) (i n : Nat) (d : Dsp Num) : Dsp Num :=
  (List.range' i n).foldl (fun d j => (noiseSource nx p.noiseType j d).2) d

theorem noiseStateFrom_succ (i n : Nat) (d : Dsp Num) :
    noiseStateFrom nx p i (n + 1) d = noiseStateFrom nx p (i + 1) n (noiseSource nx p.noiseType i d).2 := by
  rw [noiseStateFrom, List.range'_succ]
  rfl

theorem noiseStateFrom_zero (n : Nat) (d : Dsp Num) :
    noiseStateFrom nx p 0 n d = (List.range n).foldl (fun d j => (noiseSource nx p.noiseType j d).2) d := by
  rw [noiseStateFrom, List.range_eq_range']

/-- Stage NOISE mixes each sample from the noise state that the samples before it left. -/
theorem getElem?_noiseStage (i : Nat) (w : List Num) (d : Dsp Num) (j : Nat) :
    (noiseStage nx p i w d)[j]? = w[j]?.map fun q => (noiseMix nx p q (i + j) (noiseStateFrom nx p i j d)).1 := by
  induction w generalizing i d j with
  | nil => rfl
  | cons x w ih =>
    cases j with
    | zero => rfl
    | succ j =>
      rw [noiseStage, noiseMix_eq, List.getElem?_cons_succ, List.getElem?_cons_succ, ih, noiseStateFrom_succ,
        Nat.add_right_comm]
      rfl

theorem getElem?_mixedStage {w : List Num} {i : Nat} {q : Num} (hq : w[i]? = some q) (d : Dsp Num) :
    (mixedStage nx p w d)[i]? =
      let q := bandGain nx p (saturate nx q (nx.asF64 p.saturatorAmount)) (sampleTime nx p i)
      if p.noiseType = 0#32 then some q else some (noiseMix nx p q i (noiseStateFrom nx p 0 i d)).1 := by
  rw [mixedStage]
  split
  · rw [getElem?_bandStage, hq]
    rfl
  · rw [getElem?_noiseStage, getElem?_bandStage, hq, Nat.zero_add]
    rfl

/-! ### How many draws are taken -/

/-- The PRNG state after a draw. -/
def afterDraw (nx : Numerics Num) (st : Nat) : Nat := (nx.rngNext st).1

/-- Steps that take m draws each take m draws per element of the list they fold over. -/
theorem rng_foldl {α σ : Type} {step : σ → α → σ} {rng : σ → Nat} {m : Nat}
    (hstep : ∀ a x, rng (step a x) = (afterDraw nx)^[m] (rng a)) (a : σ) (l : List α) :
    rng (l.foldl step a) = (afterDraw nx)^[m * l.length] (rng a) := by
  induction l generalizing a with
  | nil => rfl
  | cons x l ih =>
    rw [List.foldl_cons, ih, hstep, List.length_cons, Nat.mul_succ, Function.iterate_add_apply]

/-- How many draws one call of `osc` takes (42_oscillators.md rule R174). -/
def oscDraws (code : Word32) : Nat := if 4 ≤ code.toNat ∧ code.toNat ≤ 6 then 1 else 0

theorem osc_rng (code : Word32) (f t : Num) (i : Nat) (d : Dsp Num) :
    (osc nx code f t i d).2.rng = (afterDraw nx)^[oscDraws code] d.rng := by
  by_cases hnoise : 4 ≤ code.toNat ∧ code.toNat ≤ 6
  · obtain rfl | rfl | rfl : code = 4#32 ∨ code = 5#32 ∨ code = 6#32 := by bv_omega
    · rfl
    · rfl
    · rfl
  · have h4 : code ≠ 4#32 := by bv_omega
    have h5 : code ≠ 5#32 := by bv_omega
    have h6 : code ≠ 6#32 := by bv_omega
    have hkeep : (osc nx code f t i d).2 = d := by
      simp only [osc, if_neg h4, if_neg h5, if_neg h6]
      split_ifs <;> rfl
    rw [hkeep, oscDraws, if_neg hnoise]
    rfl

theorem oscStep_rng (f e t : Num) (i : Nat) (a : Num × Dsp Num) (level : Num) :
    (oscStep nx p f e t i a level).2.rng = (afterDraw nx)^[oscDraws p.waveform] a.2.rng :=
  osc_rng p.waveform f t i a.2

theorem oscSample_rng (i : Nat) (d : Dsp Num) :
    (oscSample nx p i d).2.rng = (afterDraw nx)^[oscDraws p.waveform * p.numOsc.toNat] d.rng := by
  rw [oscSample_eq_foldl,
    rng_foldl (rng := fun a : Num × Dsp Num => a.2.rng) (fun a k => oscStep_rng _ _ _ i a _), List.length_range]

theorem oscStateFrom_rng (i n : Nat) (d : Dsp Num) :
    (oscStateFrom nx p i n d).rng = (afterDraw nx)^[oscDraws p.waveform * p.numOsc.toNat * n] d.rng := by
  rw [oscStateFrom, rng_foldl fun d j => oscSample_rng j d, List.length_range']

/-- Each source of the noise mix takes one draw (42_oscillators.md rule R174). -/
theorem noiseSource_rng {nt : Word32} (hlo : 1 ≤ nt.toNat) (hhi : nt.toNat ≤ 3) (i : Nat) (d : Dsp Num) :
    (noiseSource nx nt i d).2.rng = afterDraw nx d.rng := by
  obtain rfl | rfl | rfl : nt = 1#32 ∨ nt = 2#32 ∨ nt = 3#32 := by bv_omega
  · rfl
  · rfl
  · rfl

theorem noiseStateFrom_rng (hlo : 1 ≤ p.noiseType.toNat) (hhi : p.noiseType.toNat ≤ 3) (i n : Nat) (d : Dsp Num) :
    (noiseStateFrom nx p i n d).rng = (afterDraw nx)^[n] d.rng := by
  rw [noiseStateFrom, rng_foldl (m := 1) fun d j => noiseSource_rng hlo hhi j d, List.length_range', Nat.one_mul]

/-- Settles O50: each stage carries the noise state from sample to sample, and each source takes one draw. -/
theorem noiseFollowsItsOrder : Obligations.NoiseFollowsItsOrder := by
  intro Num nx p time sample oscState noiseState
  have hsample : sample = oscSample nx p := funext fun i => funext fun d => (oscSample_eq_foldl i d).symm
  have hosc : ∀ n, oscState n = oscStateFrom nx p 0 n (dspStart nx p) := fun n => by
    rw [oscStateFrom_zero, ← hsample]
  have hnoise : ∀ n d, noiseState n d = noiseStateFrom nx p 0 n d := fun n d => (noiseStateFrom_zero n d).symm
  simp only [hsample, hosc, hnoise]
  refine ⟨rfl, fun n ws d h => ?_, fun n => ?_, fun n => ?_, fun n i w q d hfade hq => ?_, fun i d hlo hhi => ?_, rfl⟩
  · obtain ⟨hd, hws⟩ := oscStage_samples h
    exact ⟨hd, length_oscStage h, fun i hi => by rw [hws i hi, Nat.zero_add]⟩
  · simp only [oscStage_eq_none_iff, Nat.zero_add]
  · rw [oscStateFrom_rng, oscDraws]
    split
    · rw [Nat.one_mul, Nat.mul_comm]
      rfl
    · rw [Nat.zero_mul, Nat.zero_mul]
      rfl
  · rw [postChain_eq, if_neg (Bool.eq_false_iff.1 hfade), getElem?_mixedStage hq]
    rfl
  · exact noiseStateFrom_rng hlo hhi 0 i d

end Sys2Proof.Proofs
end

/-! ### The fade -/

section
namespace Sys2Proof.Proofs

open Sys2Proof.Machine Sys2Proof.Laws Sys2Proof.Safety

/-- The two ramps of a fade that is no longer than half the render do not meet (45_post_chain.md rule R246). -/
theorem fadeSample_eq {Num : Type} (nx : Numerics Num) {n k j : Nat} (w : Num) (hk : k ≤ n / 2) (hj : j < n) :
    fadeSample nx n k j w =
      if j < k then fadeGain nx w j k else if n - k ≤ j then fadeGain nx w (n - 1 - j) k else w := by
  simp only [fadeSample, hj, and_true]
  by_cases hin : j < k
  · rw [if_pos hin, if_pos hin, if_neg (by omega)]
  · rw [if_neg hin, if_neg hin]

theorem fadeSample_first {Num : Type} (nx : Numerics Num) {n k : Nat} (w : Num) (hpos : 1 ≤ k) (hk : k ≤ n / 2) :
    fadeSample nx n k 0 w = fadeGain nx w 0 k := by
  rw [fadeSample_eq nx w hk (by omega), if_pos (Nat.lt_of_succ_le hpos)]

theorem fadeSample_last {Num : Type} (nx : Numerics Num) {n k : Nat} (w : Num) (hpos : 1 ≤ k) (hk : k ≤ n / 2) :
    fadeSample nx n k (n - 1) w = fadeGain nx w 0 k := by
  rw [fadeSample_eq nx w hk (by omega), if_neg (by omega), if_pos (by omega), Nat.sub_self]

/-- The stages before FADE do not read its register. -/
theorem mixedStage_fadeDuration {Num : Type} (nx : Numerics Num) (p : Params) (v : Word) (w : List Num) (d : Dsp Num) :
    mixedStage nx { p with fadeDuration := v } w d = mixedStage nx p w d := by
  have hnoise : ∀ w, noiseStage nx { p with fadeDuration := v } 0 w d = noiseStage nx p 0 w d := fun w =>
    noiseStage_congr nx fun _ _ _ => rfl
  rw [mixedStage, hnoise]
  rfl

/-! ### Its length -/

section Exact

variable {Num : Type} {nx : Numerics Num} (h : ExactLaws nx)

include h

/-- MIN with a number is at most that number. -/
theorem min_le_right_of_finite {x y : Num} {b : ℝ} (hx : ¬ nx.standsFor x .nan) (hy : nx.standsFor y (.finite b)) :
    nx.le (nx.min x y) y = true := by
  obtain ⟨v, hv⟩ := exists_standsFor h x
  have hmin := ((h.2.1 _ _ _ _ hv hy).2.2.2 (fun he => hx (he ▸ hv)) (by simp)).1
  refine (h.2.1 _ _ _ _ hmin hy).2.1.2 ?_
  split
  next => exact .inr ⟨by simp, rfl⟩
  next hlt =>
    rw [(h.2.1 _ _ _ _ hy hv).1] at hlt
    cases v with
    | nan => exact absurd hv hx
    | inf m => exact .inl (by simpa [valueLt] using hlt)
    | finite a => simpa [valueLt, valueEq, le_iff_lt_or_eq] using hlt

/-- The count of a FLOOR is at most the floor of any number its operand is at most. -/
theorem countOf_floor_le_floor {x y : Num} {b : ℝ} (hle : nx.le x y = true) (hy : nx.standsFor y (.finite b)) :
    countOf nx (nx.floor x) ≤ ⌊b⌋₊ := by
  obtain ⟨v, hv⟩ := exists_standsFor h x
  have hfloor := standsFor_floor h hv
  cases v with
  | nan => exact absurd hv (not_nan_of_le h hle).1
  | inf m =>
    have hzero := (h.2.2.2.2.1 _).2 fun a ha => by cases standsFor_unique h hfloor ha
    simp [countOf, hzero]
  | finite a =>
    rw [le_iff_of_finite h hv hy] at hle
    rw [countOf, (h.2.2.2.2.1 _).1 ⌊a⌋ hfloor, Int.floor_toNat]
    exact Nat.floor_mono hle

/-- A number of the domain is the result of rounding it. -/
theorem standsFor_of_roundsTo {e : ℝ} {r x : Num} (hround : RoundsTo nx e r) (hx : nx.standsFor x (.finite e)) :
    nx.standsFor r (.finite e) := by
  obtain ⟨c, hc, hlo, hhi⟩ := roundsTo_between h hround hx hx le_rfl le_rfl
  rwa [le_antisymm hhi hlo] at hc

variable (hr : ArithmeticRounds nx)

include hr

/-- The fade is no longer than half the render where the domain holds that half (45_post_chain.md rule R246). -/
theorem fadeLength_le_half {p : Params} {n : Nat} {half : Num} (hn : n < 2 ^ 32)
    (hhalf : nx.standsFor half (.finite (n / 2))) (hfade : nx.isFinite (nx.asF64 p.fadeDuration) = true) :
    fadeLength nx p n ≤ n / 2 := by
  obtain ⟨f, hf⟩ := (isFinite_iff_standsFor h _).1 hfade
  have hrate : nx.standsFor (rateNum nx p) (.finite p.sampleRate.toNat) := standsFor_ofNat h p.sampleRate.isLt
  have hspan := (hr _ _ _ _ hf hrate).2.2.1.1
  have htwo : nx.standsFor (nx.ofNat 2) (.finite 2) := by exact_mod_cast standsFor_ofNat h (n := 2) (by norm_num)
  have hquot := standsFor_of_roundsTo h ((hr _ _ _ _ (standsFor_ofNat h hn) htwo).2.2.2 two_ne_zero) hhalf
  calc fadeLength nx p n ≤ ⌊(n : ℝ) / 2⌋₊ := countOf_floor_le_floor h (min_le_right_of_finite h hspan hquot) hquot
    _ = n / 2 := by rw [Nat.floor_div_ofNat, Nat.floor_natCast]

/-! ### Its gains -/

/-- A gain of at most 1 does not make an integer larger. -/
theorem exists_int_fadeGain {a k : Nat} {w : Num} {z : Int} (hak : a ≤ k) (hpos : 0 < k) (hk : k < 2 ^ 32)
    (hw : nx.standsFor w (.finite z)) : ∃ y : Int, nx.standsFor (fadeGain nx w a k) (.finite y) ∧ |y| ≤ |z| := by
  have hone := standsFor_ofNat h (n := 1) (by norm_num)
  have hpos' : (0 : ℝ) < k := by exact_mod_cast hpos
  have hquot := (hr _ _ _ _ (standsFor_ofNat h (hak.trans_lt hk)) (standsFor_ofNat h hk)).2.2.2 hpos'.ne'
  have hratio : |(a : ℝ) / k| ≤ |((1 : Nat) : ℝ)| := by
    rw [abs_of_nonneg (by positivity), Nat.cast_one, abs_one, div_le_one hpos']
    exact_mod_cast hak
  obtain ⟨g, hg, hg1⟩ := roundsTo_abs_le h hquot hone hratio
  rw [Nat.cast_one, abs_one] at hg1
  have hprod : |(z : ℝ) * g| ≤ |(z : ℝ)| := by
    rw [abs_mul]
    exact mul_le_of_le_one_right (abs_nonneg _) hg1
  obtain ⟨c, hc, hcz⟩ := roundsTo_abs_le h (hr _ _ _ _ hw hg).2.2.1 hw hprod
  rw [← Int.cast_abs, Int.abs_eq_natAbs, Int.cast_natCast] at hcz
  obtain ⟨y, hy, hlo, hhi⟩ := integerWithin_trunc_of_lt h hc (hcz.trans_lt (lt_add_one _))
  exact ⟨y, hy, Int.abs_eq_natAbs z ▸ abs_le.2 ⟨hlo, hhi⟩⟩

/-- A gain of 0 / k makes any finite sample zero. -/
theorem standsFor_fadeGain_zero {k : Nat} {w : Num} {a : ℝ} (hpos : 0 < k) (hk : k < 2 ^ 32)
    (hw : nx.standsFor w (.finite a)) : nx.standsFor (fadeGain nx w 0 k) (.finite 0) := by
  have hzero : nx.standsFor (nx.ofNat 0) (.finite 0) := by exact_mod_cast standsFor_ofNat h (n := 0) (by norm_num)
  have hne : (k : ℝ) ≠ 0 := by exact_mod_cast hpos.ne'
  have hquot := (hr _ _ _ _ hzero (standsFor_ofNat h hk)).2.2.2 hne
  rw [zero_div] at hquot
  have hprod := (hr _ _ _ _ hw (standsFor_of_roundsTo h hquot hzero)).2.2.1
  rw [mul_zero] at hprod
  simpa [fadeGain, valueMap] using standsFor_trunc h (standsFor_of_roundsTo h hprod hzero)

/-- The fade makes no integer sample larger. -/
theorem exists_int_fadeSample {n k j : Nat} {w : Num} {z : Int} (hk : k ≤ n / 2) (hn : n < 2 ^ 32) (hj : j < n)
    (hw : nx.standsFor w (.finite z)) : ∃ y : Int, nx.standsFor (fadeSample nx n k j w) (.finite y) ∧ |y| ≤ |z| := by
  rw [fadeSample_eq nx w hk hj]
  split
  · exact exists_int_fadeGain h hr (by omega) (by omega) (by omega) hw
  split
  · exact exists_int_fadeGain h hr (by omega) (by omega) (by omega) hw
  · exact ⟨z, hw, le_rfl⟩

/-- The fade makes the first and the last sample zero. -/
theorem standsFor_fadeSample_ends {n k j : Nat} {w : Num} {a : ℝ} (hpos : 1 ≤ k) (hk : k ≤ n / 2) (hn : n < 2 ^ 32)
    (hj : j = 0 ∨ j = n - 1) (hw : nx.standsFor w (.finite a)) :
    nx.standsFor (fadeSample nx n k j w) (.finite 0) := by
  have hzero := standsFor_fadeGain_zero h hr (k := k) hpos (by omega) hw
  obtain rfl | rfl := hj
  · rwa [fadeSample_first nx w hpos hk]
  · rwa [fadeSample_last nx w hpos hk]

end Exact

/-! ### The NUMERICS of a block whose arithmetic rounds -/

theorem arithmeticRounds_numericsOf {c : Caps} (hc : c.numerics = .binary64 ∨ ArithmeticRounds (numericsOf c).ops) :
    ArithmeticRounds (numericsOf c).ops := by
  obtain hc | hc := hc
  · rw [numericsOf_binary64 hc]
    exact arithmeticRounds_numerics
  · exact hc

/-- binary64 holds half of any count of samples. -/
theorem exists_half_of_binary64 {c : Caps} (hc : c.numerics = .binary64) {n : Nat} (hn : n ≤ 2 ^ 53) :
    ∃ half, (numericsOf c).ops.standsFor half (.finite (n / 2)) := by
  rw [numericsOf_binary64 hc]
  obtain ⟨half, hhalf⟩ := exists_standsFor_dyadic hn (j := 1) (by norm_num)
  rw [pow_one] at hhalf
  exact ⟨half, hhalf⟩

/-- The stage FADE runs exactly when its duration is above 0. -/
theorem postChain_fade {Num : Type} (nx : Numerics Num) (p : Params) (v : Word) (n j : Nat) (w : List Num) (d : Dsp Num)
    (hv : nx.lt (nx.ofNat 0) (nx.asF64 v) = false) :
    (nx.lt (nx.ofNat 0) (nx.asF64 p.fadeDuration) = true →
      (postChain nx p n w d)[j]? =
        (postChain nx { p with fadeDuration := v } n w d)[j]?.map (fadeSample nx n (fadeLength nx p n) j)) ∧
    (nx.lt (nx.ofNat 0) (nx.asF64 p.fadeDuration) = false →
      postChain nx p n w d = postChain nx { p with fadeDuration := v } n w d) := by
  have hoff : postChain nx { p with fadeDuration := v } n w d = mixedStage nx p w d := by
    rw [postChain_eq, if_neg (Bool.eq_false_iff.1 hv), mixedStage_fadeDuration]
  rw [hoff, postChain_eq]
  refine ⟨fun hon => ?_, fun hfade => if_neg (Bool.eq_false_iff.1 hfade)⟩
  rw [if_pos hon, getElem?_mapStage, Nat.zero_add]

/-- Settles O46: the ramps are apart, a quotient of at most 1 rounds to one of at most 1, and 0 / k to 0. -/
theorem fadeEndsAtZero : Obligations.FadeEndsAtZero := by
  refine ⟨fun _ _ _ _ => rfl, fun _ nx n k j w hk hj => fadeSample_eq nx w hk hj, fun _ nx p p0 n j w d hp0 => ?_,
    fun c p hcaps hv hc => ?_, fun c hc n k j w z hk hn hj hw => ?_, fun n k w hpos hk hn hw => ?_⟩
  · obtain ⟨v, rfl, hv⟩ := hp0
    exact postChain_fade nx p v n j w d hv
  · have hn := (sampleCount_le hv).trans hcaps.2.1
    have hround := arithmeticRounds_numericsOf (hc.imp_right And.left)
    obtain ⟨half, hhalf⟩ := hc.elim (fun hc => exists_half_of_binary64 hc (hn.trans (by norm_num))) And.right
    obtain ⟨-, ⟨-, -, -, -, -, -, -, -, -, -, -, -, -, -, -, -, -, -, hfade⟩, -⟩ := validateIn_iff.1 hv
    exact fadeLength_le_half (exactLaws_numericsOf c) hround (hn.trans_lt (by norm_num)) hhalf
      (Bool.and_eq_true_iff.1 hfade).1
  · have h := exactLaws_numericsOf c
    have hround := arithmeticRounds_numericsOf hc
    have hn' : n < 2 ^ 32 := hn.trans_lt (by norm_num)
    obtain ⟨y, hy, hyz⟩ := exists_int_fadeSample h hround hk hn' hj hw
    refine ⟨y, hy, hyz, fun hpos hends => ?_⟩
    have hzero := standsFor_unique h hy (standsFor_fadeSample_ends h hround hpos hk hn' hends hw)
    injection hzero with hzero
    exact_mod_cast hzero
  · obtain ⟨a, ha⟩ := (isFinite_iff_standsFor exactLaws_numerics w).1 hw
    have hends : ∀ j, j = 0 ∨ j = n - 1 → numIsZero (fadeSample numerics n k j w) = true := fun j hj => by
      have hzero := (standsFor_fadeSample_ends exactLaws_numerics arithmeticRounds_numerics hpos hk
        (hn.trans_lt (by norm_num)) hj ha).2
      rw [zero_mul] at hzero
      exact (numScaled_eq_zero_iff _).1 (by exact_mod_cast hzero.symm)
    exact ⟨hends 0 (.inl rfl), hends (n - 1) (.inr rfl)⟩

end Sys2Proof.Proofs
end

/-! ### The waveforms, and the range of the noise -/

section
namespace Sys2Proof.Proofs

open Sys2Proof.Machine Sys2Proof.Laws Sys2Proof.Safety

/-! ### What a noise source answers and leaves -/

section Noise

variable {Num : Type} (nx : Numerics Num) (d : Dsp Num)

/-- A draw is the PRNG's next value and advances nothing but the PRNG (42_oscillators.md rule R170). -/
theorem drawU_eq : drawU nx d = ((nx.rngNext d.rng).2, { d with rng := (nx.rngNext d.rng).1 }) := rfl

/-- The value of pink noise is its accumulator over the index plus one (42_oscillators.md rule R172). -/
theorem noisePink_eq (i : Nat) :
    noisePink nx i d =
      (nx.div (nx.add d.accPink (drawU nx d).1) (nx.ofNat (i + 1)),
        { (drawU nx d).2 with accPink := nx.add d.accPink (drawU nx d).1 }) := rfl

/-- The sum from which a brown value is clamped (42_oscillators.md rule R173). -/
def brownSum : Num := nx.add d.accBrown (nx.mul (nx.tenths 1) (drawU nx d).1)

/-- The value of brown noise is its accumulator. -/
theorem noiseBrown_eq :
    noiseBrown nx d =
      (clamp nx (brownSum nx d) (nx.neg (nx.ofNat 1)) (nx.ofNat 1),
        { (drawU nx d).2 with accBrown := clamp nx (brownSum nx d) (nx.neg (nx.ofNat 1)) (nx.ofNat 1) }) := rfl

end Noise

/-! ### What each code of WAVEFORM selects -/

section Waveform

variable {Num : Type} (nx : Numerics Num) (f t : Num) (i : Nat) (d : Dsp Num)

theorem osc_sine : osc nx 0#32 f t i d = (oscSine nx f t, d) := rfl

theorem osc_triangle : osc nx 1#32 f t i d = (oscTriangle nx f t, d) := rfl

theorem osc_sawtooth : osc nx 2#32 f t i d = (oscSawtooth nx f t, d) := rfl

theorem osc_square : osc nx 3#32 f t i d = (oscSquare nx f t, d) := rfl

theorem osc_white : osc nx 4#32 f t i d = drawU nx d := rfl

theorem osc_pink : osc nx 5#32 f t i d = noisePink nx i d := rfl

theorem osc_brown : osc nx 6#32 f t i d = noiseBrown nx d := rfl

end Waveform

/-- Settles O35: each code selects its oscillator, and a noise source changes the state by its draw and accumulator. -/
theorem waveformCodeSelectsTheOscillator : Obligations.WaveformCodeSelectsTheOscillator := by
  refine fun Num nx f t i d => ⟨osc_sine nx f t i d, osc_triangle nx f t i d, osc_sawtooth nx f t i d,
    osc_square nx f t i d, ?_, ?_, ?_⟩
  · rw [osc_white, drawU_eq]
  · rw [osc_pink, noisePink_eq, drawU_eq]
  · rw [osc_brown, noiseBrown_eq, brownSum, clamp, drawU_eq]

/-! ### The range of the noise -/

section Exact

variable {Num : Type} {nx : Numerics Num} (h : ExactLaws nx)

include h

/-- The constant 0.1 is no further from a tenth than 0 is, so it is at most 0.2. -/
theorem exists_standsFor_tenth : ∃ g : ℝ, nx.standsFor (nx.tenths 1) (.finite g) ∧ |g| ≤ 1 := by
  obtain ⟨-, -, -, -, -, -, htenths, -⟩ := id h
  obtain ⟨g, hg, hnearest⟩ := htenths 1 (by norm_num)
  have hdist : |g - 1 / 10| ≤ 1 / 10 := by
    simpa [abs_of_pos] using hnearest _ _ (standsFor_ofNat h (n := 0) (by norm_num))
  obtain ⟨hlo, hhi⟩ := abs_le.1 hdist
  exact ⟨g, hg, abs_le.2 ⟨by linarith, by linarith⟩⟩

variable (hr : ArithmeticRounds nx) (hdraw : DrawLaws nx)

include hr hdraw

/-- The step 0.1 * u is finite, so the sum from which a brown value is clamped rounds. -/
theorem not_nan_brownSum {d : Dsp Num} (hd : Within nx 1 d.accBrown) : ¬ nx.standsFor (brownSum nx d) .nan := by
  obtain ⟨a, ha, -⟩ := exists_finite_of_within_one h hd
  obtain ⟨u, hu, -⟩ := exists_finite_of_within_one h (hdraw d.rng)
  obtain ⟨g, hg, hg1⟩ := exists_standsFor_tenth h
  have hprod : |g * u| ≤ |u| := by
    rw [abs_mul]
    exact mul_le_of_le_one_left (abs_nonneg u) hg1
  obtain ⟨s, hs, -⟩ := roundsTo_abs_le h (hr _ _ _ _ hg hu).2.2.1 hu hprod
  exact (hr _ _ _ _ ha hs).1.1

/-- A draw moves the pink accumulator by at most 1. -/
theorem within_accPink {d : Dsp Num} {m : Nat} (hm : m + 1 < 2 ^ 32) (hd : Within nx m d.accPink) :
    Within nx (m + 1) (nx.add d.accPink (drawU nx d).1) := by
  obtain ⟨a, ha, halo, hahi⟩ := (within_iff h (by omega)).1 hd
  obtain ⟨u, hu, hu1⟩ := exists_finite_of_within_one h (hdraw d.rng)
  obtain ⟨hulo, huhi⟩ := abs_le.1 hu1
  exact roundsTo_within h hm (hr _ _ _ _ ha hu).1 (by push_cast; linarith) (by push_cast; linarith)

omit hdraw

/-- A value divided by a count has its bound divided by that count. -/
theorem within_div_ofNat {x : Num} {m b k : Nat} (hm : m < 2 ^ 32) (hb : b < 2 ^ 32) (hk : k < 2 ^ 32) (hpos : 0 < k)
    (hmbk : m ≤ b * k) (hx : Within nx m x) : Within nx b (nx.div x (nx.ofNat k)) := by
  obtain ⟨a, ha, hlo, hhi⟩ := (within_iff h hm).1 hx
  have hpos' : (0 : ℝ) < k := by exact_mod_cast hpos
  have hquot : |a / k| ≤ b := by
    rw [abs_div, Nat.abs_cast, div_le_iff₀ hpos']
    exact (abs_le.2 ⟨hlo, hhi⟩).trans (by exact_mod_cast hmbk)
  obtain ⟨hqlo, hqhi⟩ := abs_le.1 hquot
  exact roundsTo_within h hb ((hr _ _ _ _ ha (standsFor_ofNat h hk)).2.2.2 hpos'.ne') hqlo hqhi

end Exact

/-- Settles O36: CLAMP bounds a brown value; where arithmetic rounds, a sum of m + 1 draws rounds to a value within
m + 1, and its quotient by i + 1 to one within (m + 1) / (i + 1). -/
theorem noiseStaysInRange : Obligations.NoiseStaysInRange := by
  intro c
  have h := exactLaws_numericsOf c
  have hdraw := drawLaws_numericsOf c
  refine ⟨fun d hsum => ⟨within_clamp h (by norm_num) hsum, rfl⟩, fun hc => ?_⟩
  have hr := arithmeticRounds_numericsOf hc
  refine ⟨fun d hd => not_nan_brownSum h hr hdraw hd, fun d m i hm hi hd => ?_⟩
  have hacc := within_accPink h hr hdraw hm hd
  rw [noisePink_eq]
  refine ⟨within_div_ofNat h hr hm hm hi i.succ_pos (Nat.le_mul_of_pos_right _ i.succ_pos) hacc, hacc, fun hmi => ?_⟩
  exact within_div_ofNat h hr hm (by norm_num) hi i.succ_pos (by omega) hacc

end Sys2Proof.Proofs
end

/-! ### The pitch law and the envelope -/

section
namespace Sys2Proof.Proofs

open Sys2Proof.Machine Sys2Proof.Laws Sys2Proof.Safety

/-! ### The pitch law each value of SMOOTH selects -/

section Pitch

variable {Num : Type} {nx : Numerics Num} {p : Params} {t : Num}

theorem pitch_of_smooth (h : p.smooth = true) : pitch nx p t = pitchSmooth nx p t := if_pos h

theorem pitch_of_step (h : p.smooth = false) : pitch nx p t = pitchStep nx p t := if_neg (ne_true_of_eq_false h)

theorem pitchStep_before_half (h : nx.lt t (nx.div (nx.asF64 p.duration) (nx.ofNat 2)) = true) :
    pitchStep nx p t = nx.asF64 p.startFreq := if_pos h

theorem pitchStep_from_half (h : nx.lt t (nx.div (nx.asF64 p.duration) (nx.ofNat 2)) = false) :
    pitchStep nx p t = nx.asF64 p.endFreq := if_neg (ne_true_of_eq_false h)

/-- The smooth law is the decaying frequency times the pitch modulation (43_pitch_envelope.md rule R200). -/
theorem pitchSmooth_eq :
    pitchSmooth nx p t =
      nx.mul
        (nx.mul (nx.asF64 p.startFreq)
          (nx.pow (nx.div (nx.asF64 p.endFreq) (nx.asF64 p.startFreq))
            (nx.mul (nx.div t (nx.asF64 p.duration)) (nx.asF64 p.sweep))))
        (pitchMod nx t) := rfl

end Pitch

/-- Settles O40: SMOOTH selects the law, and the step law's test against D / 2 its frequency. -/
theorem pitchFollowsItsLaw : Obligations.PitchFollowsItsLaw := by
  refine fun Num nx p t => ⟨fun hsmooth => ?_, fun hstep hbefore => ?_, fun hstep hfrom => ?_⟩
  · rw [pitch_of_smooth hsmooth, pitchSmooth_eq, pitchMod]
  · rw [pitch_of_step hstep, pitchStep_before_half hbefore]
  · rw [pitch_of_step hstep, pitchStep_from_half hfrom]

/-! ### The phases of the envelope -/

section Phases

variable {Num : Type} {nx : Numerics Num} {attack decay sustain release duration t : Num}

theorem adsr_attack (h : nx.lt t attack = true) :
    adsr nx attack decay sustain release duration t = nx.div t attack := if_pos h

variable (hattack : nx.lt t attack = false)

include hattack

theorem adsr_decay (h : nx.lt t (nx.add attack decay) = true) :
    adsr nx attack decay sustain release duration t =
      nx.sub (nx.ofNat 1) (nx.mul (nx.div (nx.sub t attack) decay) (nx.sub (nx.ofNat 1) sustain)) := by
  rw [adsr, if_neg (ne_true_of_eq_false hattack), if_pos h]

variable (hdecay : nx.lt t (nx.add attack decay) = false)

include hdecay

/-- Once the decay is over, only the sustain's end and the duration are still tested. -/
theorem adsr_after_decay :
    adsr nx attack decay sustain release duration t =
      if nx.lt t (nx.sub duration release) then sustain
      else if nx.lt t duration then
        nx.mul sustain (nx.sub (nx.ofNat 1) (nx.div (nx.sub t (nx.sub duration release)) release))
      else nx.ofNat 0 := by
  rw [adsr, if_neg (ne_true_of_eq_false hattack), if_neg (ne_true_of_eq_false hdecay)]

theorem adsr_sustain (h : nx.lt t (nx.sub duration release) = true) :
    adsr nx attack decay sustain release duration t = sustain := by
  rw [adsr_after_decay hattack hdecay, if_pos h]

variable (hsustain : nx.lt t (nx.sub duration release) = false)

include hsustain

theorem adsr_release (h : nx.lt t duration = true) :
    adsr nx attack decay sustain release duration t =
      nx.mul sustain (nx.sub (nx.ofNat 1) (nx.div (nx.sub t (nx.sub duration release)) release)) := by
  rw [adsr_after_decay hattack hdecay, if_neg (ne_true_of_eq_false hsustain), if_pos h]

theorem adsr_end (h : nx.lt t duration = false) :
    adsr nx attack decay sustain release duration t = nx.ofNat 0 := by
  rw [adsr_after_decay hattack hdecay, if_neg (ne_true_of_eq_false hsustain), if_neg (ne_true_of_eq_false h)]

end Phases

/-- Settles O41: the envelope of a snapshot is `adsr` of its registers, whose phases are the five branches. -/
theorem envelopeBranches : Obligations.EnvelopeBranches :=
  fun _ _ _ _ => ⟨adsr_attack, adsr_decay, adsr_sustain, adsr_release, adsr_end⟩

end Sys2Proof.Proofs
end

/-! ### The drive -/

section
namespace Sys2Proof.Proofs

open Sys2Proof.Machine Sys2Proof.Laws

theorem drive_of_pos {Num : Type} {nx : Numerics Num} {d : Num} (h : nx.lt (nx.ofNat 0) d = true) (x : Num) :
    drive nx d x = nx.div (nx.mul x (nx.add (nx.ofNat 1) d)) (nx.add (nx.ofNat 1) (nx.mul d (nx.abs x))) :=
  if_pos h

theorem drive_of_not_pos {Num : Type} {nx : Numerics Num} {d : Num} (h : nx.lt (nx.ofNat 0) d = false) (x : Num) :
    drive nx d x = x := if_neg (ne_true_of_eq_false h)

/-- A sum never underflows: the smallest magnitude above zero is one unit, and an exact sum is a whole number of units. -/
theorem numIsZero_numAdd_iff {x y : Num64} (hx : numIsFinite x = true) (hy : numIsFinite y = true) :
    numIsZero (numAdd x y) = true ↔ numScaled x + numScaled y = 0 := by
  by_cases h0 : numScaled x + numScaled y = 0
  · simp [numAdd_cancel hx hy h0, h0]
  · have hunit : patMag 1 * 1 ≤ (numScaled x + numScaled y).natAbs := Int.natAbs_pos.2 h0
    have hpos := le_roundPattern Nat.one_pos (by decide) hunit
    rw [numAdd_finite hx hy h0, numIsZero_iff, (numRound_parts _ _ _).2]
    omega

theorem one_add_ne_zero_of_pos {d : Num64} (hd : numIsFinite d = true) (hpos : numLt (numZero false) d = true) :
    numIsZero (numAdd numOne d) = false := by
  have hkey := (numLt_iff (by decide) (finite_not_nan hd)).1 hpos
  have hscaled : 0 < numScaled d := by
    rwa [numKey_lt_iff, (numScaled_eq_zero_iff _).2 (numIsZero_numZero false)] at hkey
  have hone := unitOne_pos
  rw [Bool.eq_false_iff, ne_eq, numIsZero_numAdd_iff finite_one hd, numScaled_numOne]
  omega

/-- Where ABS(x) is 1 the divisor of R220 is the factor 1 + d itself. -/
theorem drive_of_abs_one {d x : Num64} (hd : numIsFinite d = true) (hpos : numLt (numZero false) d = true)
    (hx : numAbs x = numOne) : drive numerics d x = numDiv (numMul x (numAdd numOne d)) (numAdd numOne d) := by
  have hlt : numerics.lt (numerics.ofNat 0) d = true := by rwa [numerics_eq, binary64_ofNat, numOfNat_zero]
  rw [drive_of_pos hlt]
  simp only [numerics_eq, binary64_ofNat, binary64_add, binary64_mul, binary64_div, binary64_abs, numOfNat_one, hx,
    numMul_one hd]

theorem drive_full_scale {d : Num64} (hd : numIsFinite d = true) :
    drive numerics d numOne = numOne ∧ drive numerics d (numNeg numOne) = numNeg numOne := by
  cases hpos : numLt (numZero false) d with
  | false =>
    have hlt : numerics.lt (numerics.ofNat 0) d = false := by rwa [numerics_eq, binary64_ofNat, numOfNat_zero]
    exact ⟨drive_of_not_pos hlt _, drive_of_not_pos hlt _⟩
  | true =>
    have hfin := numIsFinite_one_add hd
    have hne := one_add_ne_zero_of_pos hd hpos
    constructor
    · rw [drive_of_abs_one hd hpos (by decide), one_numMul hfin, numDiv_self hfin hne]
    · rw [drive_of_abs_one hd hpos (by decide), numMul_numNeg_left finite_one hfin, one_numMul hfin,
        numDiv_numNeg_left hfin hfin hne, numDiv_self hfin hne]

theorem numIsFinite_of_inUnit {x : Num64} (h : inUnit numerics x = true) : numIsFinite x = true := by
  rw [inUnit, Bool.and_eq_true, numerics_eq, binary64_ofNat, binary64_le, numOfNat_zero, numOfNat_one] at h
  obtain ⟨hnonneg, hle⟩ := h
  exact (atMost_of_inUnit hnonneg hle).1

/-- Settles O42: a legal drive d is finite, and at full scale the soft clip is (1 + d) / (1 + d), or its negation. -/
theorem driveFixesFullScale : Obligations.DriveFixesFullScale :=
  ⟨fun _ _ _ x => ⟨fun h => drive_of_pos h x, fun h => drive_of_not_pos h x⟩,
    fun _ h => drive_full_scale (numIsFinite_of_inUnit h)⟩

end Sys2Proof.Proofs
end

/-! ### The bands, and what their gains do to a magnitude -/

section
namespace Sys2Proof.Proofs

open Sys2Proof.Machine Sys2Proof.Laws Sys2Proof.Safety

/-! ### The gain of each band -/

section Bands

variable {Num : Type} {nx : Numerics Num} {p : Params} {fp : Num}

theorem bandGainOf_of_lt_band0 (h0 : nx.lt fp (nx.asF64 p.band0) = true) : bandGainOf nx p fp = nx.tenths 9 :=
  if_pos h0

theorem bandGainOf_of_lt_band1 (h0 : nx.lt fp (nx.asF64 p.band0) = false) (h1 : nx.lt fp (nx.asF64 p.band1) = true) :
    bandGainOf nx p fp = nx.tenths 8 := by
  rw [bandGainOf, if_neg (ne_true_of_eq_false h0), if_pos h1]

theorem bandGainOf_of_lt_band2 (h0 : nx.lt fp (nx.asF64 p.band0) = false) (h1 : nx.lt fp (nx.asF64 p.band1) = false)
    (h2 : nx.lt fp (nx.asF64 p.band2) = true) : bandGainOf nx p fp = nx.tenths 7 := by
  rw [bandGainOf, if_neg (ne_true_of_eq_false h0), if_neg (ne_true_of_eq_false h1), if_pos h2]

theorem bandGainOf_of_not_lt_band2 (h0 : nx.lt fp (nx.asF64 p.band0) = false)
    (h1 : nx.lt fp (nx.asF64 p.band1) = false) (h2 : nx.lt fp (nx.asF64 p.band2) = false) :
    bandGainOf nx p fp = nx.tenths 6 := by
  rw [bandGainOf, if_neg (ne_true_of_eq_false h0), if_neg (ne_true_of_eq_false h1), if_neg (ne_true_of_eq_false h2)]

/-- The stage multiplies by the gain of the proxy frequency and truncates (45_post_chain.md rule R242). -/
theorem bandGain_of_gain {g q t : Num}
    (hg : bandGainOf nx p (nx.mul (nx.ofNat 440) (nx.pow (nx.ofNat 2) t)) = g) :
    bandGain nx p q t = nx.trunc (nx.mul q g) := by
  rw [bandGain, bandProxy, hg]

end Bands

/-! ### What a gain does to a magnitude -/

section Exact

variable {Num : Type} {nx : Numerics Num} (h : ExactLaws nx)

include h

/-- A constant nearest a decimal from 0 to 0.9 is no further from it than 1 is, so it lies in [-1, 1]. -/
theorem exists_standsFor_tenths {n : Nat} (hn : n ≤ 9) :
    ∃ g : ℝ, nx.standsFor (nx.tenths n) (.finite g) ∧ |g| ≤ 1 := by
  obtain ⟨-, -, -, -, -, -, htenths, -⟩ := id h
  obtain ⟨g, hg, hnearest⟩ := htenths n (by omega)
  have hn0 : (0 : ℝ) ≤ n := n.cast_nonneg
  have hn9 : (n : ℝ) ≤ 9 := by exact_mod_cast hn
  have hdist := hnearest _ _ (standsFor_ofNat h (n := 1) (by norm_num))
  rw [Nat.cast_one, abs_of_nonneg (by linarith : (0 : ℝ) ≤ 1 - n / 10)] at hdist
  obtain ⟨hlo, hhi⟩ := abs_le.1 hdist
  exact ⟨g, hg, abs_le.2 ⟨by linarith, by linarith⟩⟩

variable (hr : ArithmeticRounds nx)

include hr

/-- A product no larger than a number of the domain below m + 1 truncates to an integer within m. -/
theorem integerWithin_trunc_mul {m : Nat} {x y z : Num} {a b e : ℝ} (hx : nx.standsFor x (.finite a))
    (hy : nx.standsFor y (.finite b)) (hz : nx.standsFor z (.finite e)) (hprod : |a * b| ≤ |e|) (he : |e| < m + 1) :
    IntegerWithin nx m (nx.trunc (nx.mul x y)) := by
  obtain ⟨c, hc, hce⟩ := roundsTo_abs_le h (hr _ _ _ _ hx hy).2.2.1 hz hprod
  exact integerWithin_trunc_of_lt h hc (hce.trans_lt he)

/-- A band's gain does not make an integer sample larger (45_post_chain.md rule R243). -/
theorem exists_int_bandGain {p : Params} {q t : Num} {z : Int} (hq : nx.standsFor q (.finite z)) :
    ∃ y : Int, nx.standsFor (bandGain nx p q t) (.finite y) ∧ |y| ≤ |z| := by
  obtain ⟨n, -, hn, hgain⟩ := bandGainOf_cases nx p (bandProxy nx t)
  obtain ⟨g, hg, hg1⟩ := exists_standsFor_tenths h hn
  have hprod : |(z : ℝ) * g| ≤ |(z : ℝ)| := by
    rw [abs_mul]
    exact mul_le_of_le_one_right (abs_nonneg _) hg1
  have hz : |(z : ℝ)| < z.natAbs + 1 := by
    rw [← Int.cast_abs, Int.abs_eq_natAbs, Int.cast_natCast]
    exact lt_add_one _
  obtain ⟨y, hy, hlo, hhi⟩ := integerWithin_trunc_mul h hr hq hg hq hprod hz
  exact ⟨y, bandGain_of_gain hgain ▸ hy, Int.abs_eq_natAbs z ▸ abs_le.2 ⟨hlo, hhi⟩⟩

end Exact

/-- The bounds of a value in the default's own comparison and negation. -/
theorem within_numerics_iff {m : Nat} {x : Num64} :
    Within numerics m x ↔ numLe (numNeg (numOfNat m)) x = true ∧ numLe x (numOfNat m) = true := Iff.rfl

/-- The default's gain of any value within 32768, integer or not: 0.9 of 32768 is below the binary64 value 29491.5. -/
theorem integerWithin_bandGain_of_within {p : Params} {q t : Num64} (hq : Within numerics 32768 q) :
    IntegerWithin numerics 29491 (bandGain numerics p q t) := by
  obtain ⟨a, ha, hlo, hhi⟩ := (within_iff exactLaws_numerics (by norm_num)).1 hq
  obtain ⟨n, -, hn, hgain⟩ := bandGainOf_cases numerics p (bandProxy numerics t)
  obtain ⟨g, hg, hg0, hg9⟩ := standsFor_tenths hn
  obtain ⟨y, hy⟩ := exists_standsFor_dyadic (m := 58983) (j := 1) (by norm_num) (by norm_num)
  have ha' : |a| ≤ 32768 := abs_le.2 (by exact_mod_cast And.intro hlo hhi)
  have hprod : |a * g| ≤ |((58983 : Nat) : ℝ) / 2 ^ 1| := by
    rw [abs_mul, abs_of_nonneg hg0]
    calc |a| * g ≤ 32768 * (58983 / 2 ^ 16) := mul_le_mul ha' hg9 hg0 (by norm_num)
      _ = |((58983 : Nat) : ℝ) / 2 ^ 1| := by norm_num
  rw [bandGain_of_gain hgain]
  exact integerWithin_trunc_mul exactLaws_numerics arithmeticRounds_numerics ha hg hy hprod (by norm_num)

/-- Settles O45: the first band edge above the proxy frequency selects the gain; a gain of at most 1 keeps an integer's
magnitude where a product rounds, and the default's gains keep 32768 within 29491. -/
theorem bandGainAttenuates : Obligations.BandGainAttenuates := by
  refine ⟨fun _ _ _ _ _ => ⟨fun h0 => ?_, fun h0 h1 => ?_, fun h0 h1 h2 => ?_, fun h0 h1 h2 => ?_⟩,
    fun c hc p q t z hq => ?_, fun p q t hlo hhi => ?_⟩
  · exact bandGain_of_gain (bandGainOf_of_lt_band0 h0)
  · exact bandGain_of_gain (bandGainOf_of_lt_band1 h0 h1)
  · exact bandGain_of_gain (bandGainOf_of_lt_band2 h0 h1 h2)
  · exact bandGain_of_gain (bandGainOf_of_not_lt_band2 h0 h1 h2)
  · exact exists_int_bandGain (exactLaws_numericsOf c) (arithmeticRounds_numericsOf hc) hq
  · have hq := within_numerics_iff.2 ⟨hlo, hhi⟩
    obtain ⟨y, hy, hylo, hyhi⟩ := integerWithin_bandGain_of_within (p := p) (t := t) hq
    have hint : numToInt (bandGain numerics p q t) = y := (integerLaws_binary64 defaultOps _).1 y hy
    rw [hint]
    exact ⟨hylo, hyhi⟩

end Sys2Proof.Proofs
end

/-! ### The byte at a PCM position -/

section
namespace Sys2Proof.Proofs

open Sys2Proof.Machine

/-- A position below SAMPLES * BPS of an idle block, in a defined entry (46_pcm_output.md rules R262, R263). -/
theorem pcmByte_defined {s : State} {j : Nat} {w : BitVec 32} (hbusy : s.status.busy = false)
    (hbps : s.status.bps ≠ 0#4) (hj : j < s.status.samples.toNat * s.status.bps.toNat)
    (hw : readSample s.mem (j / s.status.bps.toNat) = some w) :
    pcmByte j s = some (byteOf w (j % s.status.bps.toNat)) := by
  have hheld : ¬ (s.status.busy || s.status.bps == 0#4) = true := by simp [hbusy, hbps]
  simp only [pcmByte, if_neg hheld, if_neg (Nat.not_le.2 hj), hw]

/-- The block is busy or holds no render (46_pcm_output.md rule R264). -/
theorem pcmByte_of_no_render {s : State} (h : s.status.busy = true ∨ s.status.bps = 0#4) (j : Nat) :
    pcmByte j s = none :=
  if_pos (by simpa using h)

/-- The position is past the last sample, or its entry is unspecified (46_pcm_output.md rule R264). -/
theorem pcmByte_of_no_sample {s : State} {j : Nat} (h : s.status.samples.toNat * s.status.bps.toNat ≤ j ∨
    readSample s.mem (j / s.status.bps.toNat) = none) : pcmByte j s = none := by
  obtain hpast | hnone := h
  · simp only [pcmByte, if_pos hpast, ite_self]
  · simp only [pcmByte, hnone, ite_self]

/-- Settles O23: a defined position gives its sample's byte; without a render, or without a sample there, the byte is
unspecified. -/
theorem pcmByteValue : Obligations.PcmByteValue := by
  intro s j
  refine ⟨fun _ => pcmByte_defined, ?_⟩
  rintro (hbusy | hbps | hsample)
  · exact pcmByte_of_no_render (.inl hbusy) j
  · exact pcmByte_of_no_render (.inr hbps) j
  · exact pcmByte_of_no_sample hsample

end Sys2Proof.Proofs
end

/-! ### How a running render ends -/

section
namespace Sys2Proof.Proofs

open Sys2Proof.Machine Sys2Proof.Laws Sys2Proof.Safety

theorem engineUpdate_of_nonfinite {s : State} {p : Params} (h : render (numericsOf s.caps).ops p = none) :
    engineUpdate p s = abortNonfinite s := by
  simp only [engineUpdate, h]

/-- Settles O52: the update is the abort, which leaves no entry defined. -/
theorem engineAbortsOnNonfinite : Obligations.EngineAbortsOnNonfinite := by
  intro s p hs hr
  refine ⟨abortNonfinite s, ?_, readSample_nil, rfl, rfl, rfl, rfl, rfl, rfl, rfl, rfl, rfl, rfl, rfl, rfl, rfl, rfl⟩
  rw [step_of_due hs, engineUpdate_of_nonfinite hr]

/-- The engine's update, completion or abort, ends the render. -/
@[simp] theorem engineUpdate_engine (p : Params) (s : State) : (engineUpdate p s).engine = .idle := by
  unfold engineUpdate
  split <;> rfl

theorem busy_of_running {s : State} {p : Params} {left : Nat} (h : Inv s) (hs : s.engine = .running p left) :
    s.status.busy = true := by
  rw [show s.status.busy = (runningSnapshot s).isSome from h.busyMatches, runningSnapshot_of_running hs]
  rfl

/-- A render whose update is not due has a host-visible step left, which the passing of one takes. -/
theorem tickEngine_of_not_due {s : State} {p : Params} {left : Nat} (hdue : engineDue s = none)
    (hs : s.engine = .running p left) :
    ∃ left', left = left' + 1 ∧ (tickEngine s).engine = .running p left' := by
  cases left with
  | zero => exact absurd hs (engineDue_eq_none.1 hdue p)
  | succ left' => exact ⟨left', rfl, by rw [tickEngine_running hs]⟩

/-- While BUSY = 1 a host interaction ends the render by a reset, or leaves it as it is. -/
theorem engine_of_performEvent_busy {e : BusEvent} {s t : State} (hb : s.status.busy = true)
    (he : performEvent e s = .next t) : t.engine = .idle ∨ t.engine = s.engine := by
  by_cases hreset : e = .reset
  · subst hreset
    cases he
    exact .inl rfl
  by_cases hsoft : e = .write (encode .softReset)
  · subst hsoft
    rw [performEvent_write_instr (decode_encode .softReset)] at he
    cases he
    exact .inl rfl
  · exact .inr (runningSnapshotIsIsolated s t e hb he hreset hsoft)

/-- Settles O53: the update ends the render; every other step takes one from the steps left, and the access it performs
can only end the render or leave it. -/
theorem runningRenderEnds : Obligations.RunningRenderEnds := by
  intro s t p left hinv hs hst
  obtain ⟨q, -, rfl⟩ | ⟨hdue, -, rfl⟩ | ⟨e, rest, hdue, -, he⟩ := step_effect hst
  · exact .inl (engineUpdate_engine q s)
  · exact .inr (tickEngine_of_not_due hdue hs)
  · obtain ⟨left', hleft, htick⟩ := tickEngine_of_not_due hdue hs
    have hbusy : ({ tickEngine s with inbox := rest } : State).status.busy = true :=
      (congrArg Status.busy (tickEngine_status s)).trans (busy_of_running hinv hs)
    exact (engine_of_performEvent_busy hbusy he).imp_right fun hkept => ⟨left', hleft, hkept.trans htick⟩

end Sys2Proof.Proofs
end
